-- ==== Sys2Proof/Word.lean ====
section
/-! DEFINITION. The word types of the block (00_scope.md rules R7, R11): every value is unsigned and has one fixed width. -/

namespace Sys2Proof

/-- A data byte or character (`BYTE_W = 8`, rule R7). -/
abbrev Byte := BitVec 8

/-- Half a byte: the value of one hex digit (rule R94). -/
abbrev Nibble := BitVec 4

/-- A CRC register, the operand field of a command, or a response word (`CRC_W = RSP_W = 16`, rules R7, R81). -/
abbrev Half := BitVec 16

/-- A byte index or byte count (`IDX_W = 9`, rule R7). -/
abbrev Idx := BitVec 9

/-- A command word (`CMD_W = 24`, rules R7, R80). -/
abbrev Cmd := BitVec 24

end Sys2Proof
end

