-- ==== Sys2Proof/Syntax.lean ====
section
/-! DEFINITION. The commands of the block, one constructor per row of the opcode table (30_encoding.md rules R81, R83). -/

namespace Sys2Proof

/-- The four operand formats of rule R81. -/
inductive Format where
  /-- N: no operand. -/
  | n
  /-- B: a data byte or character in `cmd[7:0]`. -/
  | b
  /-- I: a buffer index in `cmd[8:0]`. -/
  | i
  /-- W: the new `cfg` value in `cmd[1:0]`. -/
  | w
deriving DecidableEq, Repr

/-- A command as it is written (rule R87): its name and, for formats B, I and W, its 16-bit operand.
The bits of the operand that the format ignores may be anything (rule R82); `Instr.wf` singles out the
canonical commands, which have them 0. -/
inductive Instr where
  | nop
  | crcInit
  | crcUpd (operand : Half)
  | crcRd
  | lrcInit
  | lrcUpd (operand : Half)
  | lrcRd
  | rtuClr
  | rtuPush (operand : Half)
  | rtuStat
  | rtuRdb (operand : Half)
  | rtuLen
  | rtuCnt
  | rtuCrc
  | ascClr
  | ascPush (operand : Half)
  | ascStat
  | ascRdb (operand : Half)
  | ascCnt
  | ascSum
  | cfgWr (operand : Half)
  | cfgRd
deriving DecidableEq, Repr

/-- The operand format of a command (rule R81). -/
def Instr.format : Instr → Format
  | .nop | .crcInit | .crcRd | .lrcInit | .lrcRd => .n
  | .rtuClr | .rtuStat | .rtuLen | .rtuCnt | .rtuCrc => .n
  | .ascClr | .ascStat | .ascCnt | .ascSum | .cfgRd => .n
  | .crcUpd _ | .lrcUpd _ | .rtuPush _ | .ascPush _ => .b
  | .rtuRdb _ | .ascRdb _ => .i
  | .cfgWr _ => .w

/-- The operand field of a command; a format N command is written with operand 0. -/
def Instr.operand : Instr → Half
  | .nop | .crcInit | .crcRd | .lrcInit | .lrcRd => 0
  | .rtuClr | .rtuStat | .rtuLen | .rtuCnt | .rtuCrc => 0
  | .ascClr | .ascStat | .ascCnt | .ascSum | .cfgRd => 0
  | .crcUpd x | .lrcUpd x | .rtuPush x | .ascPush x => x
  | .rtuRdb x | .ascRdb x => x
  | .cfgWr x => x

/-- The name of a command in the opcode table (rule R83). -/
def Instr.mnemonic : Instr → String
  | .nop => "NOP"
  | .crcInit => "CRC.INIT"
  | .crcUpd _ => "CRC.UPD"
  | .crcRd => "CRC.RD"
  | .lrcInit => "LRC.INIT"
  | .lrcUpd _ => "LRC.UPD"
  | .lrcRd => "LRC.RD"
  | .rtuClr => "RTU.CLR"
  | .rtuPush _ => "RTU.PUSH"
  | .rtuStat => "RTU.STAT"
  | .rtuRdb _ => "RTU.RDB"
  | .rtuLen => "RTU.LEN"
  | .rtuCnt => "RTU.CNT"
  | .rtuCrc => "RTU.CRC"
  | .ascClr => "ASC.CLR"
  | .ascPush _ => "ASC.PUSH"
  | .ascStat => "ASC.STAT"
  | .ascRdb _ => "ASC.RDB"
  | .ascCnt => "ASC.CNT"
  | .ascSum => "ASC.SUM"
  | .cfgWr _ => "CFG.WR"
  | .cfgRd => "CFG.RD"

/-- The units a command can address (rule R83, column "unit"). -/
inductive BlockUnit where
  | none
  | crc
  | lrc
  | rtu
  | asc
  | cfg
deriving DecidableEq, Repr

/-- The unit a command addresses (rule R83). -/
def Instr.unit : Instr → BlockUnit
  | .nop => .none
  | .crcInit | .crcUpd _ | .crcRd => .crc
  | .lrcInit | .lrcUpd _ | .lrcRd => .lrc
  | .rtuClr | .rtuPush _ | .rtuStat | .rtuRdb _ | .rtuLen | .rtuCnt | .rtuCrc => .rtu
  | .ascClr | .ascPush _ | .ascStat | .ascRdb _ | .ascCnt | .ascSum => .asc
  | .cfgWr _ | .cfgRd => .cfg

end Sys2Proof
end

