-- ==== Sys2Proof/WellFormed.lean ====
section
/-! DEFINITION. Which commands are canonical: the operand bits their format ignores are 0
(30_encoding.md rules R81, R82; 92_eei_decisions.md D37: "the canonical encoding has them 0"). -/

namespace Sys2Proof

/-- An operand in which only bits of the format's field can be 1. -/
def Format.fits : Format → Half → Bool
  | .n, x => x == 0
  | .b, x => decide (x.toNat < 2 ^ 8)
  | .i, x => decide (x.toNat < 2 ^ 9)
  | .w, x => decide (x.toNat < 2 ^ 2)

/-- A canonical command. Every command has a meaning, canonical or not (rule R82). -/
def Instr.wf (i : Instr) : Bool := i.format.fits i.operand

end Sys2Proof
end

