-- ==== Sys2Proof/Decode.lean ====
section
/-! DEFINITION. The command word: fields, decoder, encoder and textual form (30_encoding.md rules R80 to R87). -/

namespace Sys2Proof

/-- `op = cmd[23:16]` (rule R81). -/
def opField (w : Cmd) : Byte := w.extractLsb' 16 8

/-- `operand = cmd[15:0]` (rule R81). -/
def operandField (w : Cmd) : Half := w.extractLsb' 0 16

/-- The operand with the bits its format ignores cleared (rules R81, R82). -/
def usedOperand : Format → Half → Half
  | .n, _ => 0
  | .b, x => (x.setWidth 8).setWidth 16
  | .i, x => (x.setWidth 9).setWidth 16
  | .w, x => (x.setWidth 2).setWidth 16

/-- One row of the table of command codes. -/
structure OpRow where
  op     : Byte
  format : Format
  build  : Half → Instr

/-- The table of command codes (rule R83), in its order. -/
def opRows : List OpRow :=
  [ ⟨0x00, .n, fun _ => .nop⟩,
    ⟨0x01, .n, fun _ => .crcInit⟩,
    ⟨0x02, .b, .crcUpd⟩,
    ⟨0x03, .n, fun _ => .crcRd⟩,
    ⟨0x04, .n, fun _ => .lrcInit⟩,
    ⟨0x05, .b, .lrcUpd⟩,
    ⟨0x06, .n, fun _ => .lrcRd⟩ ] ++
  [ ⟨0x08, .n, fun _ => .rtuClr⟩,
    ⟨0x09, .b, .rtuPush⟩,
    ⟨0x0A, .n, fun _ => .rtuStat⟩,
    ⟨0x0B, .i, .rtuRdb⟩,
    ⟨0x0C, .n, fun _ => .rtuLen⟩,
    ⟨0x0D, .n, fun _ => .rtuCnt⟩,
    ⟨0x0E, .n, fun _ => .rtuCrc⟩ ] ++
  [ ⟨0x10, .n, fun _ => .ascClr⟩,
    ⟨0x11, .b, .ascPush⟩,
    ⟨0x12, .n, fun _ => .ascStat⟩,
    ⟨0x13, .i, .ascRdb⟩,
    ⟨0x14, .n, fun _ => .ascCnt⟩,
    ⟨0x15, .n, fun _ => .ascSum⟩ ] ++
  [ ⟨0x18, .w, .cfgWr⟩,
    ⟨0x19, .n, fun _ => .cfgRd⟩ ]

/-- What a command word stands for: a command, or a reserved code, by its number (rule R86). -/
inductive Decoded where
  | instr (i : Instr)
  | reserved (op : Byte)
deriving DecidableEq, Repr

/-- The decoder: total on every 24-bit word; a code outside the table is rejected by name (rules R82, R83, R86). -/
def decode (w : Cmd) : Decoded :=
  match opRows.find? (fun r => r.op == opField w) with
  | some r => .instr (r.build (usedOperand r.format (operandField w)))
  | none => .reserved (opField w)

/-- The command code of a command (rule R83). -/
def Instr.opcode : Instr → Byte
  | .nop => 0x00
  | .crcInit => 0x01
  | .crcUpd _ => 0x02
  | .crcRd => 0x03
  | .lrcInit => 0x04
  | .lrcUpd _ => 0x05
  | .lrcRd => 0x06
  | .rtuClr => 0x08
  | .rtuPush _ => 0x09
  | .rtuStat => 0x0A
  | .rtuRdb _ => 0x0B
  | .rtuLen => 0x0C
  | .rtuCnt => 0x0D
  | .rtuCrc => 0x0E
  | .ascClr => 0x10
  | .ascPush _ => 0x11
  | .ascStat => 0x12
  | .ascRdb _ => 0x13
  | .ascCnt => 0x14
  | .ascSum => 0x15
  | .cfgWr _ => 0x18
  | .cfgRd => 0x19

/-- The encoder: `{op, operand}` (rules R80, R81). -/
def encode (i : Instr) : Cmd := i.opcode ++ i.operand

/-- The decoder on a word numbered as the opcode table numbers it: one 24-bit word, bit 0 the least significant
(rule R80); bits at and above `nbits` are 0. -/
def decodeTableWord (nbits w : Nat) : Option Instr :=
  match decode (BitVec.ofNat 24 (w % 2 ^ nbits)) with
  | .instr i => some i
  | .reserved _ => none

/-- One uppercase hexadecimal digit, as text. -/
def hexDigitText (n : Nat) : String := String.singleton (("0123456789ABCDEF".toList)[n]?.getD '?')

/-- A number as `0x` and `digits` hexadecimal digits, as the spec writes constants (rule R11). -/
def hexText (digits value : Nat) : String :=
  "0x" ++ String.join ((List.range digits).reverse.map fun k => hexDigitText (value / 16 ^ k % 16))

/-- The operand's text: two hexadecimal digits for a byte, a decimal index, four hexadecimal digits for a `cfg`
value (the forms of rule R87's examples). An operand with an ignored bit set is written with four hexadecimal
digits in every format, so that no bit of it is lost. -/
def Instr.operandText (i : Instr) : String :=
  match i.format, i.wf with
  | .n, _ => ""
  | .b, true => " " ++ hexText 2 i.operand.toNat
  | .i, true => " " ++ toString i.operand.toNat
  | .w, true => " " ++ hexText 4 i.operand.toNat
  | _, false => " " ++ hexText 4 i.operand.toNat

/-- The textual form of a command: "its mnemonic followed by its operand" (rule R87). -/
def Instr.text (i : Instr) : String := i.mnemonic ++ i.operandText

end Sys2Proof
end

