-- ==== Sys2Proof/Config.lean ====
section
/-! DEFINITION. The parameters of the block (00_scope.md rule R7): all are constants, none is an argument of the model.
There is no free value: no rule of the spec draws one (rules R8, R289). -/

namespace Sys2Proof.Config

/-- `BYTE_W`. -/
abbrev byteW : Nat := 8
/-- `CRC_W`. -/
abbrev crcW : Nat := 16
/-- `LRC_W`. -/
abbrev lrcW : Nat := 8
/-- `IDX_W`. -/
abbrev idxW : Nat := 9
/-- `CMD_W`. -/
abbrev cmdW : Nat := 24
/-- `RSP_W`. -/
abbrev rspW : Nat := 16

/-- `BUF_BYTES`: the capacity of each frame buffer. -/
abbrev bufBytes : Nat := 264

/-- `CRC_POLY`: the feedback constant of the right-shifting form. -/
abbrev crcPoly : Half := 0xA001

/-- `CRC_INIT`: the CRC of the empty message. -/
abbrev crcInit : Half := 0xFFFF

end Sys2Proof.Config
end

