-- ==== Sys2Proof/Machine/State.lean ====
section
/-! DEFINITION. The state of the block, exactly the list of 10_state.md rule R20, with the ports of rule R44;
the reasons a step can stop; the reset state (rules R48, R276). -/

namespace Sys2Proof.Machine

/-- A frame buffer's contents: the bytes that are not 0x00, by strictly rising index (20_memory.md rule R60).
An unlisted byte reads 0x00 (rule R276: "a model should initialise them to zeros"; DESIGN CHOICE, log entry 4). -/
abbrev Memory := List Host.Cell

/-- The canonical form from index `lo` upward: indices strictly rising and below `BUF_BYTES`, no byte 0x00. -/
def Memory.wfFrom (lo : Nat) : Memory → Bool
  | [] => true
  | (a, v) :: rest => decide (lo ≤ a) && decide (a < Config.bufBytes) && (v != 0) && Memory.wfFrom (a + 1) rest

/-- The canonical form of a frame buffer: equal contents are equal lists. -/
def Memory.wf (m : Memory) : Bool := Memory.wfFrom 0 m

/-- The two data address spaces (20_memory.md rule R60). -/
inductive Space where
  | rbuf
  | abuf
deriving DecidableEq, Repr

/-- The direction of an RTU frame (rule R40 bit 1, rule R27 `r_dir`). -/
inductive Dir where
  /-- 0: the block sits in a master and receives responses. -/
  | response
  /-- 1: the block sits in a slave and receives requests. -/
  | request
deriving DecidableEq, Repr

/-- The values of `r_state` (rule R28). -/
inductive RtuState where
  | idle
  | recv
  | done
  | error
deriving DecidableEq, Repr

/-- The values of `a_state` (rule R30). -/
inductive AscState where
  | idle
  | line
  | cr
  | done
deriving DecidableEq, Repr

/-- The RTU parser's registers and buffer (rules R20, R27): field `x` is the spec's `r_x`, `buf` is `RBUF`. -/
structure RtuParser where
  state : RtuState
  idx   : Idx
  len   : Idx
  lenk  : Bool
  dir   : Dir
  exc   : Bool
  crc   : Half
  crcok : Bool
  err   : BitVec 3
  ovr   : Bool
  buf   : Memory
deriving DecidableEq, Repr

/-- The ASCII detector's registers and buffer (rules R20, R29): field `x` is the spec's `a_x`, `buf` is `ABUF`. -/
structure AscDetector where
  state   : AscState
  started : Bool
  phase   : Bool
  hi      : Nibble
  cnt     : Idx
  sum     : Byte
  flags   : BitVec 5
  lrcok   : Bool
  ovr     : Bool
  buf     : Memory
deriving DecidableEq, Repr

/-- The input ports at one `clk` event (rule R44). -/
structure PortSample where
  rst      : Bool
  cmdValid : Bool
  cmd      : Cmd
deriving DecidableEq, Repr

/-- The whole state: the registers and buffers of rule R20; `rsp`, the output port of rule R44 as the last step
left it (log entry 3); `inputs`, the samples the host will present at the coming `clk` events, oldest first, the
model's own field (log entry 1). -/
structure State where
  crc    : Half
  lsum   : Byte
  cfg    : BitVec 2
  rtu    : RtuParser
  asc    : AscDetector
  rsp    : Half
  inputs : List PortSample
deriving DecidableEq, Repr

/-- Nothing makes the block stop: "every (state, command) pair has exactly one next state and one response"
(70_reset_and_hazards.md rule R289). No meaning raises a fault; the type is empty (log entry 8). -/
inductive Fault where
deriving DecidableEq, Repr

/-- Why a step can be refused. -/
inductive Refusal where
  /-- A command with no meaning in this model, by its mnemonic: raised by an arm of `exec` only, and by none of
  them, since every command has its meaning. Safe: nothing is said of the state after. -/
  | notModelled (mnemonic : String)
deriving DecidableEq, Repr

/-- The RTU parser after reset, and after `RTU.CLR` but for the buffer (rules R48, R276). -/
def RtuParser.reset : RtuParser :=
  { state := .idle, idx := 0, len := 0, lenk := false, dir := .response, exc := false, crc := Config.crcInit,
    crcok := false, err := 0, ovr := false, buf := [] }

/-- The ASCII detector after reset, and after `ASC.CLR` but for the buffer (rules R48, R276). -/
def AscDetector.reset : AscDetector :=
  { state := .idle, started := false, phase := false, hi := 0, cnt := 0, sum := 0, flags := 0, lrcok := false,
    ovr := false, buf := [] }

/-- The state right after reset (rules R48, R276): `CHECK_FRAME = 1`, `RTU_DIR = 0`, each unit ready for a message,
response 0x0000 (rule R275), nothing waiting at the ports. -/
def State.reset : State :=
  { crc := Config.crcInit, lsum := 0, cfg := 0b01, rtu := .reset, asc := .reset, rsp := 0, inputs := [] }

end Sys2Proof.Machine
end

