-- ==== Sys2Proof/Machine/Operands.lean ====
section
/-! DEFINITION. What the bits of an operand, of a function-code byte and of a character select: the operand forms
(30_encoding.md rule R81), the RTU length classes (rules R95 to R100) and the character classes (rules R104 to R107). -/

namespace Sys2Proof.Machine

/-! ### Operand forms (rule R81) -/

/-- Format B: `b = cmd[7:0]`. -/
def operandByte (x : Half) : Byte := x.setWidth 8

/-- Format I: `i = cmd[8:0]`. -/
def operandIndex (x : Half) : Idx := x.setWidth 9

/-- Format W: the new `cfg` value `cmd[1:0]`. -/
def operandCfg (x : Half) : BitVec 2 := x.setWidth 2

/-! ### RTU length classes -/

/-- The length classes of rules R97 and R98. -/
inductive LenClass where
  | exc
  | rdRsp
  | wrRsp
  | fixReq
  | bulkReq
  | unsupported
deriving DecidableEq, Repr

/-- The class of a function code in the response direction (rule R97). -/
def responseClass (fc : Byte) : LenClass :=
  if fc.getLsbD 7 then .exc
  else if fc = 0x01 ∨ fc = 0x02 ∨ fc = 0x03 ∨ fc = 0x04 then .rdRsp
  else if fc = 0x05 ∨ fc = 0x06 ∨ fc = 0x0F ∨ fc = 0x10 then .wrRsp
  else .unsupported

/-- The class of a function code in the request direction (rule R98). -/
def requestClass (fc : Byte) : LenClass :=
  if fc = 0x01 ∨ fc = 0x02 ∨ fc = 0x03 ∨ fc = 0x04 ∨ fc = 0x05 ∨ fc = 0x06 then .fixReq
  else if fc = 0x0F ∨ fc = 0x10 then .bulkReq
  else .unsupported

/-- The class of a function code for the latched direction. -/
def lenClass : Dir → Byte → LenClass
  | .response, fc => responseClass fc
  | .request, fc => requestClass fc

/-- The direction that bit 1 of `cfg` selects (rule R40). -/
def dirOfBit : Bool → Dir
  | false => .response
  | true => .request

/-- `r_dir` as a bit: 0 response, 1 request (rule R27). -/
def Dir.bit : Dir → Bool
  | .response => false
  | .request => true

/-! ### Characters -/

/-- The character classes of rules R104 to R107. -/
inductive CharClass where
  | colon
  | cr
  | lf
  | hex
  | other
deriving DecidableEq, Repr

/-- `:` (rule R93). -/
def charColon : Byte := 0x3A
/-- CR (rule R93). -/
def charCr : Byte := 0x0D
/-- LF (rule R93). -/
def charLf : Byte := 0x0A

/-- `hexval(c)`, `none` where the character is not a hex digit; lowercase letters are not (rule R94). -/
def hexVal (c : Byte) : Option Nibble :=
  if 0x30 ≤ c.toNat ∧ c.toNat ≤ 0x39 then some (BitVec.ofNat 4 (c.toNat - 0x30))
  else if 0x41 ≤ c.toNat ∧ c.toNat ≤ 0x46 then some (BitVec.ofNat 4 (c.toNat - 0x41 + 10))
  else none

/-- The class of a character (rules R104 to R107). -/
def charClass (c : Byte) : CharClass :=
  if c = charColon then .colon
  else if c = charCr then .cr
  else if c = charLf then .lf
  else if (hexVal c).isSome then .hex
  else .other

/-- `hexchar(n)` (rule R94). -/
def hexChar (n : Nibble) : Byte :=
  if n.toNat < 10 then BitVec.ofNat 8 (0x30 + n.toNat) else BitVec.ofNat 8 (0x41 + (n.toNat - 10))

/-- `hexpair(b)`: the character of the high nibble first (rules R65, R94). -/
def hexPair (b : Byte) : List Byte := [hexChar (b.extractLsb' 4 4), hexChar (b.extractLsb' 0 4)]

end Sys2Proof.Machine
end

