-- ==== Sys2Proof/Machine/Ops.lean ====
section
/-! DEFINITION. The shared operations: access to the frame buffers (20_memory.md), the checksum arithmetic
(40_crc16.md rule R121, 41_lrc.md rules R142, R143), responses (30_encoding.md rule R84), the block's only explicit
raise and the return from it (60_exceptions.md rules R247, R259), reset and idle events (10_state.md rule R44). -/

namespace Sys2Proof.Machine

/-! ### Memory -/

/-- The byte listed at index `a`, 0x00 where none is listed. -/
def Memory.lookup : Memory → Nat → Byte
  | [], _ => 0
  | (k, x) :: rest, a => if a = k then x else Memory.lookup rest a

/-- `MemRead(space, a, 1)`; an index with no storage reads 0x00 (rules R60, R68). -/
def Memory.read (m : Memory) (a : Nat) : Byte :=
  if a < Config.bufBytes then m.lookup a else 0

/-- Put byte `v` at index `a`, keeping indices rising and listing no 0x00. -/
def Memory.put : Memory → Nat → Byte → Memory
  | [], a, v => if v = 0 then [] else [(a, v)]
  | (k, x) :: rest, a, v =>
    if a < k then (if v = 0 then (k, x) :: rest else (a, v) :: (k, x) :: rest)
    else if a = k then (if v = 0 then rest else (k, v) :: rest)
    else (k, x) :: Memory.put rest a v

/-- `MemWrite(space, a, 1, v)`; an index with no storage cannot be written (rules R60, R68). -/
def Memory.write (m : Memory) (a : Nat) (v : Byte) : Memory :=
  if a < Config.bufBytes then m.put a v else m

/-- The first `n` bytes, `buf[0..n-1]`. -/
def Memory.bytes (m : Memory) (n : Nat) : List Byte := (List.range n).map m.read

/-- `MemRead(space, a, 1)` on the whole state (rule R12). -/
def State.memRead (s : State) (space : Space) (a : Nat) : Byte :=
  match space with
  | .rbuf => s.rtu.buf.read a
  | .abuf => s.asc.buf.read a

/-- `RDB`: the byte at `i` below the count, 0x00 at and above it (rule R62). -/
def readBelow (m : Memory) (count i : Idx) : Byte :=
  if i.toNat < count.toNat then m.read i.toNat else 0

/-! ### Checksum arithmetic -/

/-- One iteration of the loop of rule R121. -/
def crcShift (c : Half) : Half :=
  if c.getLsbD 0 then (c >>> 1) ^^^ Config.crcPoly else c >>> 1

/-- `k` iterations of the loop of rule R121. -/
def crcShifts : Nat → Half → Half
  | 0, c => c
  | k + 1, c => crcShifts k (crcShift c)

/-- `crc_step(c, b)` (rule R121). -/
def crcStep (c : Half) (b : Byte) : Half := crcShifts 8 (c ^^^ b.setWidth 16)

/-- `(s + b) mod 256`: the low 8 bits of the 9-bit sum (rules R142, R147). -/
def sumStep (s b : Byte) : Byte := BitVec.ofNat 8 ((s.toNat + b.toNat) % 256)

/-- `(0x100 - s) & 0xFF` (rules R143, R144). -/
def negSum (s : Byte) : Byte := BitVec.ofNat 8 ((0x100 - s.toNat) % 256)

/-! ### Responses and registers -/

/-- End a step with response `v` (rule R84). -/
def State.respond (s : State) (v : Half) : State := { s with rsp := v }

/-- Write `crc`. -/
def State.setCrc (s : State) (c : Half) : State := { s with crc := c }

/-- Write `lsum`. -/
def State.setLsum (s : State) (v : Byte) : State := { s with lsum := v }

/-- Write `cfg`. -/
def State.setCfg (s : State) (v : BitVec 2) : State := { s with cfg := v }

/-- Write the RTU parser's registers and buffer. -/
def State.setRtu (s : State) (r : RtuParser) : State := { s with rtu := r }

/-- Write the ASCII detector's registers and buffer. -/
def State.setAsc (s : State) (a : AscDetector) : State := { s with asc := a }

/-- Advance the input ports. -/
def State.setInputs (s : State) (q : List PortSample) : State := { s with inputs := q }

/-- `cfg.CHECK_FRAME` (rule R40). -/
def State.checkFrame (s : State) : Bool := s.cfg.getLsbD 0

/-- `cfg.RTU_DIR` (rule R40). -/
def State.rtuDir (s : State) : Dir := dirOfBit (s.cfg.getLsbD 1)

/-! ### Raising, returning to service, reset -/

/-- `raise Unsupported(RTU)`: `r_state <- ERROR; r_err <- 3; r_idx <- 2`, nothing else (rules R247, R258). -/
def RtuParser.raiseUnsupported (r : RtuParser) : RtuParser := { r with state := .error, err := 3, idx := 2 }

/-- Every RTU register at its reset value, `RBUF` as it was (rules R48, R157, R259). -/
def RtuParser.clear (r : RtuParser) : RtuParser := { RtuParser.reset with buf := r.buf }

/-- Every ASCII register at its reset value, `ABUF` as it was (rules R48, R192, R259). -/
def AscDetector.clear (a : AscDetector) : AscDetector := { AscDetector.reset with buf := a.buf }

/-- A step with `rst = 1`: every register at its reset value, the buffers not written, response 0x0000
(rules R44, R48, R275). -/
def State.resetEvent (s : State) : State :=
  { State.reset with rtu := s.rtu.clear, asc := s.asc.clear, inputs := s.inputs }

/-- A `clk` event with no command: nothing changes and `rsp` is 0x0000 (rules R44, R230). -/
def State.idleEvent (s : State) : State := s.respond 0

/-- A command with a reserved code: no state changes, response 0x0000 (rule R86). -/
def State.reservedEvent (s : State) : State := s.respond 0

end Sys2Proof.Machine
end

