-- ==== Sys2Proof/Machine/Flags.lean ====
section
/-! DEFINITION. Flags, status words and level outputs: 10_state.md rules R31, R41 to R43, R45 and the causes of
60_exceptions.md rule R245. -/

namespace Sys2Proof.Machine

/-! ### Causes (rule R245) -/

/-- NONE. -/
abbrev causeNone : BitVec 3 := 0
/-- FRAMING. -/
abbrev causeFraming : BitVec 3 := 1
/-- CHECKSUM. -/
abbrev causeChecksum : BitVec 3 := 2
/-- UNSUPPORTED. -/
abbrev causeUnsupported : BitVec 3 := 3

/-! ### The RTU parser -/

/-- `r_state` as two bits (rule R28). -/
def RtuState.code : RtuState → BitVec 2
  | .idle => 0
  | .recv => 1
  | .done => 2
  | .error => 3

/-- `RTU_STAT.FRAME_OK` (rule R41). -/
def RtuParser.frameOk (r : RtuParser) (checkFrame : Bool) : Bool :=
  decide (r.state = .done) && (r.crcok || !checkFrame)

/-- `RTU_STAT.ERR` (rule R41). -/
def RtuParser.errCode (r : RtuParser) (checkFrame : Bool) : BitVec 3 :=
  if r.state = .error then r.err
  else if r.state = .done ∧ r.crcok = false ∧ checkFrame = true then causeChecksum
  else causeNone

/-- `RTU_STAT`, most significant field first (rule R41). -/
def RtuParser.stat (r : RtuParser) (checkFrame : Bool) : Half :=
  0#5 ++ r.errCode checkFrame ++ BitVec.ofBool r.exc ++ BitVec.ofBool r.ovr ++ BitVec.ofBool (r.frameOk checkFrame)
    ++ BitVec.ofBool r.crcok ++ BitVec.ofBool r.dir.bit ++ BitVec.ofBool r.lenk ++ r.state.code

/-- The word of `RTU.LEN`: `{r_lenk, 0b000000, r_len}` (rule R43). -/
def RtuParser.lenWord (r : RtuParser) : Half := BitVec.ofBool r.lenk ++ 0#6 ++ r.len

/-! ### The ASCII detector -/

/-- The framing detail flags (rule R20, `a_flags`). -/
inductive AscFlag where
  | badStart
  | nonHex
  | odd
  | short
  | ovf
deriving DecidableEq, Repr

/-- The bit of `a_flags` a flag stands in (rule R20). -/
def AscFlag.bit : AscFlag → Nat
  | .badStart => 0
  | .nonHex => 1
  | .odd => 2
  | .short => 3
  | .ovf => 4

/-- Set one flag; flags are sticky (rule R203). -/
def AscDetector.raiseFlag (a : AscDetector) (f : AscFlag) : AscDetector :=
  { a with flags := a.flags ||| (1#5 <<< f.bit) }

/-- Read one flag. -/
def AscDetector.flag (a : AscDetector) (f : AscFlag) : Bool := a.flags.getLsbD f.bit

/-- `a_state` as two bits (rule R30). -/
def AscState.code : AscState → BitVec 2
  | .idle => 0
  | .line => 1
  | .cr => 2
  | .done => 3

/-- `ASC_STAT.SOF` (rule R42). -/
def AscDetector.sof (a : AscDetector) : Bool := a.started && !a.flag .badStart

/-- `ASC_STAT.EOF` (rule R42). -/
def AscDetector.eof (a : AscDetector) : Bool := decide (a.state = .done)

/-- `ASC_STAT.FRAME_OK` (rule R42). -/
def AscDetector.frameOk (a : AscDetector) (checkFrame : Bool) : Bool :=
  decide (a.state = .done) && (a.flags == 0) && (a.lrcok || !checkFrame)

/-- `ASC_STAT.ERR`: FRAMING outranks CHECKSUM (rules R42, R254). -/
def AscDetector.errCode (a : AscDetector) (checkFrame : Bool) : BitVec 3 :=
  if a.state ≠ .done then causeNone
  else if a.flags ≠ 0 then causeFraming
  else if a.lrcok = false ∧ checkFrame = true then causeChecksum
  else causeNone

/-- `ASC_STAT`, most significant field first (rule R42). -/
def AscDetector.stat (a : AscDetector) (checkFrame : Bool) : Half :=
  a.flags ++ a.errCode checkFrame ++ 0#1 ++ BitVec.ofBool a.ovr ++ BitVec.ofBool (a.frameOk checkFrame)
    ++ BitVec.ofBool a.lrcok ++ BitVec.ofBool a.eof ++ BitVec.ofBool a.sof ++ a.state.code

/-! ### Level status outputs -/

/-- The level status outputs (rule R45): functions of the state, valid between steps. -/
structure LevelOutputs where
  crcOut     : Half
  lrcOut     : Byte
  rtuDone    : Bool
  rtuError   : Bool
  rtuFrameOk : Bool
  rtuIsExc   : Bool
  ascSof     : Bool
  ascEof     : Bool
  ascError   : Bool
  ascFrameOk : Bool
deriving DecidableEq, Repr

/-- What the level outputs show in a state (rule R45). -/
def State.outputs (s : State) : LevelOutputs :=
  { crcOut := s.crc
    lrcOut := negSum s.lsum
    rtuDone := decide (s.rtu.state = .done)
    rtuError := s.rtu.errCode s.checkFrame != 0
    rtuFrameOk := s.rtu.frameOk s.checkFrame
    rtuIsExc := s.rtu.exc
    ascSof := s.asc.sof
    ascEof := s.asc.eof
    ascError := s.asc.errCode s.checkFrame != 0
    ascFrameOk := s.asc.frameOk s.checkFrame }

end Sys2Proof.Machine
end

