-- ==== Sys2Proof/Machine/Asc.lean ====
section
/-! DEFINITION. The ASCII delimiter detector's commands (43_ascii_detector.md). -/

namespace Sys2Proof.Machine

/-- A hex pair completes with low nibble `n`: the byte `{a_hi, n}` is stored and summed, or dropped with OVF when
264 bytes are held (rules R194, R199). -/
def AscDetector.pairDone (a : AscDetector) (n : Nibble) : AscDetector :=
  let v : Byte := a.hi ++ n
  let a := { a with phase := false }
  if a.cnt.toNat = Config.bufBytes then a.raiseFlag .ovf
  else { a with buf := a.buf.write a.cnt.toNat v, sum := sumStep a.sum v, cnt := a.cnt + 1 }

/-- One hex digit: a high nibble is held, a low nibble completes a pair (rule R194). -/
def AscDetector.digit (a : AscDetector) (n : Nibble) : AscDetector :=
  if a.phase then a.pairDone n else { a with hi := n, phase := true }

/-- The first data character of the line (rules R194, R197). -/
def AscDetector.start (a : AscDetector) (ch : Byte) : AscDetector :=
  let a := { a with started := true }
  if ch = charColon then a else a.raiseFlag .badStart

/-- `asc_data(ch)`: consume one data character (rule R194). -/
def AscDetector.data (a : AscDetector) (ch : Byte) : AscDetector :=
  if a.started then
    match hexVal ch with
    | none => a.raiseFlag .nonHex
    | some n => a.digit n
  else a.start ch

/-- Set a flag where a condition holds. -/
def AscDetector.flagIf (a : AscDetector) (p : Bool) (f : AscFlag) : AscDetector := if p then a.raiseFlag f else a

/-- The end delimiter is complete: the line is judged (rules R193, R200). -/
def AscDetector.endLine (a : AscDetector) : AscDetector :=
  let a := { a with state := .done }
  let a := a.flagIf (!a.started) .badStart
  let a := a.flagIf a.phase .odd
  let a := a.flagIf (decide (a.cnt.toNat < 3)) .short
  { a with lrcok := decide (a.sum = 0 ∧ 1 ≤ a.cnt.toNat) }

/-- A character that neither is dropped nor ends the line: a CR is held pending, any other is consumed
(rules R193, R196). -/
def AscDetector.take (a : AscDetector) (c : Byte) : AscDetector :=
  if c = charCr then { a with state := .cr } else { a.data c with state := .line }

/-- `ASC.PUSH c` on the detector (rules R193, R196, R201): a CR that was pending and is not followed by LF is
consumed as a data character first. -/
def AscDetector.push (a : AscDetector) (c : Byte) : AscDetector :=
  match a.state with
  | .done => { a with ovr := true }
  | .cr => if c = charLf then a.endLine else (a.data charCr).take c
  | .idle | .line => a.take c

/-- `ASC.CLR` (rule R192). -/
def execAscClr (s : State) : Host.Outcome State Fault Refusal :=
  .next ((s.setAsc s.asc.clear).respond 0)

/-- `ASC.PUSH c` (rule R193). -/
def execAscPush (operand : Half) (s : State) : Host.Outcome State Fault Refusal :=
  .next ((s.setAsc (s.asc.push (operandByte operand))).respond 0)

/-- `ASC.STAT`: `rsp <- ASC_STAT` (rule R205). -/
def execAscStat (s : State) : Host.Outcome State Fault Refusal :=
  .next (s.respond (s.asc.stat s.checkFrame))

/-- `ASC.RDB i` (rule R206). -/
def execAscRdb (operand : Half) (s : State) : Host.Outcome State Fault Refusal :=
  .next (s.respond ((readBelow s.asc.buf s.asc.cnt (operandIndex operand)).setWidth 16))

/-- `ASC.CNT`: `rsp <- zext_16(a_cnt)` (rule R207). -/
def execAscCnt (s : State) : Host.Outcome State Fault Refusal :=
  .next (s.respond (s.asc.cnt.setWidth 16))

/-- `ASC.SUM`: `rsp <- zext_16(a_sum)` (rule R208). -/
def execAscSum (s : State) : Host.Outcome State Fault Refusal :=
  .next (s.respond (s.asc.sum.setWidth 16))

end Sys2Proof.Machine
end

