-- ==== Sys2Proof/Machine/CfgMisc.lean ====
section
/-! DEFINITION. Configuration and miscellaneous commands (44_config_and_misc.md). -/

namespace Sys2Proof.Machine

/-- `NOP`: no state changes, response 0x0000 (rule R230). -/
def execNop (s : State) : Host.Outcome State Fault Refusal :=
  .next (s.respond 0)

/-- `CFG.WR v`: `cfg <- cmd[1:0]` (rule R231). -/
def execCfgWr (operand : Half) (s : State) : Host.Outcome State Fault Refusal :=
  .next ((s.setCfg (operandCfg operand)).respond 0)

/-- `CFG.RD`: `rsp <- zext_16(cfg)` (rule R232). -/
def execCfgRd (s : State) : Host.Outcome State Fault Refusal :=
  .next (s.respond (s.cfg.setWidth 16))

end Sys2Proof.Machine
end

