-- ==== Sys2Proof/Machine/Crc.lean ====
section
/-! DEFINITION. The CRC-16 generator's commands (40_crc16.md). -/

namespace Sys2Proof.Machine

/-- `CRC.INIT`: `crc <- 0xFFFF` (rule R122). -/
def execCrcInit (s : State) : Host.Outcome State Fault Refusal :=
  .next ((s.setCrc Config.crcInit).respond 0)

/-- `CRC.UPD b`: `crc <- crc_step(crc, b)` (rule R123). -/
def execCrcUpd (operand : Half) (s : State) : Host.Outcome State Fault Refusal :=
  .next ((s.setCrc (crcStep s.crc (operandByte operand))).respond 0)

/-- `CRC.RD`: `rsp <- crc` (rule R125). -/
def execCrcRd (s : State) : Host.Outcome State Fault Refusal :=
  .next (s.respond s.crc)

end Sys2Proof.Machine
end

