-- ==== Sys2Proof/Machine/Lrc.lean ====
section
/-! DEFINITION. The LRC unit's commands (41_lrc.md). -/

namespace Sys2Proof.Machine

/-- `LRC.INIT`: `lsum <- 0x00` (rule R141). -/
def execLrcInit (s : State) : Host.Outcome State Fault Refusal :=
  .next ((s.setLsum 0).respond 0)

/-- `LRC.UPD b`: `lsum <- (lsum + b) mod 256` (rule R142). -/
def execLrcUpd (operand : Half) (s : State) : Host.Outcome State Fault Refusal :=
  .next ((s.setLsum (sumStep s.lsum (operandByte operand))).respond 0)

/-- `LRC.RD`: `rsp <- zext_16((0x100 - lsum) & 0xFF)` (rule R143). -/
def execLrcRd (s : State) : Host.Outcome State Fault Refusal :=
  .next (s.respond ((negSum s.lsum).setWidth 16))

end Sys2Proof.Machine
end

