-- ==== Sys2Proof/Machine/Rtu.lean ====
section
/-! DEFINITION. The RTU frame parser's commands (42_rtu_parser.md). The push is cut where rule R158's own comments cut
it: dropped bytes, acceptance, length inference, CRC accumulation, completion. -/

namespace Sys2Proof.Machine

/-- The length becomes known (rule R161). -/
def RtuParser.setLen (r : RtuParser) (l : Idx) : RtuParser := { r with len := l, lenk := true }

/-- What a supported function code `b` at index 1 fixes: the length of classes EXC, WR_RSP and FIX_REQ, and
`r_exc` for class EXC (rules R158, R161, R165). -/
def RtuParser.inferAtCode (r : RtuParser) (b : Byte) : RtuParser :=
  match lenClass r.dir b with
  | .exc => { r with exc := true }.setLen 5
  | .wrRsp => r.setLen 8
  | .fixReq => r.setLen 8
  | .rdRsp => r
  | .bulkReq => r
  | .unsupported => r

/-- Length inference at the byte `b` with index `i` (rules R158, R161): the function code at index 1, the byte
count of class RD_RSP at index 2, the byte count of class BULK_REQ at index 6. -/
def RtuParser.infer (r : RtuParser) (i : Idx) (b : Byte) : RtuParser :=
  if i = 1 then r.inferAtCode b
  else if i = 2 ∧ lenClass r.dir (r.buf.read 1) = .rdRsp then r.setLen (5 + b.setWidth 9)
  else if i = 6 ∧ lenClass r.dir (r.buf.read 1) = .bulkReq then r.setLen (9 + b.setWidth 9)
  else r

/-- CRC accumulation: every byte but the last two of the frame (rules R158, R164). -/
def RtuParser.foldCrc (r : RtuParser) (i : Idx) (b : Byte) : RtuParser :=
  if r.lenk = false ∨ i < r.len - 2 then { r with crc := crcStep r.crc b } else r

/-- The comparison of the two received CRC bytes, the second of which is `b`, with `r_crc` (rules R158, R166). -/
def RtuParser.crcMatches (r : RtuParser) (b : Byte) : Bool :=
  r.buf.read (r.len - 2).toNat == r.crc.extractLsb' 0 8 && b == r.crc.extractLsb' 8 8

/-- Completion: the frame ends when the count reaches the length (rules R158, R166). -/
def RtuParser.complete (r : RtuParser) (b : Byte) : RtuParser :=
  if r.lenk = true ∧ r.idx = r.len then { r with state := .done, crcok := r.crcMatches b } else r

/-- The byte of index `i` after it has been stored and its class found supported (rule R158). -/
def RtuParser.advance (r : RtuParser) (i : Idx) (b : Byte) : RtuParser :=
  let r := (r.infer i b).foldCrc i b
  { r with idx := i + 1, state := .recv }.complete b

/-- Latch the direction at index 0 and store the byte (rules R158, R160, R61). -/
def RtuParser.store (r : RtuParser) (dir : Dir) (b : Byte) : RtuParser :=
  { r with dir := if r.idx = 0 then dir else r.dir, buf := r.buf.write r.idx.toNat b }

/-- A push in IDLE or RECV (rule R158). -/
def RtuParser.accept (r : RtuParser) (dir : Dir) (b : Byte) : RtuParser :=
  let i := r.idx
  let r := r.store dir b
  if i = 1 ∧ lenClass r.dir b = .unsupported then r.raiseUnsupported else r.advance i b

/-- `RTU.PUSH b` on the parser, with the direction `cfg.RTU_DIR` selects (rules R158, R159). -/
def RtuParser.push (r : RtuParser) (dir : Dir) (b : Byte) : RtuParser :=
  match r.state with
  | .done | .error => { r with ovr := true }
  | .idle | .recv => r.accept dir b

/-- `RTU.CLR` (rule R157). -/
def execRtuClr (s : State) : Host.Outcome State Fault Refusal :=
  .next ((s.setRtu s.rtu.clear).respond 0)

/-- `RTU.PUSH b` (rule R158). -/
def execRtuPush (operand : Half) (s : State) : Host.Outcome State Fault Refusal :=
  .next ((s.setRtu (s.rtu.push s.rtuDir (operandByte operand))).respond 0)

/-- `RTU.STAT`: `rsp <- RTU_STAT` (rule R170). -/
def execRtuStat (s : State) : Host.Outcome State Fault Refusal :=
  .next (s.respond (s.rtu.stat s.checkFrame))

/-- `RTU.RDB i` (rule R171). -/
def execRtuRdb (operand : Half) (s : State) : Host.Outcome State Fault Refusal :=
  .next (s.respond ((readBelow s.rtu.buf s.rtu.idx (operandIndex operand)).setWidth 16))

/-- `RTU.LEN`: `rsp <- {r_lenk, 0b000000, r_len}` (rule R172). -/
def execRtuLen (s : State) : Host.Outcome State Fault Refusal :=
  .next (s.respond s.rtu.lenWord)

/-- `RTU.CNT`: `rsp <- zext_16(r_idx)` (rule R173). -/
def execRtuCnt (s : State) : Host.Outcome State Fault Refusal :=
  .next (s.respond (s.rtu.idx.setWidth 16))

/-- `RTU.CRC`: `rsp <- r_crc` (rule R174). -/
def execRtuCrc (s : State) : Host.Outcome State Fault Refusal :=
  .next (s.respond s.rtu.crc)

end Sys2Proof.Machine
end

