-- ==== Sys2Proof/Machine/Dispatch.lean ====
section
/-! DEFINITION. Every command's meaning, one arm each. -/

namespace Sys2Proof.Machine

def exec (i : Instr) (s : State) : Host.Outcome State Fault Refusal :=
  match i with
  | .nop => Sys2Proof.Machine.execNop s
  | .crcInit => Sys2Proof.Machine.execCrcInit s
  | .crcUpd operand => Sys2Proof.Machine.execCrcUpd operand s
  | .crcRd => Sys2Proof.Machine.execCrcRd s
  | .lrcInit => Sys2Proof.Machine.execLrcInit s
  | .lrcUpd operand => Sys2Proof.Machine.execLrcUpd operand s
  | .lrcRd => Sys2Proof.Machine.execLrcRd s
  | .rtuClr => Sys2Proof.Machine.execRtuClr s
  | .rtuPush operand => Sys2Proof.Machine.execRtuPush operand s
  | .rtuStat => Sys2Proof.Machine.execRtuStat s
  | .rtuRdb operand => Sys2Proof.Machine.execRtuRdb operand s
  | .rtuLen => Sys2Proof.Machine.execRtuLen s
  | .rtuCnt => Sys2Proof.Machine.execRtuCnt s
  | .rtuCrc => Sys2Proof.Machine.execRtuCrc s
  | .ascClr => Sys2Proof.Machine.execAscClr s
  | .ascPush operand => Sys2Proof.Machine.execAscPush operand s
  | .ascStat => Sys2Proof.Machine.execAscStat s
  | .ascRdb operand => Sys2Proof.Machine.execAscRdb operand s
  | .ascCnt => Sys2Proof.Machine.execAscCnt s
  | .ascSum => Sys2Proof.Machine.execAscSum s
  | .cfgWr operand => Sys2Proof.Machine.execCfgWr operand s
  | .cfgRd => Sys2Proof.Machine.execCfgRd s

end Sys2Proof.Machine
end

