-- ==== Sys2Proof/Machine/Step.lean ====
section
/-! DEFINITION. One `clk` event (10_state.md rule R44): the next sample of the input ports is taken; `rst` has priority,
then a valid command is applied, else nothing changes. -/

namespace Sys2Proof.Machine

/-- Apply one command word (rules R44, R80, R86). -/
def applyCommand (w : Cmd) (s : State) : Host.Outcome State Fault Refusal :=
  match decode w with
  | .instr i => exec i s
  | .reserved _ => .next s.reservedEvent

/-- One `clk` event with the input ports at `p` (rules R44, R275). -/
def clkEvent (p : PortSample) (s : State) : Host.Outcome State Fault Refusal :=
  if p.rst then .next s.resetEvent
  else if p.cmdValid then applyCommand p.cmd s
  else .next s.idleEvent

/-- One step: the oldest waiting sample is taken. With none waiting the ports carry no command (log entry 1). -/
def step (s : State) : Host.Outcome State Fault Refusal :=
  match s.inputs with
  | [] => .next s.idleEvent
  | p :: rest => clkEvent p (s.setInputs rest)

/-- The ports as the host drives them to issue the command word `w`. -/
def commandSample (w : Cmd) : PortSample := { rst := false, cmdValid := true, cmd := w }

/-- `s` with the command word `w` presented at the very next `clk` event (log entry 2); bits at and above `nbits`
are 0. -/
def State.withFetchWord (s : State) (nbits w : Nat) : State :=
  s.setInputs (commandSample (BitVec.ofNat 24 (w % 2 ^ nbits)) :: s.inputs)

end Sys2Proof.Machine
end

