-- ==== Sys2Proof/Machine/Run.lean ====
section
/-! DEFINITION. Runs of commands (00_scope.md rule R10) and the macros of 30_encoding.md rule R88. -/

namespace Sys2Proof.Machine

/-- Apply a list of commands in order, stopping at the first fault or refusal (rule R10). -/
def execAll : List Instr → State → Host.Outcome State Fault Refusal
  | [], s => .next s
  | i :: rest, s =>
    match exec i s with
    | .next t => execAll rest t
    | .fault r => .fault r
    | .refused r => .refused r

/-- `n` steps, one `clk` event each, stopping at the first fault or refusal (rules R10, R44). -/
def runSteps : Nat → State → Host.Outcome State Fault Refusal
  | 0, s => .next s
  | n + 1, s =>
    match step s with
    | .next t => runSteps n t
    | .fault r => .fault r
    | .refused r => .refused r

/-- A byte as a canonical operand. -/
def byteOperand (b : Byte) : Half := b.setWidth 16

/-- `CRC.MSG` (rule R88). -/
def crcMsg (m : List Byte) : List Instr := .crcInit :: m.map (fun b => .crcUpd (byteOperand b)) ++ [.crcRd]

/-- `LRC.MSG` (rule R88). -/
def lrcMsg (m : List Byte) : List Instr := .lrcInit :: m.map (fun b => .lrcUpd (byteOperand b)) ++ [.lrcRd]

/-- `RTU.FRAME` (rule R88). -/
def rtuFrame (m : List Byte) : List Instr := .rtuClr :: m.map (fun b => .rtuPush (byteOperand b)) ++ [.rtuStat]

/-- `ASC.FRAME` (rule R88). -/
def ascFrame (m : List Byte) : List Instr := .ascClr :: m.map (fun b => .ascPush (byteOperand b)) ++ [.ascStat]

/-- The state in which the host is about to issue the command words `ws`, in order (rules R10, R44). -/
def State.withCommands (s : State) (ws : List Cmd) : State :=
  s.setInputs (ws.map commandSample ++ s.inputs)

end Sys2Proof.Machine
end

