-- ==== Sys2Proof/Safety.lean ====
section
/-! DEFINITION. What a good state is (10_state.md rule R49), and the words claims use for frames, commands and
access. -/

namespace Sys2Proof.Machine

/-! ### The invariant -/

/-- How many bytes of the frame `r_crc` covers (rule R49 item viii). -/
def RtuParser.folded (r : RtuParser) : Nat :=
  if r.lenk then min r.idx.toNat (r.len.toNat - 2)
  else if r.state = .error then 1
  else r.idx.toNat

/-- The class of the function code held in `RBUF[1]` for the latched direction. -/
def RtuParser.heldClass (r : RtuParser) : LenClass := lenClass r.dir (r.buf.read 1)

/-- The length that the bytes in `RBUF` give (rule R100). -/
def RtuParser.heldLength (r : RtuParser) : Option Nat :=
  rtuLength r.dir (r.buf.read 1) (r.buf.read 2) (r.buf.read 6)

/-- The RTU parser's part of rule R49, with what makes it inductive (log entry 14): the fields from `waiting` on say
where in its frame the parser can be. -/
structure RtuParser.Inv (r : RtuParser) : Prop where
  bufWf       : r.buf.wf = true
  idxBound    : r.idx.toNat ≤ Config.bufBytes
  unknown     : r.lenk = false → r.len = 0 ∧ r.idx.toNat ≤ 6
  known       : r.lenk = true → 5 ≤ r.len.toNat ∧ r.len.toNat ≤ Config.bufBytes ∧ r.idx.toNat ≤ r.len.toNat
  idleIff     : r.state = .idle ↔ r.idx = 0
  doneIff     : r.state = .done ↔ r.lenk = true ∧ r.idx = r.len
  errorHolds  : r.state = .error → r.idx = 2 ∧ r.err = 3 ∧ r.lenk = false
  crcokDone   : r.crcok = true → r.state = .done
  excHolds    : r.exc = true → r.dir = .response ∧ r.len = 5
  errIff      : r.err ≠ 0 ↔ r.state = .error
  ovrEnd      : r.ovr = true → r.state = .done ∨ r.state = .error
  crcCovers   : r.crc = crc16 (r.buf.bytes r.folded)
  waiting     : r.state = .recv → r.lenk = false → 2 ≤ r.idx.toNat →
                  (r.heldClass = .rdRsp ∧ r.idx = 2) ∨ r.heldClass = .bulkReq
  errorClass  : r.state = .error → r.heldClass = .unsupported
  inferred    : r.lenk = true → r.heldLength = some r.len.toNat ∧ decidingIndex r.dir (r.buf.read 1) < r.idx.toNat
  excIff      : 2 ≤ r.idx.toNat → (r.exc = true ↔ r.heldClass = .exc)
  idleDir     : r.state = .idle → r.dir = .response
  crcokMeans  : r.state = .done →
                  (r.crcok = true ↔ r.buf.read (r.len.toNat - 2) = crcLow r.crc ∧ r.buf.read (r.len.toNat - 1) = crcHigh r.crc)

/-- The ASCII detector's part of rule R49, with what makes it inductive (log entry 14): the fields from `lineStarted`
on. -/
structure AscDetector.Inv (a : AscDetector) : Prop where
  bufWf       : a.buf.wf = true
  cntBound    : a.cnt.toNat ≤ Config.bufBytes
  ovrDone     : a.ovr = true → a.state = .done
  idleClear   : a.state = .idle → a = { AscDetector.reset with buf := a.buf }
  lrcokDone   : a.lrcok = true → a.state = .done
  oddDone     : a.flag .odd = true → a.state = .done
  shortDone   : a.flag .short = true → a.state = .done
  sumCovers   : a.sum = byteSum (a.buf.bytes a.cnt.toNat)
  lineStarted : a.state = .line → a.started = true
  notStarted  : a.started = false → a.phase = false ∧ a.cnt = 0
  ovfFull     : a.flag .ovf = true → a.cnt.toNat = Config.bufBytes
  judged      : a.state = .done →
                  (a.flag .odd = a.phase) ∧ (a.flag .short = decide (a.cnt.toNat < 3)) ∧
                  (a.started = false → a.flag .badStart = true) ∧ a.lrcok = decide (a.sum = 0 ∧ 1 ≤ a.cnt.toNat)

/-- The invariant of the block: both parsers are where a run can bring them. -/
structure State.Inv (s : State) : Prop where
  rtu : s.rtu.Inv
  asc : s.asc.Inv

/-! ### Frames and access -/

/-- The state with the last response put aside: equal for two states that differ in `rsp` only. -/
def State.eraseRsp (s : State) : State := { s with rsp := 0 }

/-- Whether `RTU.PUSH` would accept a byte: state IDLE or RECV (rules R25, R61). -/
def RtuParser.accepting (r : RtuParser) : Bool := decide (r.state = .idle) || decide (r.state = .recv)

/-- Whether `ASC.PUSH c` completes a hex pair that is stored (rules R61, R194): no push in DONE, no end delimiter, a
hex digit after the first data character, a high nibble held, room in `ABUF`. A pending CR that is consumed first
counts as the first data character. -/
def AscDetector.storesPair (a : AscDetector) (c : Byte) : Bool :=
  decide (a.state ≠ .done) && (hexVal c).isSome && (a.started || decide (a.state = .cr)) && a.phase &&
    decide (a.cnt.toNat ≠ Config.bufBytes)

/-- The byte a completed pair stores: `{a_hi, n}` (rule R194). -/
def AscDetector.pairByte (a : AscDetector) (c : Byte) : Byte := a.hi ++ (hexVal c).getD 0

/-- Two commands that share `cfg` in a way that forbids swapping them (rule R72): a `CFG.WR` with a status read, or
with the `RTU.PUSH` that accepts index 0. -/
def cfgConflict (s : State) : Instr → Instr → Bool
  | .cfgWr _, .rtuStat => true
  | .cfgWr _, .ascStat => true
  | .cfgWr _, .rtuPush _ => s.rtu.accepting && decide (s.rtu.idx = 0)
  | .rtuStat, .cfgWr _ => true
  | .ascStat, .cfgWr _ => true
  | .rtuPush _, .cfgWr _ => s.rtu.accepting && decide (s.rtu.idx = 0)
  | _, _ => false

/-- Every word with code `op` is the command that `build` makes of the low `width` bits of the word (rules R81, R82,
R83); `width` is 0 for format N. -/
def codedAs (op width : Nat) (build : Half → Instr) : Prop :=
  ∀ w : Cmd, w.toNat / 2 ^ 16 = op → decode w = .instr (build (BitVec.ofNat 16 (w.toNat % 2 ^ width)))

/-! ### Streams of pushes -/

/-- The bytes that the `CRC.UPD` commands of a list add, in order (rule R126). -/
def crcBytes : List Instr → List Byte
  | [] => []
  | .crcUpd x :: rest => operandByte x :: crcBytes rest
  | _ :: rest => crcBytes rest

/-- The bytes that the `LRC.UPD` commands of a list add, in order (rule R145). -/
def lrcBytes : List Instr → List Byte
  | [] => []
  | .lrcUpd x :: rest => operandByte x :: lrcBytes rest
  | _ :: rest => lrcBytes rest

/-- The bytes that the `RTU.PUSH` commands of a list push, in order (rule R168). -/
def rtuBytes : List Instr → List Byte
  | [] => []
  | .rtuPush x :: rest => operandByte x :: rtuBytes rest
  | _ :: rest => rtuBytes rest

/-- The characters that the `ASC.PUSH` commands of a list push, in order (rule R204). -/
def ascBytes : List Instr → List Byte
  | [] => []
  | .ascPush x :: rest => operandByte x :: ascBytes rest
  | _ :: rest => ascBytes rest

/-- Whether samples of the ports have pushed a character since the detector was last cleared (rule R49 item vi), given
whether one had been pushed before them. -/
def pushedSinceClear : Bool → List PortSample → Bool
  | was, [] => was
  | was, p :: rest =>
    if p.rst then pushedSinceClear false rest
    else if p.cmdValid then
      match decode p.cmd with
      | .instr .ascClr => pushedSinceClear false rest
      | .instr (.ascPush _) => pushedSinceClear true rest
      | _ => pushedSinceClear was rest
    else pushedSinceClear was rest

/-! ### Lines of the ASCII detector (rule R204) -/

/-- The class-HEX characters of a line after its first character, as nibbles, in order. -/
def lineNibbles (line : List Byte) : List Nibble := (line.drop 1).filterMap hexVal

/-- Nibbles two at a time, high nibble first; a last one without its pair is left out. -/
def pairBytes : List Nibble → List Byte
  | hi :: lo :: rest => (hi ++ lo) :: pairBytes rest
  | _ => []

/-- The characters hold no CR immediately followed by an LF. -/
def noDelimiter : List Byte → Bool
  | [] => true
  | [_] => true
  | x :: y :: rest => !(x == charCr && y == charLf) && noDelimiter (y :: rest)

end Sys2Proof.Machine
end

