-- ==== Sys2Proof/Certificates/Slice0/Obligations.lean ====
section
/-! DEFINITION. The statements for the provers. Each docstring names the rule of spec/ that the statement formalises. -/

open Sys2Proof Sys2Proof.Machine

/-! ### The command port, the codes and the decoder -/

/-- A `clk` event with a valid command applies the decoded command to the state whose ports have moved on (R44, R80);
and a word placed by `withFetchWord` is the very next command (log entries 1 and 2). -/
def Obligations.StepAppliesDecodedCommand : Prop :=
  (∀ (s : State) (w : Cmd) (rest : List PortSample) (i : Instr),
    s.inputs = { rst := false, cmdValid := true, cmd := w } :: rest → decode w = .instr i →
    step s = exec i { s with inputs := rest }) ∧
  ∀ (s : State) (nbits w : Nat) (i : Instr), decodeTableWord nbits w = some i →
    step (s.withFetchWord nbits w) = exec i s

/-- A step with `rst = 1`, whatever `cmd` and `cmd_valid` are, in any state: the registers and `rsp` by R275, the
buffers by R276 not written; holding `rst` for a second step changes nothing more (R275). That the samples still to come
stay, `inputs := rest`, is the model's choice (log entries 1 and 17). -/
def Obligations.ResetStepRestoresRegisters : Prop :=
  ∀ (s : State) (v : Bool) (w : Cmd) (rest : List PortSample),
    s.inputs = { rst := true, cmdValid := v, cmd := w } :: rest →
    let after : List PortSample → State := fun q =>
      { crc := 0xFFFF, lsum := 0x00, cfg := 0b01, rsp := 0x0000, inputs := q,
        rtu := { state := .idle, idx := 0, len := 0, lenk := false, dir := .response, exc := false, crc := 0xFFFF,
                 crcok := false, err := 0, ovr := false, buf := s.rtu.buf },
        asc := { state := .idle, started := false, phase := false, hi := 0, cnt := 0, sum := 0x00, flags := 0b00000,
                 lrcok := false, ovr := false, buf := s.asc.buf } }
    step s = .next (after rest) ∧
      ∀ (v' : Bool) (w' : Cmd) (rest' : List PortSample), rest = { rst := true, cmdValid := v', cmd := w' } :: rest' →
        step (after rest) = .next (after rest')

/-- R44: an event with `rst = 0` and `cmd_valid = 0` changes nothing and `rsp` is 0x0000. The second clause, a step
with no sample waiting, is the model's choice (log entry 1). -/
def Obligations.NoCommandChangesNothing : Prop :=
  (∀ (s : State) (w : Cmd) (rest : List PortSample), s.inputs = { rst := false, cmdValid := false, cmd := w } :: rest →
    step s = .next { s with rsp := 0x0000, inputs := rest }) ∧
  ∀ s : State, s.inputs = [] → step s = .next { s with rsp := 0x0000 }

/-- The reset state, register by register, and the status words after reset (R276). The clause that every byte of both
buffers is 0x00 is the model's choice (log entry 4): R276 calls the contents unspecified and advises zeros. -/
def Obligations.ResetStateValues : Prop :=
  let s := State.reset
  s.crc = 0xFFFF ∧ s.lsum = 0x00 ∧ s.cfg = 0b01 ∧
  s.rtu.state = .idle ∧ s.rtu.idx = 0 ∧ s.rtu.len = 0 ∧ s.rtu.lenk = false ∧ s.rtu.dir = .response ∧
  s.rtu.exc = false ∧ s.rtu.crc = 0xFFFF ∧ s.rtu.crcok = false ∧ s.rtu.err = 0 ∧ s.rtu.ovr = false ∧
  s.asc.state = .idle ∧ s.asc.started = false ∧ s.asc.phase = false ∧ s.asc.hi = 0 ∧ s.asc.cnt = 0 ∧
  s.asc.sum = 0x00 ∧ s.asc.flags = 0b00000 ∧ s.asc.lrcok = false ∧ s.asc.ovr = false ∧
  (∀ a : Nat, s.memRead .rbuf a = 0x00 ∧ s.memRead .abuf a = 0x00) ∧
  exec .rtuStat s = .next { s with rsp := 0x0000 } ∧ exec .ascStat s = .next { s with rsp := 0x0000 } ∧
  exec .rtuLen s = .next { s with rsp := 0x0000 } ∧ exec .rtuCrc s = .next { s with rsp := 0xFFFF } ∧
  exec .crcRd s = .next { s with rsp := 0xFFFF } ∧ exec .lrcRd s = .next { s with rsp := 0x0000 } ∧
  exec .cfgRd s = .next { s with rsp := 0x0001 }

/-- R86: a command with a reserved code behaves as `NOP`: no state changes, response 0x0000. -/
def Obligations.ReservedCodesActAsNop : Prop :=
  ∀ (s : State) (w : Cmd) (rest : List PortSample),
    s.inputs = { rst := false, cmdValid := true, cmd := w } :: rest →
    (w.toNat / 2 ^ 16 = 0x07 ∨ w.toNat / 2 ^ 16 = 0x0F ∨ w.toNat / 2 ^ 16 = 0x16 ∨ w.toNat / 2 ^ 16 = 0x17 ∨
      0x1A ≤ w.toNat / 2 ^ 16) →
    step s = .next { s with rsp := 0x0000, inputs := rest } ∧ step s = exec .nop { s with inputs := rest }

/-- R83: the command codes: every word whose code stands in the table is the command of that row, with its format and
unit; every other word is reserved; `op[4:3]` groups the units. -/
def Obligations.CommandCodeTable : Prop :=
  let table : List (Nat × String × Format × BlockUnit) :=
    [(0x00, "NOP", .n, .none), (0x01, "CRC.INIT", .n, .crc), (0x02, "CRC.UPD", .b, .crc), (0x03, "CRC.RD", .n, .crc),
     (0x04, "LRC.INIT", .n, .lrc), (0x05, "LRC.UPD", .b, .lrc), (0x06, "LRC.RD", .n, .lrc)] ++
    [(0x08, "RTU.CLR", .n, .rtu), (0x09, "RTU.PUSH", .b, .rtu), (0x0A, "RTU.STAT", .n, .rtu),
     (0x0B, "RTU.RDB", .i, .rtu), (0x0C, "RTU.LEN", .n, .rtu), (0x0D, "RTU.CNT", .n, .rtu),
     (0x0E, "RTU.CRC", .n, .rtu)] ++
    [(0x10, "ASC.CLR", .n, .asc), (0x11, "ASC.PUSH", .b, .asc), (0x12, "ASC.STAT", .n, .asc),
     (0x13, "ASC.RDB", .i, .asc), (0x14, "ASC.CNT", .n, .asc), (0x15, "ASC.SUM", .n, .asc)] ++
    [(0x18, "CFG.WR", .w, .cfg), (0x19, "CFG.RD", .n, .cfg)]
  let group : BlockUnit → Option Nat
    | .none => none
    | .crc => some 0
    | .lrc => some 0
    | .rtu => some 1
    | .asc => some 2
    | .cfg => some 3
  ∀ w : Cmd,
    (∀ row ∈ table, w.toNat / 2 ^ 16 = row.1 →
      ∃ i, decode w = .instr i ∧ i.mnemonic = row.2.1 ∧ i.format = row.2.2.1 ∧ i.unit = row.2.2.2) ∧
    ((∀ row ∈ table, w.toNat / 2 ^ 16 ≠ row.1) → ∃ op, decode w = .reserved op ∧ op.toNat = w.toNat / 2 ^ 16) ∧
    ∀ i, decode w = .instr i → ∀ g, group i.unit = some g → w.toNat / 2 ^ 19 % 4 = g

/-- Decode and encode agree, both ways: a canonical command is read back from its word, and a word that decodes to a
command differs from that command's word in no bit but the ones its format ignores, which the encoder has 0
(30_encoding.md section 1, decision D37). -/
def Obligations.DecodeEncodeRoundTrip : Prop :=
  (∀ i : Instr, i.wf = true → decode (encode i) = .instr i) ∧
  ∀ (w : Cmd) (i : Instr), decode w = .instr i →
    i.wf = true ∧
    ∀ k, k < 24 →
      (encode i).getLsbD k =
        (w.getLsbD k &&
          decide (16 ≤ k ∨ (i.format = .b ∧ k < 8) ∨ (i.format = .i ∧ k < 9) ∨ (i.format = .w ∧ k < 2)))

/-- R82: ignored operand bits change neither state nor response, and a code is found under the mask 0xFF0000 as
`op << 16`. -/
def Obligations.IgnoredOperandBits : Prop :=
  (∀ (w w' : Cmd) (i : Instr) (s : State), decode w = .instr i → w.toNat / 2 ^ 16 = w'.toNat / 2 ^ 16 →
    (i.format = .b → w.toNat % 2 ^ 8 = w'.toNat % 2 ^ 8) → (i.format = .i → w.toNat % 2 ^ 9 = w'.toNat % 2 ^ 9) →
    (i.format = .w → w.toNat % 2 ^ 2 = w'.toNat % 2 ^ 2) → decode w' = .instr i ∧ applyCommand w s = applyCommand w' s) ∧
  (∀ (x y : Half) (s : State), x.toNat % 2 ^ 8 = y.toNat % 2 ^ 8 →
    exec (.crcUpd x) s = exec (.crcUpd y) s ∧ exec (.lrcUpd x) s = exec (.lrcUpd y) s ∧
    exec (.rtuPush x) s = exec (.rtuPush y) s ∧ exec (.ascPush x) s = exec (.ascPush y) s) ∧
  (∀ (x y : Half) (s : State), x.toNat % 2 ^ 9 = y.toNat % 2 ^ 9 →
    exec (.rtuRdb x) s = exec (.rtuRdb y) s ∧ exec (.ascRdb x) s = exec (.ascRdb y) s) ∧
  (∀ (x y : Half) (s : State), x.toNat % 2 ^ 2 = y.toNat % 2 ^ 2 → exec (.cfgWr x) s = exec (.cfgWr y) s) ∧
  ∀ (w : Cmd) (i : Instr), decode w = .instr i → w &&& (0xFF0000 : Cmd) = (i.opcode.setWidth 24 : Cmd) <<< 16

/-- R85: the example encodings, and a few words of the other units. -/
def Obligations.ExampleWordsDecode : Prop :=
  decode 0x010000 = .instr .crcInit ∧ decode 0x020002 = .instr (.crcUpd 0x02) ∧
  decode 0x090081 = .instr (.rtuPush 0x81) ∧ decode 0x11003A = .instr (.ascPush 0x3A) ∧
  decode 0x0B0003 = .instr (.rtuRdb 3) ∧ decode 0x180003 = .instr (.cfgWr 0x0003) ∧
  (∀ s : State, applyCommand 0x18FFFD s = exec (.cfgWr 0x0001) s) ∧
  decode 0b000001010001001000110100 = .instr (.lrcUpd 0x34) ∧ decode 0b000000001111111111111111 = .instr .nop ∧
  decode 0b000100111111111111111111 = .instr (.ascRdb 0x1FF)

/-- Every command has a next state in every state, and so has a `clk` event (R289). That a step takes one sample of the
ports, a step with `rst = 1` too, that a command takes none, and that a step with no sample waiting still answers a next
state, are the model's choice (log entries 1 and 17). -/
def Obligations.EveryCommandAndStepCompletes : Prop :=
  (∀ (i : Instr) (s : State), ∃ t, exec i s = .next t ∧ t.inputs = s.inputs) ∧
  ∀ s : State, ∃ t, step s = .next t ∧ t.inputs = s.inputs.tail

/-! ### The invariant and the whole machine -/

/-- The invariant holds at reset: R49's relations and what makes them inductive (log entry 14). -/
def Obligations.InvariantHoldsAtReset : Prop := State.reset.Inv

/-- Every step keeps the invariant (R49 and log entry 14), from every state that has it, reached or not. -/
def Obligations.StepKeepsInvariant : Prop :=
  ∀ s t : State, s.Inv → step s = .next t → t.Inv

/-- R49, items (i) to (viii): what holds after any samples of the ports, from reset. -/
def Obligations.ReachableStatesKeepRegisterRelations : Prop :=
  ∀ (q : List PortSample), ∃ t : State, runSteps q.length { State.reset with inputs := q } = .next t ∧
    -- (i)
    (t.rtu.idx.toNat ≤ 264 ∧ t.asc.cnt.toNat ≤ 264) ∧
    -- (ii)
    (t.rtu.lenk = false → t.rtu.len = 0 ∧ t.rtu.idx.toNat ≤ 6) ∧
    (t.rtu.lenk = true → 5 ≤ t.rtu.len.toNat ∧ t.rtu.len.toNat ≤ 264 ∧ t.rtu.idx.toNat ≤ t.rtu.len.toNat) ∧
    -- (iii)
    (t.rtu.state = .idle ↔ t.rtu.idx = 0) ∧ (t.rtu.state = .done ↔ t.rtu.lenk = true ∧ t.rtu.idx = t.rtu.len) ∧
    (t.rtu.state = .error → t.rtu.idx = 2 ∧ t.rtu.err = 3 ∧ t.rtu.lenk = false) ∧
    -- (iv)
    (t.rtu.crcok = true → t.rtu.state = .done) ∧
    (t.rtu.exc = true → t.rtu.dir = .response ∧ t.rtu.len = 5) ∧ (t.rtu.err ≠ 0 ↔ t.rtu.state = .error) ∧
    -- (v)
    (t.rtu.ovr = true → t.rtu.state = .done ∨ t.rtu.state = .error) ∧ (t.asc.ovr = true → t.asc.state = .done) ∧
    -- (vi)
    (t.asc.state = .idle ↔ pushedSinceClear false q = false) ∧
    (t.asc.state = .idle → t.asc = { AscDetector.reset with buf := t.asc.buf }) ∧
    -- (vii)
    (t.asc.lrcok = true → t.asc.state = .done) ∧
    (t.asc.state ≠ .done → t.asc.flag .odd = false ∧ t.asc.flag .short = false) ∧
    -- (viii)
    t.asc.sum = byteSum (t.asc.buf.bytes t.asc.cnt.toNat) ∧
    t.rtu.crc = crc16 (t.rtu.buf.bytes
      (if t.rtu.lenk then min t.rtu.idx.toNat (t.rtu.len.toNat - 2)
       else if t.rtu.state = .error then 1 else t.rtu.idx.toNat))

/-- R23: which command writes which state, and on what state each command's effect and response depend. -/
def Obligations.CommandsTouchOnlyTheirUnit : Prop :=
  (∀ (i : Instr) (s t : State), exec i s = .next t →
    (t.crc ≠ s.crc → i = .crcInit ∨ ∃ x, i = .crcUpd x) ∧
    (t.lsum ≠ s.lsum → i = .lrcInit ∨ ∃ x, i = .lrcUpd x) ∧
    (t.cfg ≠ s.cfg → ∃ x, i = .cfgWr x) ∧
    (t.rtu ≠ s.rtu → i = .rtuClr ∨ ∃ x, i = .rtuPush x) ∧
    (t.asc ≠ s.asc → i = .ascClr ∨ ∃ x, i = .ascPush x) ∧ t.inputs = s.inputs) ∧
  (∀ (w : Cmd) (op : Byte) (s : State), decode w = .reserved op → applyCommand w s = .next { s with rsp := 0 }) ∧
  ∀ (i : Instr) (s s' t t' : State), exec i s = .next t → exec i s' = .next t' →
    (i = .nop → t.rsp = t'.rsp) ∧
    (i = .crcInit → t.crc = t'.crc ∧ t.rsp = t'.rsp) ∧
    (i.unit = .crc → s.crc = s'.crc → t.crc = t'.crc ∧ t.rsp = t'.rsp) ∧
    (i = .lrcInit → t.lsum = t'.lsum ∧ t.rsp = t'.rsp) ∧
    (i.unit = .lrc → s.lsum = s'.lsum → t.lsum = t'.lsum ∧ t.rsp = t'.rsp) ∧
    (i = .rtuClr → { t.rtu with buf := [] } = { t'.rtu with buf := [] } ∧ t.rsp = t'.rsp) ∧
    (i.unit = .rtu → s.rtu = s'.rtu → (i = .rtuStat → s.cfg.getLsbD 0 = s'.cfg.getLsbD 0) →
      ((∃ x, i = .rtuPush x) → s.rtu.idx = 0 → s.cfg.getLsbD 1 = s'.cfg.getLsbD 1) →
      t.rtu = t'.rtu ∧ t.rsp = t'.rsp) ∧
    (i = .ascClr → { t.asc with buf := [] } = { t'.asc with buf := [] } ∧ t.rsp = t'.rsp) ∧
    (i.unit = .asc → s.asc = s'.asc → (i = .ascStat → s.cfg.getLsbD 0 = s'.cfg.getLsbD 0) →
      t.asc = t'.asc ∧ t.rsp = t'.rsp) ∧
    ((∃ x, i = .cfgWr x) → t.cfg = t'.cfg ∧ t.rsp = t'.rsp) ∧
    (i = .cfgRd → s.cfg = s'.cfg → t.rsp = t'.rsp)

/-- R72: two adjacent commands to two different units may be swapped: the same final state, the same response to
each; and `CFG.WR` does not commute with the status reads or with the push that accepts index 0. -/
def Obligations.CommandsToDifferentUnitsCommute : Prop :=
  (∀ (i j : Instr) (s : State), i.unit ≠ j.unit → cfgConflict s i j = false →
    ∃ ti tij tj tji : State, exec i s = .next ti ∧ exec j ti = .next tij ∧ exec j s = .next tj ∧ exec i tj = .next tji ∧
      tij.eraseRsp = tji.eraseRsp ∧ ti.rsp = tji.rsp ∧ tij.rsp = tj.rsp) ∧
  (∃ (x : Half) (s t t' u u' : State), exec (.cfgWr x) s = .next t ∧ exec .rtuStat t = .next t' ∧
    exec .rtuStat s = .next u ∧ exec (.cfgWr x) u = .next u' ∧ t'.rsp ≠ u.rsp) ∧
  (∃ (x : Half) (s t t' u u' : State), exec (.cfgWr x) s = .next t ∧ exec .ascStat t = .next t' ∧
    exec .ascStat s = .next u ∧ exec (.cfgWr x) u = .next u' ∧ t'.rsp ≠ u.rsp) ∧
  ∃ (x y : Half) (s t t' u u' : State), s.rtu.idx = 0 ∧ exec (.cfgWr x) s = .next t ∧ exec (.rtuPush y) t = .next t' ∧
    exec (.rtuPush y) s = .next u ∧ exec (.cfgWr x) u = .next u' ∧ t'.rtu ≠ u'.rtu

/-- R43: the read-only views, bit by bit; none of these reads changes state. -/
def Obligations.ReadViewsChangeNothing : Prop :=
  ∀ s : State,
    exec .rtuLen s = .next { s with rsp := BitVec.ofBool s.rtu.lenk ++ (0b000000 : BitVec 6) ++ s.rtu.len } ∧
    exec .rtuCnt s = .next { s with rsp := BitVec.ofNat 16 s.rtu.idx.toNat } ∧
    exec .rtuCrc s = .next { s with rsp := s.rtu.crc } ∧
    exec .ascCnt s = .next { s with rsp := BitVec.ofNat 16 s.asc.cnt.toNat } ∧
    exec .ascSum s = .next { s with rsp := BitVec.ofNat 16 s.asc.sum.toNat } ∧
    exec .crcRd s = .next { s with rsp := s.crc } ∧
    exec .lrcRd s = .next { s with rsp := BitVec.ofNat 16 ((0x100 - s.lsum.toNat) &&& 0xFF) } ∧
    exec .cfgRd s = .next { s with rsp := BitVec.ofNat 16 s.cfg.toNat }

/-! ### The CRC generator -/

/-- R122 and R125: `CRC.INIT` and `CRC.RD`. -/
def Obligations.CrcInitAndRead : Prop :=
  codedAs 0x01 0 (fun _ => .crcInit) ∧ codedAs 0x03 0 (fun _ => .crcRd) ∧
  (∀ s : State, exec .crcInit s = .next { s with crc := 0xFFFF, rsp := 0x0000 }) ∧
  (∀ s : State, exec .crcRd s = .next { s with rsp := s.crc }) ∧
  (∀ s : State, execAll [.crcInit, .crcInit] s = exec .crcInit s) ∧
  (∀ s : State, execAll [.crcInit, .crcRd] s = .next { s with crc := 0xFFFF, rsp := 0xFFFF }) ∧
  exec .crcRd State.reset = .next { State.reset with rsp := 0xFFFF }

/-- R123, but for one remark: `CRC.UPD` adds a byte to `crc` and answers 0x0000. A zero byte leaves two register
values as they are, 0x0000 and 0xC001; R123's remark names only the first (log entry 18). -/
def Obligations.CrcUpdateAddsOneByte : Prop :=
  codedAs 0x02 8 .crcUpd ∧
  (∀ (x : Half) (s : State),
    exec (.crcUpd x) s = .next { s with crc := crcStep s.crc (BitVec.ofNat 8 (x.toNat % 2 ^ 8)), rsp := 0x0000 }) ∧
  ∀ c : Half, crcStep c 0x00 = c ↔ c = 0x0000 ∨ c = 0xC001

/-- R121: the step function, as arithmetic on numbers: the byte is exclusive-ored in, then eight times the register is
halved and, where the bit shifted out was 1, exclusive-ored with 0xA001. -/
def Obligations.CrcStepIsTheEightfoldLoop : Prop :=
  ∀ (c : Half) (b : Byte),
    (crcStep c b).toNat =
      Nat.iterate (fun n => if n % 2 = 1 then (n / 2) ^^^ 0xA001 else n / 2) 8 (c.toNat ^^^ b.toNat)

/-- R128: the table form, with the printed table, whose entry `i` is eight iterations applied to `i`. -/
def Obligations.CrcStepTableForm : Prop :=
  crcTable.length = 256 ∧
  (∀ i, i < 256 → crcTable.getD i 0 = crcShifts 8 (BitVec.ofNat 16 i)) ∧
  ∀ (c : Half) (b : Byte),
    crcStep c b = (c >>> 8) ^^^ crcTable.getD ((c ^^^ BitVec.ofNat 16 b.toNat).toNat % 256) 0

/-- R129: the step is a bijection of the register for a fixed byte, linear over exclusive or, and depends on the byte
and the register's low byte only through their exclusive or. -/
def Obligations.CrcStepBijectiveAndLinear : Prop :=
  (∀ b : Byte, Function.Bijective fun c : Half => crcStep c b) ∧
  (∀ (c d : Half) (a b : Byte), crcStep (c ^^^ d) (a ^^^ b) = crcStep c a ^^^ crcStep d b) ∧
  (∀ (c : Half) (b : Byte), crcStep c b = crcStep (c ^^^ b.setWidth 16) 0x00) ∧
  ∀ (c d : Half) (a b : Byte), c >>> 8 = d >>> 8 → c.setWidth 8 ^^^ a = d.setWidth 8 ^^^ b → crcStep c a = crcStep d b

/-- R127: the residue law, and that the receiver's two tests agree. -/
def Obligations.CrcResidueLaw : Prop :=
  (∀ m : List Byte, crc16 (m ++ [(crc16 m).setWidth 8, (crc16 m >>> 8).setWidth 8]) = 0x0000) ∧
  ∀ (m : List Byte) (x y : Byte),
    crc16 (m ++ [x, y]) = 0x0000 ↔ x = (crc16 m).setWidth 8 ∧ y = (crc16 m >>> 8).setWidth 8

/-- R126: after `CRC.INIT` and updates, with commands to other units (and reads) between, `crc` is the CRC of the bytes
and `CRC.RD` returns it. -/
def Obligations.CrcUnitComputesCrcOfMessage : Prop :=
  ∀ (cs : List Instr) (s : State), .crcInit ∉ cs →
    ∃ t u : State, execAll (.crcInit :: cs) s = .next t ∧ t.crc = crc16 (crcBytes cs) ∧
      exec .crcRd t = .next u ∧ u.rsp = crc16 (crcBytes cs)

/-! ### The LRC unit -/

/-- R141, R142, R143: the commands of the LRC unit. -/
def Obligations.LrcCommands : Prop :=
  codedAs 0x04 0 (fun _ => .lrcInit) ∧ codedAs 0x05 8 .lrcUpd ∧ codedAs 0x06 0 (fun _ => .lrcRd) ∧
  (∀ s : State, exec .lrcInit s = .next { s with lsum := 0x00, rsp := 0x0000 }) ∧
  (∀ (x : Half) (s : State),
    exec (.lrcUpd x) s =
      .next { s with lsum := BitVec.ofNat 8 ((s.lsum.toNat + x.toNat % 2 ^ 8) % 256), rsp := 0x0000 }) ∧
  (∀ s : State, exec .lrcRd s = .next { s with rsp := BitVec.ofNat 16 ((0x100 - s.lsum.toNat) &&& 0xFF) }) ∧
  (∀ s : State, execAll [.lrcInit, .lrcInit] s = exec .lrcInit s) ∧
  ∀ (x y : Half) (s : State), execAll [.lrcUpd x, .lrcUpd y] s = execAll [.lrcUpd y, .lrcUpd x] s

/-- R145, R144 and R146: the unit law, the formula, the two's complement form, and the residue law of the sum. -/
def Obligations.LrcUnitComputesLrcOfMessage : Prop :=
  (∀ m : List Byte,
    (lrc m).toNat = (0x100 - (m.map BitVec.toNat).sum % 256) % 256 ∧ lrc m = ~~~byteSum m + 1) ∧
  (∀ (cs : List Instr) (s : State), .lrcInit ∉ cs →
    ∃ t u : State, execAll (.lrcInit :: cs) s = .next t ∧ exec .lrcRd t = .next u ∧
      u.rsp = (lrc (lrcBytes cs)).setWidth 16) ∧
  (∀ m : List Byte, ((m ++ [lrc m]).map BitVec.toNat).sum % 256 = 0) ∧
  (∀ (frame : List Byte) (x : Byte), lrc frame = x ↔ ((frame.map BitVec.toNat).sum + x.toNat) % 256 = 0) ∧
  ∀ (m : List Byte) (s : State), ∃ t u : State,
    execAll (.lrcInit :: (m ++ [lrc m]).map (fun b => .lrcUpd (byteOperand b))) s = .next t ∧ t.lsum = 0x00 ∧
      exec .lrcRd t = .next u ∧ u.rsp = 0x0000

/-! ### The RTU parser -/

/-- R157: `RTU.CLR`. -/
def Obligations.RtuClearRestoresParser : Prop :=
  codedAs 0x08 0 (fun _ => .rtuClr) ∧
  ∀ s : State, ∃ t : State,
    t = { s with
      rsp := 0x0000
      rtu := { state := .idle, idx := 0, len := 0, lenk := false, dir := .response, exc := false, crc := 0xFFFF,
               crcok := false, err := 0, ovr := false, buf := s.rtu.buf } } ∧
    exec .rtuClr s = .next t ∧ exec .rtuClr t = .next t ∧
    ∀ x : Half, exec (.rtuRdb x) t = .next { t with rsp := 0x0000 }

/-- R159: a push in DONE or ERROR is dropped; nothing changes but `r_ovr`. -/
def Obligations.RtuPushDroppedAfterEnd : Prop :=
  ∀ (x : Half) (s : State), s.rtu.state = .done ∨ s.rtu.state = .error →
    exec (.rtuPush x) s = .next { s with rsp := 0x0000, rtu := { s.rtu with ovr := true } }

/-- R160: the byte at index 0 latches the direction and is stored, whatever it is; a later `CFG.WR` does not change
how the frame is parsed. -/
def Obligations.RtuFirstByteLatchesDirection : Prop :=
  (∀ (x : Half) (s : State), s.Inv → s.rtu.state = .idle →
    exec (.rtuPush x) s =
      .next { s with
        rsp := 0x0000
        rtu := { s.rtu with
          dir := if s.cfg.getLsbD 1 then .request else .response
          buf := s.rtu.buf.write 0 (x.setWidth 8), crc := crcStep 0xFFFF (x.setWidth 8), idx := 1, state := .recv } }) ∧
  ∀ (x y : Half) (s : State), s.rtu.idx ≠ 0 →
    ∃ t u : State, execAll [.cfgWr y, .rtuPush x] s = .next t ∧ exec (.rtuPush x) s = .next u ∧ t.rtu = u.rtu ∧
      t.rtu.dir = s.rtu.dir

/-- R97: the length classes of the response direction, at the function code (index 1) and, for class RD_RSP, at the
byte count (index 2). -/
def Obligations.ResponseLengthClasses : Prop :=
  (∀ (x : Half) (s : State) (b : Byte), b = x.setWidth 8 → s.Inv → s.rtu.state = .recv → s.rtu.idx = 1 →
    s.rtu.dir = .response → ∃ t : State, exec (.rtuPush x) s = .next t ∧
      if 0x80 ≤ b.toNat then t.rtu.lenk = true ∧ t.rtu.len = 5 ∧ t.rtu.exc = true ∧ t.rtu.state = .recv
      else if b ∈ ([0x01, 0x02, 0x03, 0x04] : List Byte) then
        t.rtu.lenk = false ∧ t.rtu.exc = false ∧ t.rtu.state = .recv
      else if b ∈ ([0x05, 0x06, 0x0F, 0x10] : List Byte) then
        t.rtu.lenk = true ∧ t.rtu.len = 8 ∧ t.rtu.exc = false ∧ t.rtu.state = .recv
      else t.rtu.lenk = false ∧ t.rtu.exc = false ∧ t.rtu.state = .error) ∧
  ∀ (x : Half) (s : State), s.Inv → s.rtu.state = .recv → s.rtu.idx = 2 → s.rtu.dir = .response →
    s.memRead .rbuf 1 ∈ ([0x01, 0x02, 0x03, 0x04] : List Byte) →
    ∃ t : State, exec (.rtuPush x) s = .next t ∧ t.rtu.lenk = true ∧ t.rtu.len.toNat = 5 + x.toNat % 2 ^ 8

/-- R98: the length classes of the request direction, at the function code (index 1) and, for class BULK_REQ, at the
byte count (index 6). -/
def Obligations.RequestLengthClasses : Prop :=
  (∀ (x : Half) (s : State) (b : Byte), b = x.setWidth 8 → s.Inv → s.rtu.state = .recv → s.rtu.idx = 1 →
    s.rtu.dir = .request → ∃ t : State, exec (.rtuPush x) s = .next t ∧ t.rtu.exc = false ∧
      if b ∈ ([0x01, 0x02, 0x03, 0x04, 0x05, 0x06] : List Byte) then
        t.rtu.lenk = true ∧ t.rtu.len = 8 ∧ t.rtu.state = .recv
      else if b ∈ ([0x0F, 0x10] : List Byte) then t.rtu.lenk = false ∧ t.rtu.state = .recv
      else t.rtu.lenk = false ∧ t.rtu.state = .error) ∧
  ∀ (x : Half) (s : State), s.Inv → s.rtu.state = .recv → s.rtu.idx = 6 → s.rtu.dir = .request →
    s.memRead .rbuf 1 ∈ ([0x0F, 0x10] : List Byte) →
    ∃ t : State, exec (.rtuPush x) s = .next t ∧ t.rtu.lenk = true ∧ t.rtu.len.toNat = 9 + x.toNat % 2 ^ 8

/-- R250: which function codes raise UNSUPPORTED, and that raising it changes `r_state`, `r_err` and `r_idx`,
the byte having been stored, and nothing else of the parser (the first sentence of R258), whatever `CHECK_FRAME` is. -/
def Obligations.UnsupportedCodeStopsParser : Prop :=
  ∀ (x : Half) (s : State) (b : Byte), b = x.setWidth 8 → s.Inv → s.rtu.state = .recv → s.rtu.idx = 1 →
    ∃ t : State, exec (.rtuPush x) s = .next t ∧
      (t.rtu.state = .error ↔
        (b.toNat = 0x00 ∨ (0x07 ≤ b.toNat ∧ b.toNat ≤ 0x0E) ∨ (0x11 ≤ b.toNat ∧ b.toNat ≤ 0x7F) ∨
          (s.rtu.dir = .request ∧ 0x80 ≤ b.toNat))) ∧
      (t.rtu.state = .error →
        t = { s with rsp := 0x0000, rtu := { s.rtu with buf := s.rtu.buf.write 1 b, state := .error, err := 3, idx := 2 } })

/-- R161 and R163: the length is written exactly once per frame, at the byte that settles it, as R100 gives it; it is
within 5 to 264, so an accepted byte always has a place in `RBUF`. -/
def Obligations.LengthInferredOnce : Prop :=
  ∀ (x : Half) (s : State), s.Inv → s.rtu.accepting = true →
    s.rtu.idx.toNat < 264 ∧
    ∃ t : State, exec (.rtuPush x) s = .next t ∧
      (s.rtu.lenk = true → t.rtu.lenk = true ∧ t.rtu.len = s.rtu.len) ∧
      (s.rtu.lenk = false →
        (t.rtu.lenk = true ↔
          s.rtu.idx ≠ 0 ∧ lenClass t.rtu.dir (t.memRead .rbuf 1) ≠ .unsupported ∧
            s.rtu.idx.toNat = decidingIndex t.rtu.dir (t.memRead .rbuf 1))) ∧
      (t.rtu.lenk = true →
        rtuLength t.rtu.dir (t.memRead .rbuf 1) (t.memRead .rbuf 2) (t.memRead .rbuf 6) = some t.rtu.len.toNat ∧
          5 ≤ t.rtu.len.toNat ∧ t.rtu.len.toNat ≤ 264)

/-- R164: which bytes are folded into `r_crc`; that none of them is a checksum byte; that during the two checksum
bytes it holds the CRC of the message frame; that `crc` is not touched. -/
def Obligations.CrcAccumulatesFrameOnly : Prop :=
  ∀ (x : Half) (s : State), s.Inv → s.rtu.accepting = true →
    ∃ t : State, exec (.rtuPush x) s = .next t ∧ t.crc = s.crc ∧
      (t.rtu.state ≠ .error →
        t.rtu.crc =
          (if t.rtu.lenk = false ∨ s.rtu.idx.toNat + 2 < t.rtu.len.toNat then crcStep s.rtu.crc (x.setWidth 8)
           else s.rtu.crc) ∧
        (s.rtu.lenk = false → t.rtu.lenk = true → s.rtu.idx.toNat + 2 < t.rtu.len.toNat) ∧
        (t.rtu.lenk = true → t.rtu.len.toNat ≤ t.rtu.idx.toNat + 2 →
          t.rtu.crc = crc16 (t.rtu.buf.bytes (t.rtu.len.toNat - 2))))

/-- R166: the push of the byte at index `r_len - 1` ends the frame and compares the two received bytes with `r_crc`,
whatever `CHECK_FRAME` is; equally, `r_crcok` says that the CRC of the whole ADU is 0. -/
def Obligations.LastByteJudgesCrc : Prop :=
  ∀ (x : Half) (s : State), s.Inv → s.rtu.accepting = true → s.rtu.lenk = true →
    s.rtu.idx.toNat + 1 = s.rtu.len.toNat →
    ∃ t : State, exec (.rtuPush x) s = .next t ∧ t.rtu.state = .done ∧ t.rtu.crc = s.rtu.crc ∧
      (t.rtu.crcok = true ↔
        s.memRead .rbuf (s.rtu.len.toNat - 2) = s.rtu.crc.setWidth 8 ∧ x.setWidth 8 = (s.rtu.crc >>> 8).setWidth 8) ∧
      (t.rtu.crcok = true ↔ crc16 (t.rtu.buf.bytes t.rtu.len.toNat) = 0x0000)

/-- R61: who writes the buffers, where, and how many bytes: one byte of `RBUF` at `r_idx` by an accepted `RTU.PUSH`,
one byte of `ABUF` at `a_cnt` by the `ASC.PUSH` that completes a pair with room for it; every other byte, and every
byte under every other command and under reset, stays. -/
def Obligations.BuffersWrittenOnlyByPushes : Prop :=
  (∀ (i : Instr) (s t : State), s.Inv → exec i s = .next t → ∀ a : Nat,
    t.memRead .rbuf a =
      (match i with
       | .rtuPush x => if s.rtu.accepting = true ∧ a = s.rtu.idx.toNat then x.setWidth 8 else s.memRead .rbuf a
       | _ => s.memRead .rbuf a) ∧
    t.memRead .abuf a =
      (match i with
       | .ascPush x =>
         if s.asc.storesPair (x.setWidth 8) = true ∧ a = s.asc.cnt.toNat then s.asc.pairByte (x.setWidth 8)
         else s.memRead .abuf a
       | _ => s.memRead .abuf a)) ∧
  ∀ (s t : State) (v : Bool) (w : Cmd) (rest : List PortSample),
    s.inputs = { rst := true, cmdValid := v, cmd := w } :: rest → step s = .next t →
      ∀ a : Nat, t.memRead .rbuf a = s.memRead .rbuf a ∧ t.memRead .abuf a = s.memRead .abuf a

/-- The frame of `RTU.PUSH`: the other units and `cfg` stay; of the parser, the registers a byte at this place does
not write stay (R27). -/
def Obligations.RtuPushFrame : Prop :=
  ∀ (x : Half) (s t : State), s.Inv → exec (.rtuPush x) s = .next t →
    t.crc = s.crc ∧ t.lsum = s.lsum ∧ t.cfg = s.cfg ∧ t.asc = s.asc ∧ t.inputs = s.inputs ∧ t.rsp = 0x0000 ∧
    (s.rtu.idx ≠ 0 → t.rtu.dir = s.rtu.dir) ∧
    (s.rtu.idx ≠ 1 → t.rtu.exc = s.rtu.exc ∧ t.rtu.err = s.rtu.err) ∧
    (t.rtu.state ≠ .error → t.rtu.err = s.rtu.err) ∧
    (s.rtu.accepting = true → t.rtu.ovr = s.rtu.ovr ∧ t.rtu.idx.toNat = s.rtu.idx.toNat + 1) ∧
    (s.rtu.accepting = false → { t.rtu with ovr := s.rtu.ovr } = s.rtu) ∧
    (t.rtu.state ≠ .done → t.rtu.crcok = s.rtu.crcok) ∧ (t.rtu.lenk = s.rtu.lenk → t.rtu.len = s.rtu.len) ∧
    ∀ a : Nat, (s.rtu.accepting = true → a ≠ s.rtu.idx.toNat) → t.memRead .rbuf a = s.memRead .rbuf a

/-- R156: the control states of the RTU parser and every transition between them, by command; reset leads to IDLE. -/
def Obligations.RtuControlTransitions : Prop :=
  (∀ (i : Instr) (s : State), s.Inv → ∃ t : State, exec i s = .next t ∧
    match i with
    | .rtuClr => t.rtu.state = .idle
    | .rtuPush x =>
      match s.rtu.state with
      | .idle => t.rtu.state = .recv
      | .recv =>
        t.rtu.state =
          (if s.rtu.idx = 1 ∧ lenClass s.rtu.dir (x.setWidth 8) = .unsupported then .error
           else if t.rtu.lenk = true ∧ t.rtu.idx = t.rtu.len then .done
           else .recv)
      | .done => t.rtu = { s.rtu with ovr := true } ∧ t.rtu.state = .done
      | .error => t.rtu = { s.rtu with ovr := true } ∧ t.rtu.state = .error
    | _ => t.rtu.state = s.rtu.state) ∧
  ∀ (s t : State) (v : Bool) (w : Cmd) (rest : List PortSample),
    s.inputs = { rst := true, cmdValid := v, cmd := w } :: rest → step s = .next t → t.rtu.state = .idle

/-- R41 and R170: `RTU.STAT` returns `RTU_STAT`, bit by bit, and changes nothing. -/
def Obligations.RtuStatusWord : Prop :=
  codedAs 0x0A 0 (fun _ => .rtuStat) ∧
  ∀ s : State, ∃ v : Half, exec .rtuStat s = .next { s with rsp := v } ∧
    v.toNat % 4 = (match s.rtu.state with | .idle => 0 | .recv => 1 | .done => 2 | .error => 3) ∧
    v.getLsbD 2 = s.rtu.lenk ∧
    v.getLsbD 3 = decide (s.rtu.dir = .request) ∧
    v.getLsbD 4 = s.rtu.crcok ∧
    v.getLsbD 5 = (decide (s.rtu.state = .done) && (s.rtu.crcok || !s.cfg.getLsbD 0)) ∧
    v.getLsbD 6 = s.rtu.ovr ∧
    v.getLsbD 7 = s.rtu.exc ∧
    v.toNat / 2 ^ 8 % 8 =
      (if s.rtu.state = .error then s.rtu.err.toNat
       else if s.rtu.state = .done ∧ s.rtu.crcok = false ∧ s.cfg.getLsbD 0 = true then 2 else 0) ∧
    v.toNat / 2 ^ 11 = 0

/-- R171 to R174: `RTU.RDB`, `RTU.LEN`, `RTU.CNT`, `RTU.CRC` and their codes. -/
def Obligations.RtuReadCommands : Prop :=
  codedAs 0x0B 9 .rtuRdb ∧ codedAs 0x0C 0 (fun _ => .rtuLen) ∧ codedAs 0x0D 0 (fun _ => .rtuCnt) ∧
  codedAs 0x0E 0 (fun _ => .rtuCrc) ∧
  ∀ s : State,
    (∀ x : Half, exec (.rtuRdb x) s =
      .next { s with rsp := if x.toNat % 2 ^ 9 < s.rtu.idx.toNat
                            then BitVec.ofNat 16 (s.memRead .rbuf (x.toNat % 2 ^ 9)).toNat else 0x0000 }) ∧
    exec .rtuLen s = .next { s with rsp := BitVec.ofNat 16 ((if s.rtu.lenk then 0x8000 else 0) + s.rtu.len.toNat) } ∧
    exec .rtuCnt s = .next { s with rsp := BitVec.ofNat 16 s.rtu.idx.toNat } ∧
    exec .rtuCrc s = .next { s with rsp := s.rtu.crc }

/-- R168: the whole-frame result. A cleared parser is given bytes by pushes, the first of them under `RTU_DIR = d`, with
no other RTU command between: (a) an unsupported function code, (b) a frame of the inferred length, whole or in part,
(c) the bytes after. -/
def Obligations.RtuWholeFrame : Prop :=
  ∀ (s : State) (d : Dir) (x : Half) (cs : List Instr), s.Inv → s.rtu.state = .idle →
    d = (if s.cfg.getLsbD 1 then .request else .response) → .rtuClr ∉ cs →
    ∃ t : State, execAll (.rtuPush x :: cs) s = .next t ∧
      let v := x.setWidth 8 :: rtuBytes cs
      (2 ≤ v.length → rtuLength d (v.getD 1 0) (v.getD 2 0) (v.getD 6 0) = none →
        t.rtu.state = .error ∧ t.rtu.idx = 2 ∧ t.rtu.err = 3 ∧ t.rtu.crc = crc16 [v.getD 0 0] ∧
          (t.rtu.ovr = true ↔ 2 < v.length)) ∧
      ∀ w : List Byte, rtuLength d (w.getD 1 0) (w.getD 2 0) (w.getD 6 0) = some w.length →
        (∀ k, k ≤ w.length → v = w.take k →
          t.rtu.buf.bytes k = w.take k ∧ t.rtu.idx.toNat = k ∧ (t.rtu.state = .done ↔ k = w.length) ∧
            t.rtu.ovr = false) ∧
        ∀ more : List Byte, v = w ++ more →
          t.rtu.state = .done ∧ t.rtu.len.toNat = w.length ∧ t.rtu.idx.toNat = w.length ∧
            t.rtu.buf.bytes w.length = w ∧ t.rtu.crc = crc16 (w.take (w.length - 2)) ∧
            (t.rtu.crcok = true ↔
              w.getD (w.length - 2) 0 = t.rtu.crc.setWidth 8 ∧ w.getD (w.length - 1) 0 = (t.rtu.crc >>> 8).setWidth 8) ∧
            (t.rtu.ovr = true ↔ more ≠ [])

/-- R111: the round trip of both transports: (a) `rtu_encode` into the RTU parser, (b) `ascii_encode` into the ASCII
detector. -/
def Obligations.WireRoundTrip : Prop :=
  (∀ (s : State) (d : Dir) (frame : List Byte), s.Inv → s.rtu.state = .idle →
    d = (if s.cfg.getLsbD 1 then .request else .response) → wellShaped d (rtuEncode frame) = true →
    ∃ t : State, execAll ((rtuEncode frame).map fun b => .rtuPush (byteOperand b)) s = .next t ∧
      t.rtu.state = .done ∧ t.rtu.crcok = true ∧ t.rtu.len.toNat = (rtuEncode frame).length ∧
      t.rtu.buf.bytes frame.length = frame) ∧
  ∀ (s : State) (frame : List Byte), s.Inv → s.asc.state = .idle → 2 ≤ frame.length → frame.length ≤ 263 →
    ∃ t : State, execAll ((asciiEncode frame).map fun b => .ascPush (byteOperand b)) s = .next t ∧
      t.asc.state = .done ∧ t.asc.flags = 0 ∧ t.asc.lrcok = true ∧ t.asc.cnt.toNat = frame.length + 1 ∧
      t.asc.buf.bytes frame.length = frame

/-- R165 and R251: in the response direction a function code with bit 7 set makes the frame an exception response of
length 5, parsed like any frame, its CRC checked, flagged and no error; the exception code is read with `RTU.RDB 2`, the
low seven bits of what `RTU.RDB 1` answers are those of the function code; in the request direction such a code is UNSUPPORTED. -/
def Obligations.ExceptionResponseIsNoError : Prop :=
  ∀ (s : State) (sa fc code : Byte), s.Inv → fc.getLsbD 7 = true →
    (s.cfg.getLsbD 1 = false → ∀ x y : Byte,
      ∃ t u v : State, execAll (rtuFrame [sa, fc, code, x, y]) s = .next t ∧
        t.rtu.state = .done ∧ t.rtu.exc = true ∧ t.rtu.len = 5 ∧
        (t.rtu.crcok = true ↔ rtuEncode [sa, fc, code] = [sa, fc, code, x, y]) ∧
        (t.rtu.crcok = true → t.rsp = 0x00B6) ∧
        exec (.rtuRdb 2) t = .next u ∧ u.rsp = code.setWidth 16 ∧
        exec (.rtuRdb 1) t = .next v ∧ v.rsp &&& 0x7F = fc.setWidth 16 &&& 0x7F) ∧
    (s.cfg.getLsbD 1 = true →
      ∃ t : State, execAll (rtuFrame [sa, fc]) s = .next t ∧ t.rtu.state = .error ∧ t.rsp.toNat / 2 ^ 8 = 3)

/-! ### The ASCII detector -/

/-- R192: `ASC.CLR`. -/
def Obligations.AscClearRestoresDetector : Prop :=
  codedAs 0x10 0 (fun _ => .ascClr) ∧
  ∀ s : State, ∃ t : State,
    t = { s with
      rsp := 0x0000
      asc := { state := .idle, started := false, phase := false, hi := 0, cnt := 0, sum := 0x00, flags := 0,
               lrcok := false, ovr := false, buf := s.asc.buf } } ∧
    exec .ascClr s = .next t ∧ exec .ascClr t = .next t ∧
    ∀ x : Half, exec (.ascRdb x) t = .next { t with rsp := 0x0000 }

/-- R201: a push in DONE is dropped; no register changes but `a_ovr`. -/
def Obligations.AscPushDroppedAfterEnd : Prop :=
  ∀ (x : Half) (s : State), s.asc.state = .done →
    exec (.ascPush x) s = .next { s with rsp := 0x0000, asc := { s.asc with ovr := true } }

/-- R191: the control states of the ASCII detector and every transition, by command; reset leads to IDLE. -/
def Obligations.AscControlTransitions : Prop :=
  (∀ (i : Instr) (s : State), ∃ t : State, exec i s = .next t ∧
    match i with
    | .ascClr => t.asc.state = .idle
    | .ascPush x =>
      match s.asc.state with
      | .idle => t.asc.state = (if x.setWidth 8 = (0x0D : Byte) then .cr else .line)
      | .line => t.asc.state = (if x.setWidth 8 = (0x0D : Byte) then .cr else .line)
      | .cr =>
        t.asc.state =
          (if x.setWidth 8 = (0x0A : Byte) then .done else if x.setWidth 8 = (0x0D : Byte) then .cr else .line)
      | .done => t.asc.state = .done ∧ t.asc.ovr = true
    | _ => t.asc.state = s.asc.state) ∧
  ∀ (s t : State) (v : Bool) (w : Cmd) (rest : List PortSample),
    s.inputs = { rst := true, cmdValid := v, cmd := w } :: rest → step s = .next t → t.asc.state = .idle

/-- R197: the first data character of a line: only `:` avoids BADSTART and lets `ASC_STAT.SOF` read 1, a hex digit does
not; nothing else changes; SOF keeps its value from then on; and a line with no data character sets BADSTART too. -/
def Obligations.AscFirstCharacterMustBeColon : Prop :=
  (∀ (x : Half) (s : State), (s.asc.state = .idle ∨ s.asc.state = .line) → s.asc.started = false →
    x.setWidth 8 ≠ (0x0D : Byte) →
    ∃ t : State,
      t = { s with
        rsp := 0x0000
        asc := { s.asc with
          state := .line, started := true
          flags := if x.setWidth 8 = (0x3A : Byte) then s.asc.flags else s.asc.flags ||| 0b00001 } } ∧
      exec (.ascPush x) s = .next t ∧
      (s.Inv → t.asc.sof = decide (x.setWidth 8 = (0x3A : Byte)))) ∧
  (∀ (x : Half) (s : State), s.asc.started = true →
    ∃ t : State, exec (.ascPush x) s = .next t ∧ t.asc.sof = s.asc.sof ∧ t.asc.started = true) ∧
  ∀ (x : Half) (s t : State), x.setWidth 8 = (0x0A : Byte) → s.asc.state = .cr → s.asc.started = false →
    exec (.ascPush x) s = .next t → t.asc.flag .badStart = true

/-- R198, and R195 for the line feed: after the first data character, a character that is no hex digit sets NONHEX and
is skipped; a lone CR is consumed so at the push after it, which then does what it would do without the CR. -/
def Obligations.AscNonHexIsFlaggedAndSkipped : Prop :=
  (∀ (x : Half) (s : State) (c : Byte), c = x.setWidth 8 → (s.asc.state = .idle ∨ s.asc.state = .line) →
    s.asc.started = true → c ≠ 0x0D →
    ¬(0x30 ≤ c.toNat ∧ c.toNat ≤ 0x39) → ¬(0x41 ≤ c.toNat ∧ c.toNat ≤ 0x46) →
    exec (.ascPush x) s =
      .next { s with rsp := 0x0000, asc := { s.asc with state := .line, flags := s.asc.flags ||| 0b00010 } }) ∧
  ∀ (x : Half) (s : State), s.asc.state = .cr → s.asc.started = true → x.setWidth 8 ≠ (0x0A : Byte) →
    exec (.ascPush x) s =
      exec (.ascPush x) { s with asc := { s.asc with state := .line, flags := s.asc.flags ||| 0b00010 } }

/-- R199: hex digits are taken two at a time, high nibble first; the completed byte is stored and summed, or dropped
with OVF when 264 bytes are held. -/
def Obligations.AscHexPairs : Prop :=
  ∀ (x : Half) (s : State) (c : Byte) (n : Nat), c = x.setWidth 8 → (s.asc.state = .idle ∨ s.asc.state = .line) →
    s.asc.started = true →
    ((0x30 ≤ c.toNat ∧ c.toNat ≤ 0x39 ∧ n = c.toNat - 0x30) ∨
      (0x41 ≤ c.toNat ∧ c.toNat ≤ 0x46 ∧ n = c.toNat - 0x41 + 10)) →
    (s.asc.phase = false →
      exec (.ascPush x) s =
        .next { s with rsp := 0x0000, asc := { s.asc with state := .line, phase := true, hi := BitVec.ofNat 4 n } }) ∧
    (s.asc.phase = true → s.asc.cnt.toNat = 264 →
      exec (.ascPush x) s =
        .next { s with rsp := 0x0000
                       asc := { s.asc with state := .line, phase := false, flags := s.asc.flags ||| 0b10000 } }) ∧
    (s.asc.phase = true → s.asc.cnt.toNat ≠ 264 → ∀ v : Byte, v.toNat = 16 * s.asc.hi.toNat + n →
      exec (.ascPush x) s =
        .next { s with rsp := 0x0000
                       asc := { s.asc with state := .line, phase := false, buf := s.asc.buf.write s.asc.cnt.toNat v
                                           sum := s.asc.sum + v, cnt := s.asc.cnt + 1 } })

/-- R200: the end of a line: DONE, the flags BADSTART, ODD, SHORT on their conditions, the LRC check whatever
`CHECK_FRAME` is and whatever flags are set, which says that the last decoded byte is `lrc` of the bytes before it. -/
def Obligations.AscEndOfLineJudges : Prop :=
  ∀ (x : Half) (s : State), x.setWidth 8 = (0x0A : Byte) → s.asc.state = .cr →
    ∃ t : State, exec (.ascPush x) s = .next t ∧ t.asc.state = .done ∧
      t.asc.flag .badStart = (s.asc.flag .badStart || !s.asc.started) ∧
      t.asc.flag .nonHex = s.asc.flag .nonHex ∧
      t.asc.flag .odd = (s.asc.flag .odd || s.asc.phase) ∧
      t.asc.flag .short = (s.asc.flag .short || decide (s.asc.cnt.toNat < 3)) ∧
      t.asc.flag .ovf = s.asc.flag .ovf ∧
      t.asc.lrcok = decide (s.asc.sum = 0x00 ∧ 1 ≤ s.asc.cnt.toNat) ∧
      { t.asc with state := s.asc.state, flags := s.asc.flags, lrcok := s.asc.lrcok } = s.asc ∧
      { t with rsp := s.rsp, asc := s.asc } = s ∧ t.rsp = 0x0000 ∧
      (s.Inv → (t.asc.lrcok = true ↔
        1 ≤ t.asc.cnt.toNat ∧
          lrc (t.asc.buf.bytes (t.asc.cnt.toNat - 1)) = t.memRead .abuf (t.asc.cnt.toNat - 1)))

/-- R196: a CR is held, not consumed, at its push; followed by anything but LF it is consumed first, as a data
character, and then the new character is handled: the two pushes have the effect of the CR's consumption and then of
the new character. Followed by LF, neither is a data character, so what data characters write stays; and a line ends
exactly when the characters pushed contain a CR that an LF follows at once, so at the first such place. -/
def Obligations.AscPendingCr : Prop :=
  (∀ (x : Half) (s : State), x.setWidth 8 = (0x0D : Byte) → (s.asc.state = .idle ∨ s.asc.state = .line) →
    exec (.ascPush x) s = .next { s with rsp := 0x0000, asc := { s.asc with state := .cr } }) ∧
  (∀ (x : Half) (s : State), s.asc.state = .cr → x.setWidth 8 ≠ (0x0A : Byte) →
    exec (.ascPush x) s =
      exec (.ascPush x)
        { s with asc := { s.asc with
            state := .line, started := true
            flags := s.asc.flags ||| (if s.asc.started then 0b00010 else 0b00001) } }) ∧
  (∀ (x : Half) (s : State), s.asc.state = .cr → x.setWidth 8 = (0x0A : Byte) →
    ∃ t : State, exec (.ascPush x) s = .next t ∧ t.asc.state = .done ∧
      { t.asc with state := s.asc.state, flags := s.asc.flags, lrcok := s.asc.lrcok } = s.asc ∧
      t.asc.flag .nonHex = s.asc.flag .nonHex) ∧
  ∀ (cs : List Instr) (s : State), s.asc.state = .idle → .ascClr ∉ cs →
    ∃ t : State, execAll cs s = .next t ∧ (t.asc.state = .done ↔ noDelimiter (ascBytes cs) = false)

/-- R42 and R205: `ASC.STAT` returns `ASC_STAT`, bit by bit, and changes nothing. -/
def Obligations.AscStatusWord : Prop :=
  codedAs 0x12 0 (fun _ => .ascStat) ∧
  ∀ s : State, ∃ v : Half, exec .ascStat s = .next { s with rsp := v } ∧
    v.toNat % 4 = (match s.asc.state with | .idle => 0 | .line => 1 | .cr => 2 | .done => 3) ∧
    v.getLsbD 2 = (s.asc.started && !s.asc.flags.getLsbD 0) ∧
    v.getLsbD 3 = decide (s.asc.state = .done) ∧
    v.getLsbD 4 = s.asc.lrcok ∧
    v.getLsbD 5 = (decide (s.asc.state = .done) && decide (s.asc.flags = 0) && (s.asc.lrcok || !s.cfg.getLsbD 0)) ∧
    v.getLsbD 6 = s.asc.ovr ∧
    v.getLsbD 7 = false ∧
    v.toNat / 2 ^ 8 % 8 =
      (if s.asc.state ≠ .done then 0 else if s.asc.flags ≠ 0 then 1
       else if s.asc.lrcok = false ∧ s.cfg.getLsbD 0 = true then 2 else 0) ∧
    v.toNat / 2 ^ 11 = s.asc.flags.toNat

/-- R206 to R208: `ASC.RDB`, `ASC.CNT`, `ASC.SUM` and their codes. -/
def Obligations.AscReadCommands : Prop :=
  codedAs 0x13 9 .ascRdb ∧ codedAs 0x14 0 (fun _ => .ascCnt) ∧ codedAs 0x15 0 (fun _ => .ascSum) ∧
  codedAs 0x11 8 .ascPush ∧ codedAs 0x09 8 .rtuPush ∧
  ∀ s : State,
    (∀ x : Half, exec (.ascRdb x) s =
      .next { s with rsp := if x.toNat % 2 ^ 9 < s.asc.cnt.toNat
                            then BitVec.ofNat 16 (s.memRead .abuf (x.toNat % 2 ^ 9)).toNat else 0x0000 }) ∧
    exec .ascCnt s = .next { s with rsp := BitVec.ofNat 16 s.asc.cnt.toNat } ∧
    exec .ascSum s = .next { s with rsp := BitVec.ofNat 16 s.asc.sum.toNat }

/-- R204: the whole-line result. A cleared detector is given a line and CR LF, the first such pair, with no other ASC
command between. -/
def Obligations.AscWholeLine : Prop :=
  ∀ (s : State) (cs : List Instr) (line : List Byte), s.Inv → s.asc.state = .idle → .ascClr ∉ cs →
    ascBytes cs = line ++ [0x0D, 0x0A] → noDelimiter (line ++ [0x0D]) = true →
    ∃ t : State, execAll cs s = .next t ∧
      let h := lineNibbles line
      let p := h.length / 2
      t.asc.state = .done ∧
      (t.asc.flag .badStart = true ↔ line = [] ∨ line.getD 0 0 ≠ 0x3A) ∧
      (t.asc.flag .nonHex = true ↔ ∃ c ∈ line.drop 1, hexVal c = none) ∧
      (t.asc.flag .odd = true ↔ h.length % 2 = 1) ∧
      (t.asc.flag .ovf = true ↔ 264 < p) ∧
      t.asc.cnt.toNat = min p 264 ∧
      t.asc.buf.bytes t.asc.cnt.toNat = (pairBytes h).take 264 ∧
      (t.asc.flag .short = true ↔ t.asc.cnt.toNat < 3) ∧
      t.asc.sum = byteSum ((pairBytes h).take 264) ∧
      (t.asc.lrcok = true ↔ t.asc.sum = 0x00 ∧ 1 ≤ t.asc.cnt.toNat)

/-- The frame of `ASC.PUSH`: the other units and `cfg` stay; of the detector, a dropped push changes `a_ovr` alone, and
no push but the one that ends the line writes `a_lrcok`, ODD or SHORT; `a_hi` is written only by a high nibble; of
`ABUF`, every byte but the stored one stays (R29). -/
def Obligations.AscPushFrame : Prop :=
  ∀ (x : Half) (s t : State) (c : Byte), c = x.setWidth 8 → s.Inv → exec (.ascPush x) s = .next t →
    t.crc = s.crc ∧ t.lsum = s.lsum ∧ t.cfg = s.cfg ∧ t.rtu = s.rtu ∧ t.inputs = s.inputs ∧ t.rsp = 0x0000 ∧
    (s.asc.state = .done → { t.asc with ovr := s.asc.ovr } = s.asc) ∧
    (s.asc.state ≠ .done → t.asc.ovr = s.asc.ovr) ∧
    (t.asc.state ≠ .done →
      t.asc.lrcok = s.asc.lrcok ∧ t.asc.flag .odd = s.asc.flag .odd ∧ t.asc.flag .short = s.asc.flag .short) ∧
    (s.asc.phase = true ∨ hexVal c = none → t.asc.hi = s.asc.hi) ∧
    (∀ f, s.asc.flag f = true → t.asc.flag f = true) ∧
    (s.asc.storesPair c = false → t.asc.cnt = s.asc.cnt ∧ t.asc.sum = s.asc.sum) ∧
    ∀ a : Nat, (s.asc.storesPair c = true → a ≠ s.asc.cnt.toNat) → t.memRead .abuf a = s.memRead .abuf a

/-! ### Configuration, errors and outputs -/

/-- R230, R231, R232: `NOP` (and an event without a command, and a reserved code, which have its effect), `CFG.WR`,
`CFG.RD` and their codes. A `CFG.WR` reaches the other units only through later commands: the status reads use the new
`CHECK_FRAME`, also for a frame already in DONE, and so do the status outputs; the push that accepts index 0 uses the
new `RTU_DIR`; every other command of another unit does what it would have done. -/
def Obligations.NopAndConfiguration : Prop :=
  codedAs 0x00 0 (fun _ => .nop) ∧ codedAs 0x18 2 .cfgWr ∧ codedAs 0x19 0 (fun _ => .cfgRd) ∧
  ∀ s : State,
    exec .nop s = .next { s with rsp := 0x0000 } ∧
    (∀ (w : Cmd) (rest : List PortSample), s.inputs = { rst := false, cmdValid := false, cmd := w } :: rest →
      step s = exec .nop { s with inputs := rest }) ∧
    (∀ (w : Cmd) (op : Byte), decode w = .reserved op → applyCommand w s = exec .nop s) ∧
    (∀ x : Half, ∃ t u v : State, exec (.cfgWr x) s = .next t ∧
      t = { s with cfg := BitVec.ofNat 2 (x.toNat % 4), rsp := 0x0000 } ∧
      t.checkFrame = x.getLsbD 0 ∧ t.rtuDir = (if x.getLsbD 1 then .request else .response) ∧
      exec .rtuStat t = .next u ∧ u.rsp = s.rtu.stat (x.getLsbD 0) ∧
      exec .ascStat t = .next v ∧ v.rsp = s.asc.stat (x.getLsbD 0) ∧
      t.outputs.rtuFrameOk = (s.rtu.stat (x.getLsbD 0)).getLsbD 5 ∧
      t.outputs.ascFrameOk = (s.asc.stat (x.getLsbD 0)).getLsbD 5 ∧
      (∀ y : Half, s.rtu.accepting = true → s.rtu.idx = 0 →
        ∃ p : State, exec (.rtuPush y) t = .next p ∧ p.rtu.dir = (if x.getLsbD 1 then .request else .response)) ∧
      ∀ i : Instr, (∀ y, i = .rtuPush y → s.rtu.idx ≠ 0) → i ≠ .rtuStat → i ≠ .ascStat → i.unit ≠ .cfg →
        ∃ p q : State, exec i t = .next p ∧ exec i s = .next q ∧ p = { q with cfg := t.cfg }) ∧
    exec .cfgRd s = .next { s with rsp := BitVec.ofNat 16 s.cfg.toNat }

/-- R233: a complete, well-formed ADU whose checksum bytes are wrong: with `CHECK_FRAME = 1` the status reads ERR = 2 and
FRAME_OK = 0, with 0 it reads ERR = 0 and FRAME_OK = 1; CRC_OK or LRC_OK reads 0; the frame bytes can be read. -/
def Obligations.CheckFrameDecidesOnWrongChecksum : Prop :=
  (∀ (s : State) (frame : List Byte) (x y : Byte), s.Inv →
    wellShaped (if s.cfg.getLsbD 1 then .request else .response) (frame ++ [x, y]) = true →
    ¬(x = (crc16 frame).setWidth 8 ∧ y = (crc16 frame >>> 8).setWidth 8) →
    ∃ t : State, execAll (rtuFrame (frame ++ [x, y])) s = .next t ∧
      t.rsp.toNat / 2 ^ 8 % 8 = (if s.cfg.getLsbD 0 then 2 else 0) ∧ t.rsp.getLsbD 5 = !s.cfg.getLsbD 0 ∧
      t.rsp.getLsbD 4 = false ∧
      ∀ k, k < frame.length → exec (.rtuRdb (BitVec.ofNat 16 k)) t = .next { t with rsp := (frame.getD k 0).setWidth 16 }) ∧
  ∀ (s : State) (frame : List Byte) (x : Byte), s.Inv → 2 ≤ frame.length → frame.length ≤ 263 → x ≠ lrc frame →
    ∃ t : State, execAll (ascFrame ([0x3A] ++ frame.flatMap hexPair ++ hexPair x ++ [0x0D, 0x0A])) s = .next t ∧
      t.rsp.toNat / 2 ^ 8 % 8 = (if s.cfg.getLsbD 0 then 2 else 0) ∧ t.rsp.getLsbD 5 = !s.cfg.getLsbD 0 ∧
      t.rsp.getLsbD 4 = false ∧
      ∀ k, k < frame.length → exec (.ascRdb (BitVec.ofNat 16 k)) t = .next { t with rsp := (frame.getD k 0).setWidth 16 }

/-- R245: the cause codes, who reports each and on what condition; FRAMING outranks CHECKSUM; 4 to 7 are never
produced; the commands of the CRC generator, the LRC unit and the configuration raise nothing, whatever their operand. -/
def Obligations.CauseCodes : Prop :=
  ∀ s : State, s.Inv → ∃ u v : State, exec .rtuStat s = .next u ∧ exec .ascStat s = .next v ∧
    let r := u.rsp.toNat / 2 ^ 8 % 8
    let a := v.rsp.toNat / 2 ^ 8 % 8
    (r = 3 ↔ s.rtu.state = .error) ∧
    (r = 3 ↔ 2 ≤ s.rtu.idx.toNat ∧ lenClass s.rtu.dir (s.memRead .rbuf 1) = .unsupported) ∧
    (r = 2 ↔ s.rtu.state = .done ∧ s.rtu.crcok = false ∧ s.cfg.getLsbD 0 = true) ∧
    (r = 0 ∨ r = 2 ∨ r = 3) ∧
    (a = 1 ↔ s.asc.state = .done ∧ s.asc.flags ≠ 0) ∧
    (a = 2 ↔ s.asc.state = .done ∧ s.asc.flags = 0 ∧ s.asc.lrcok = false ∧ s.cfg.getLsbD 0 = true) ∧
    (a = 0 ∨ a = 1 ∨ a = 2) ∧
    ∀ i : Instr, i.unit ≠ .rtu → i.unit ≠ .asc → ∃ t : State, exec i s = .next t ∧ t.rtu = s.rtu ∧ t.asc = s.asc

/-- R253: OVERRUN never changes ERR or FRAME_OK: setting the flag changes bit 6 of the status word and no other bit;
and the flag says that a push has been dropped in DONE or ERROR: a dropped push sets it, a clear clears it, no other
command changes it. -/
def Obligations.OverrunIsNoCause : Prop :=
  ∀ s : State,
    (∃ u v : State, exec .rtuStat { s with rtu := { s.rtu with ovr := false } } = .next u ∧
      exec .rtuStat { s with rtu := { s.rtu with ovr := true } } = .next v ∧ v.rsp = u.rsp ^^^ 0x0040) ∧
    (∃ u v : State, exec .ascStat { s with asc := { s.asc with ovr := false } } = .next u ∧
      exec .ascStat { s with asc := { s.asc with ovr := true } } = .next v ∧ v.rsp = u.rsp ^^^ 0x0040) ∧
    ∀ i : Instr, ∃ t : State, exec i s = .next t ∧
      (t.rtu.ovr = true ↔
        i ≠ .rtuClr ∧ (s.rtu.ovr = true ∨ ((∃ x, i = .rtuPush x) ∧ (s.rtu.state = .done ∨ s.rtu.state = .error)))) ∧
      (t.asc.ovr = true ↔
        i ≠ .ascClr ∧ (s.asc.ovr = true ∨ ((∃ x, i = .ascPush x) ∧ s.asc.state = .done)))

/-- R45: the level status outputs, against the status words a read returns. -/
def Obligations.LevelOutputsMirrorStatus : Prop :=
  ∀ s : State, ∃ u v : State, exec .rtuStat s = .next u ∧ exec .ascStat s = .next v ∧
    s.outputs.crcOut = s.crc ∧ s.outputs.lrcOut.toNat = (0x100 - s.lsum.toNat) &&& 0xFF ∧
    s.outputs.rtuDone = decide (s.rtu.state = .done) ∧
    s.outputs.rtuError = decide (u.rsp.toNat / 2 ^ 8 % 8 ≠ 0) ∧
    s.outputs.rtuFrameOk = u.rsp.getLsbD 5 ∧ s.outputs.rtuIsExc = s.rtu.exc ∧
    s.outputs.ascSof = v.rsp.getLsbD 2 ∧ s.outputs.ascEof = v.rsp.getLsbD 3 ∧
    s.outputs.ascError = decide (v.rsp.toNat / 2 ^ 8 % 8 ≠ 0) ∧ s.outputs.ascFrameOk = v.rsp.getLsbD 5
end

