-- ==== Sys2Proof/Laws/Memory.lean ====
section
/-! SUPPORT. The laws of the frame buffers: read after write, other bytes untouched, the canonical form kept, and
the bytes of a prefix. -/

namespace Sys2Proof.Machine

/-! ### Reading what was put -/

theorem Memory.lookup_of_wfFrom_lt {m : Memory} {lo a : Nat} (h : m.wfFrom lo = true) (ha : a < lo) :
    m.lookup a = 0 := by
  induction m generalizing lo with
  | nil => rfl
  | cons c rest ih =>
    obtain ⟨k, x⟩ := c
    simp only [Memory.wfFrom, Bool.and_eq_true, decide_eq_true_eq] at h
    obtain ⟨⟨⟨hk, -⟩, -⟩, hr⟩ := h
    simp only [Memory.lookup]
    rw [if_neg (by omega)]
    exact ih hr (by omega)

theorem Memory.lookup_put_self {m : Memory} {lo : Nat} (h : m.wfFrom lo = true) (a : Nat) (v : Byte) :
    (m.put a v).lookup a = v := by
  induction m generalizing lo with
  | nil => unfold Memory.put; split <;> simp_all [Memory.lookup]
  | cons c rest ih =>
    obtain ⟨k, x⟩ := c
    simp only [Memory.wfFrom, Bool.and_eq_true, decide_eq_true_eq] at h
    obtain ⟨-, hr⟩ := h
    have tail : a ≤ k → Memory.lookup rest a = 0 := fun hle => Memory.lookup_of_wfFrom_lt hr (by omega)
    unfold Memory.put
    split_ifs with h1 h2 h3 h4
    · simp [Memory.lookup, Nat.ne_of_lt h1, tail (by omega), h2]
    · simp [Memory.lookup]
    · rw [tail (by omega), h4]
    · simp [Memory.lookup, h3]
    · simp [Memory.lookup, h3, ih hr]

theorem Memory.lookup_put_other {m : Memory} {lo : Nat} (h : m.wfFrom lo = true) {a b : Nat} (hb : b ≠ a) (v : Byte) :
    (m.put a v).lookup b = m.lookup b := by
  induction m generalizing lo with
  | nil => unfold Memory.put; split <;> simp_all [Memory.lookup]
  | cons c rest ih =>
    obtain ⟨k, x⟩ := c
    simp only [Memory.wfFrom, Bool.and_eq_true, decide_eq_true_eq] at h
    obtain ⟨-, hr⟩ := h
    unfold Memory.put
    split_ifs with h1 h2 h3 h4
    · rfl
    · simp [Memory.lookup, hb]
    · have : b ≠ k := by omega
      simp [Memory.lookup, this]
    · have : b ≠ k := by omega
      simp [Memory.lookup, this]
    · simp [Memory.lookup, ih hr]

theorem Memory.wfFrom_mono {m : Memory} {lo lo' : Nat} (h : m.wfFrom lo = true) (hle : lo' ≤ lo) :
    m.wfFrom lo' = true := by
  cases m with
  | nil => rfl
  | cons c rest =>
    simp only [Memory.wfFrom, Bool.and_eq_true, decide_eq_true_eq] at h ⊢
    exact ⟨⟨⟨by omega, h.1.1.2⟩, h.1.2⟩, h.2⟩

theorem Memory.wfFrom_put {m : Memory} {lo a : Nat} (h : m.wfFrom lo = true) (hlo : lo ≤ a)
    (ha : a < Config.bufBytes) (v : Byte) : (m.put a v).wfFrom lo = true := by
  induction m generalizing lo with
  | nil => unfold Memory.put; split <;> simp_all [Memory.wfFrom]
  | cons c rest ih =>
    obtain ⟨k, x⟩ := c
    have h' := h
    simp only [Memory.wfFrom, Bool.and_eq_true, decide_eq_true_eq] at h
    obtain ⟨⟨⟨h1, h2⟩, h3⟩, hr⟩ := h
    unfold Memory.put
    split_ifs with c1 c2 c3 c4
    · exact h'
    · simp only [Memory.wfFrom, Bool.and_eq_true, decide_eq_true_eq, bne_iff_ne]
      exact ⟨⟨⟨hlo, ha⟩, c2⟩, ⟨⟨⟨by omega, h2⟩, by simpa using h3⟩, hr⟩⟩
    · exact Memory.wfFrom_mono hr (by omega)
    · simp only [Memory.wfFrom, Bool.and_eq_true, decide_eq_true_eq, bne_iff_ne]
      exact ⟨⟨⟨h1, h2⟩, c4⟩, hr⟩
    · simp only [Memory.wfFrom, Bool.and_eq_true, decide_eq_true_eq]
      exact ⟨⟨⟨h1, h2⟩, h3⟩, ih hr (by omega)⟩

/-! ### The two named operations -/

@[simp] theorem Memory.wf_nil : Memory.wf [] = true := rfl

@[simp] theorem Memory.read_nil (a : Nat) : Memory.read [] a = 0 := by simp [Memory.read, Memory.lookup]

/-- A write keeps the canonical form. -/
theorem Memory.wf_write {m : Memory} (h : m.wf = true) (a : Nat) (v : Byte) : (m.write a v).wf = true := by
  unfold Memory.write
  split
  · exact Memory.wfFrom_put h (Nat.zero_le a) (by assumption) v
  · exact h

/-- Reading the byte just written. -/
theorem Memory.read_write_self {m : Memory} (h : m.wf = true) {a : Nat} (ha : a < Config.bufBytes) (v : Byte) :
    (m.write a v).read a = v := by
  simp only [Memory.read, Memory.write, if_pos ha]
  exact Memory.lookup_put_self h a v

/-- A write leaves every other byte alone. -/
theorem Memory.read_write_other {m : Memory} (h : m.wf = true) {a b : Nat} (hb : b ≠ a) (v : Byte) :
    (m.write a v).read b = m.read b := by
  unfold Memory.read Memory.write
  split
  · split
    · exact Memory.lookup_put_other h hb v
    · rfl
  · rfl

/-- An index with no storage reads 0x00 (rule R68). -/
theorem Memory.read_outside {m : Memory} {a : Nat} (ha : Config.bufBytes ≤ a) : m.read a = 0 := by
  unfold Memory.read
  rw [if_neg (by omega)]

/-- An index with no storage is not written (rule R68). -/
theorem Memory.write_outside {m : Memory} {a : Nat} (ha : Config.bufBytes ≤ a) (v : Byte) : m.write a v = m := by
  unfold Memory.write
  rw [if_neg (by omega)]

/-! ### Prefixes -/

@[simp] theorem Memory.length_bytes (m : Memory) (n : Nat) : (m.bytes n).length = n := by simp [Memory.bytes]

@[simp] theorem Memory.bytes_zero (m : Memory) : m.bytes 0 = [] := rfl

theorem Memory.bytes_succ (m : Memory) (n : Nat) : m.bytes (n + 1) = m.bytes n ++ [m.read n] := by
  simp [Memory.bytes, List.range_succ]

theorem Memory.bytes_congr {m m' : Memory} {n : Nat} (h : ∀ a, a < n → m.read a = m'.read a) :
    m.bytes n = m'.bytes n := by
  unfold Memory.bytes
  exact List.map_congr_left fun a ha => h a (List.mem_range.mp ha)

/-- A write at or above `n` leaves the first `n` bytes alone. -/
theorem Memory.bytes_write_above {m : Memory} (h : m.wf = true) {a n : Nat} (ha : n ≤ a) (v : Byte) :
    (m.write a v).bytes n = m.bytes n :=
  Memory.bytes_congr fun b hb => Memory.read_write_other h (by omega) v

/-- A write at `n` appends one byte to the first `n`. -/
theorem Memory.bytes_write_at {m : Memory} (h : m.wf = true) {n : Nat} (hn : n < Config.bufBytes) (v : Byte) :
    (m.write n v).bytes (n + 1) = m.bytes n ++ [v] := by
  rw [Memory.bytes_succ, Memory.bytes_write_above h (Nat.le_refl n), Memory.read_write_self h hn]

theorem Memory.getElem?_bytes (m : Memory) {n k : Nat} (hk : k < n) : (m.bytes n)[k]? = some (m.read k) := by
  simp [Memory.bytes, hk]

/-- Bytes of a known prefix. -/
theorem Memory.read_of_bytes {m : Memory} {n : Nat} {l : List Byte} (h : m.bytes n = l) {k : Nat} (hk : k < n) :
    m.read k = l.getD k 0 := by
  subst h
  simp [Memory.bytes, List.getD, hk]

/-! ### Reads below a count (rule R62) -/

theorem readBelow_of_lt {m : Memory} {count i : Idx} (h : i.toNat < count.toNat) : readBelow m count i = m.read i.toNat := by
  simp [readBelow, h]

theorem readBelow_of_le {m : Memory} {count i : Idx} (h : count.toNat ≤ i.toNat) : readBelow m count i = 0 := by
  unfold readBelow
  rw [if_neg (by omega)]

/-! ### Extensionality -/

theorem Memory.lookup_self {k : Nat} {x : Byte} {rest : Memory} : Memory.lookup ((k, x) :: rest) k = x := by
  simp [Memory.lookup]

theorem Memory.ext_of_wfFrom {m m' : Memory} {lo : Nat} (h : m.wfFrom lo = true) (h' : m'.wfFrom lo = true)
    (heq : ∀ a, m.lookup a = m'.lookup a) : m = m' := by
  induction m generalizing m' lo with
  | nil =>
    cases m' with
    | nil => rfl
    | cons c rest =>
      obtain ⟨k, x⟩ := c
      simp only [Memory.wfFrom, Bool.and_eq_true, decide_eq_true_eq, bne_iff_ne] at h'
      have := heq k
      rw [Memory.lookup_self] at this
      exact absurd this.symm h'.1.2
  | cons c rest ih =>
    obtain ⟨k, x⟩ := c
    have hw := h
    simp only [Memory.wfFrom, Bool.and_eq_true, decide_eq_true_eq, bne_iff_ne] at h
    obtain ⟨⟨⟨h1, h2⟩, h3⟩, hr⟩ := h
    cases m' with
    | nil =>
      have := heq k
      rw [Memory.lookup_self] at this
      exact absurd this h3
    | cons c' rest' =>
      obtain ⟨k', x'⟩ := c'
      have hw' := h'
      simp only [Memory.wfFrom, Bool.and_eq_true, decide_eq_true_eq, bne_iff_ne] at h'
      obtain ⟨⟨⟨h1', h2'⟩, h3'⟩, hr'⟩ := h'
      have hk : k = k' := by
        by_contra hne
        rcases Nat.lt_or_gt_of_ne hne with hlt | hlt
        · have := heq k
          rw [Memory.lookup_self, Memory.lookup, if_neg (by omega), Memory.lookup_of_wfFrom_lt hr' (by omega)] at this
          exact h3 this
        · have := heq k'
          rw [Memory.lookup_self, Memory.lookup, if_neg (by omega), Memory.lookup_of_wfFrom_lt hr (by omega)] at this
          exact h3' this.symm
      subst hk
      have hx : x = x' := by
        have := heq k
        rwa [Memory.lookup_self, Memory.lookup_self] at this
      subst hx
      have : rest = rest' := by
        refine ih hr hr' fun a => ?_
        by_cases hak : a = k
        · subst hak
          rw [Memory.lookup_of_wfFrom_lt hr (by omega), Memory.lookup_of_wfFrom_lt hr' (by omega)]
        · have := heq a
          simpa [Memory.lookup, hak] using this
      rw [this]

/-- Canonical memories that read alike are equal. -/
theorem Memory.ext_of_wf {m m' : Memory} (h : m.wf = true) (h' : m'.wf = true) (heq : ∀ a, m.read a = m'.read a) :
    m = m' := by
  refine Memory.ext_of_wfFrom h h' fun a => ?_
  by_cases ha : a < Config.bufBytes
  · have := heq a
    simpa [Memory.read, ha] using this
  · have far : ∀ {n : Memory} {lo : Nat}, n.wfFrom lo = true → n.lookup a = 0 := by
      intro n
      induction n with
      | nil => intros; rfl
      | cons c rest ih =>
        intro lo hn
        obtain ⟨k, x⟩ := c
        simp only [Memory.wfFrom, Bool.and_eq_true, decide_eq_true_eq] at hn
        simp only [Memory.lookup]
        rw [if_neg (by omega)]
        exact ih hn.2
    rw [far h, far h']

end Sys2Proof.Machine
end

