-- ==== Sys2Proof/Laws/Asc.lean ====
section
/-! SUPPORT. What a push does to the ASCII detector, one lemma per case (43_ascii_detector.md rules R193 to R201).
Callers cite these and do not unfold the push. -/

namespace Sys2Proof.Machine

variable {a : AscDetector} {c : Byte}

/-! ### Characters -/

@[simp] theorem hexVal_colon : hexVal charColon = none := by decide
@[simp] theorem hexVal_cr : hexVal charCr = none := by decide
@[simp] theorem hexVal_lf : hexVal charLf = none := by decide

theorem hexVal_isSome_ne {c : Byte} (h : (hexVal c).isSome = true) : c ≠ charColon ∧ c ≠ charCr ∧ c ≠ charLf := by
  refine ⟨?_, ?_, ?_⟩ <;> rintro rfl <;> simp at h

/-- `hexval` undoes `hexchar` (rule R94). -/
theorem hexVal_hexChar (n : Nibble) : hexVal (hexChar n) = some n := by
  revert n; decide

/-! ### Flags -/

@[simp] theorem AscDetector.flag_raise (f g : AscFlag) : (a.raiseFlag f).flag g = (decide (f = g) || a.flag g) := by
  cases f <;> cases g <;>
    simp [AscDetector.flag, AscDetector.raiseFlag, AscFlag.bit]

/-- Flags are five bits, no more: two words with the same five flags are equal. -/
theorem AscDetector.flags_ext {a a' : AscDetector} (h : ∀ f, a.flag f = a'.flag f) : a.flags = a'.flags := by
  have h0 := h .badStart
  have h1 := h .nonHex
  have h2 := h .odd
  have h3 := h .short
  have h4 := h .ovf
  simp only [AscDetector.flag, AscFlag.bit] at h0 h1 h2 h3 h4
  apply BitVec.eq_of_getLsbD_eq
  intro i hi
  match i, hi with
  | 0, _ => exact h0
  | 1, _ => exact h1
  | 2, _ => exact h2
  | 3, _ => exact h3
  | 4, _ => exact h4

theorem AscDetector.flags_zero_iff : a.flags = 0 ↔ ∀ f, a.flag f = false := by
  constructor
  · intro h f; simp [AscDetector.flag, h]
  · intro h
    exact AscDetector.flags_ext (a' := { a with flags := 0 }) fun f => by rw [h f]; simp [AscDetector.flag]

@[simp] theorem AscDetector.raiseFlag_state (f : AscFlag) : (a.raiseFlag f).state = a.state := rfl
@[simp] theorem AscDetector.raiseFlag_started (f : AscFlag) : (a.raiseFlag f).started = a.started := rfl
@[simp] theorem AscDetector.raiseFlag_phase (f : AscFlag) : (a.raiseFlag f).phase = a.phase := rfl
@[simp] theorem AscDetector.raiseFlag_hi (f : AscFlag) : (a.raiseFlag f).hi = a.hi := rfl
@[simp] theorem AscDetector.raiseFlag_cnt (f : AscFlag) : (a.raiseFlag f).cnt = a.cnt := rfl
@[simp] theorem AscDetector.raiseFlag_sum (f : AscFlag) : (a.raiseFlag f).sum = a.sum := rfl
@[simp] theorem AscDetector.raiseFlag_lrcok (f : AscFlag) : (a.raiseFlag f).lrcok = a.lrcok := rfl
@[simp] theorem AscDetector.raiseFlag_ovr (f : AscFlag) : (a.raiseFlag f).ovr = a.ovr := rfl
@[simp] theorem AscDetector.raiseFlag_buf (f : AscFlag) : (a.raiseFlag f).buf = a.buf := rfl

/-! ### Data characters (rule R194) -/

/-- The start delimiter (rule R197). -/
theorem AscDetector.data_colon (h : a.started = false) : a.data charColon = { a with started := true } := by
  simp [AscDetector.data, AscDetector.start, h]

/-- A first data character that is not the start delimiter (rule R197). -/
theorem AscDetector.data_badStart (h : a.started = false) (hc : c ≠ charColon) :
    a.data c = { a with started := true }.raiseFlag .badStart := by
  simp only [AscDetector.data, AscDetector.start, h, if_neg hc]
  simp

/-- A non-hex character is flagged and skipped (rule R198). -/
theorem AscDetector.data_nonHex (h : a.started = true) (hc : hexVal c = none) : a.data c = a.raiseFlag .nonHex := by
  simp [AscDetector.data, h, hc]

/-- A high nibble is held (rule R194). -/
theorem AscDetector.data_high {n : Nibble} (h : a.started = true) (hc : hexVal c = some n) (hp : a.phase = false) :
    a.data c = { a with hi := n, phase := true } := by
  simp [AscDetector.data, AscDetector.digit, h, hc, hp]

/-- A low nibble completes a pair that is stored (rule R199). -/
theorem AscDetector.data_low {n : Nibble} (h : a.started = true) (hc : hexVal c = some n) (hp : a.phase = true)
    (hr : a.cnt.toNat ≠ Config.bufBytes) :
    a.data c = { a with phase := false, buf := a.buf.write a.cnt.toNat (a.hi ++ n), sum := sumStep a.sum (a.hi ++ n),
                        cnt := a.cnt + 1 } := by
  simp only [AscDetector.data, AscDetector.digit, AscDetector.pairDone, h, hc, hp, if_true, if_neg hr]

/-- A low nibble completes a pair that is dropped (rule R199). -/
theorem AscDetector.data_overflow {n : Nibble} (h : a.started = true) (hc : hexVal c = some n) (hp : a.phase = true)
    (hr : a.cnt.toNat = Config.bufBytes) :
    a.data c = { a with phase := false }.raiseFlag .ovf := by
  simp only [AscDetector.data, AscDetector.digit, AscDetector.pairDone, h, hc, hp, if_true, if_pos hr]

/-- A data character leaves the control state, `a_lrcok` and `a_ovr` alone, and is not the line's first any more. -/
theorem AscDetector.data_keeps : (a.data c).state = a.state ∧ (a.data c).lrcok = a.lrcok ∧ (a.data c).ovr = a.ovr ∧
    (a.data c).started = true := by
  cases hs : a.started with
  | false =>
    by_cases hc : c = charColon
    · subst hc; simp [AscDetector.data_colon hs]
    · simp [AscDetector.data_badStart hs hc]
  | true =>
    cases hv : hexVal c with
    | none => simp [AscDetector.data_nonHex hs hv, hs]
    | some n =>
      cases hp : a.phase with
      | false => simp [AscDetector.data_high hs hv hp, hs]
      | true =>
        by_cases hr : a.cnt.toNat = Config.bufBytes
        · simp [AscDetector.data_overflow hs hv hp hr, hs]
        · simp [AscDetector.data_low hs hv hp hr, hs]

/-- Consuming a data character does not look at the control state. -/
theorem AscDetector.data_setState (st : AscState) :
    ({ a with state := st } : AscDetector).data c = { a.data c with state := st } := by
  have hs : ({ a with state := st } : AscDetector).started = a.started := rfl
  unfold AscDetector.data
  rw [hs]
  split
  · split
    · rfl
    · unfold AscDetector.digit AscDetector.pairDone
      simp only
      split_ifs <;> rfl
  · unfold AscDetector.start
    simp only
    split_ifs <;> rfl

/-- A CR consumed as data stores nothing (rules R196, R198). -/
theorem AscDetector.data_cr :
    a.data charCr = { a with started := true }.raiseFlag (if a.started then .nonHex else .badStart) := by
  cases hs : a.started with
  | false => rw [AscDetector.data_badStart hs (by decide)]; simp
  | true => rw [AscDetector.data_nonHex hs hexVal_cr]; simp [← hs]

/-! ### The push (rule R193) -/

/-- A push in DONE is dropped (rule R201). -/
theorem AscDetector.push_dropped (h : a.state = .done) : a.push c = { a with ovr := true } := by
  simp [AscDetector.push, h]

/-- The end delimiter (rule R200). -/
theorem AscDetector.push_end (h : a.state = .cr) : a.push charLf = a.endLine := by
  simp [AscDetector.push, h]

/-- A pending CR that is not followed by LF is consumed first (rule R196). -/
theorem AscDetector.push_pending (h : a.state = .cr) (hc : c ≠ charLf) : a.push c = (a.data charCr).take c := by
  simp [AscDetector.push, h, hc]

/-- A push with no CR pending. -/
theorem AscDetector.push_take (h : a.state = .idle ∨ a.state = .line) : a.push c = a.take c := by
  rcases h with h | h <;> simp [AscDetector.push, h]

theorem AscDetector.take_state : (a.take c).state = if c = charCr then .cr else .line := by
  unfold AscDetector.take; split <;> rfl

/-- A CR is held (rule R196). -/
@[simp] theorem AscDetector.take_cr : a.take charCr = { a with state := .cr } := by simp [AscDetector.take]

/-- Any other character is consumed. -/
theorem AscDetector.take_data (h : c ≠ charCr) : a.take c = { a.data c with state := .line } := by
  simp [AscDetector.take, h]

/-- Handling a character does not look at the control state (which `push` has looked at). -/
theorem AscDetector.take_setState (st : AscState) : ({ a with state := st } : AscDetector).take c = a.take c := by
  by_cases hc : c = charCr
  · subst hc; rw [AscDetector.take_cr, AscDetector.take_cr]
  · rw [AscDetector.take_data hc, AscDetector.take_data hc, AscDetector.data_setState]

/-! ### The end of a line (rule R200) -/

theorem AscDetector.flagIf_flag (p : Bool) (f g : AscFlag) :
    (a.flagIf p f).flag g = ((p && decide (f = g)) || a.flag g) := by
  cases p <;> simp [AscDetector.flagIf]

@[simp] theorem AscDetector.flagIf_state (p : Bool) (f : AscFlag) : (a.flagIf p f).state = a.state := by
  cases p <;> rfl
@[simp] theorem AscDetector.flagIf_started (p : Bool) (f : AscFlag) : (a.flagIf p f).started = a.started := by
  cases p <;> rfl
@[simp] theorem AscDetector.flagIf_phase (p : Bool) (f : AscFlag) : (a.flagIf p f).phase = a.phase := by
  cases p <;> rfl
@[simp] theorem AscDetector.flagIf_hi (p : Bool) (f : AscFlag) : (a.flagIf p f).hi = a.hi := by
  cases p <;> rfl
@[simp] theorem AscDetector.flagIf_cnt (p : Bool) (f : AscFlag) : (a.flagIf p f).cnt = a.cnt := by
  cases p <;> rfl
@[simp] theorem AscDetector.flagIf_sum (p : Bool) (f : AscFlag) : (a.flagIf p f).sum = a.sum := by
  cases p <;> rfl
@[simp] theorem AscDetector.flagIf_lrcok (p : Bool) (f : AscFlag) : (a.flagIf p f).lrcok = a.lrcok := by
  cases p <;> rfl
@[simp] theorem AscDetector.flagIf_ovr (p : Bool) (f : AscFlag) : (a.flagIf p f).ovr = a.ovr := by
  cases p <;> rfl
@[simp] theorem AscDetector.flagIf_buf (p : Bool) (f : AscFlag) : (a.flagIf p f).buf = a.buf := by
  cases p <;> rfl

@[simp] theorem AscDetector.endLine_state : a.endLine.state = .done := by simp [AscDetector.endLine]
@[simp] theorem AscDetector.endLine_started : a.endLine.started = a.started := by simp [AscDetector.endLine]
@[simp] theorem AscDetector.endLine_phase : a.endLine.phase = a.phase := by simp [AscDetector.endLine]
@[simp] theorem AscDetector.endLine_hi : a.endLine.hi = a.hi := by simp [AscDetector.endLine]
@[simp] theorem AscDetector.endLine_cnt : a.endLine.cnt = a.cnt := by simp [AscDetector.endLine]
@[simp] theorem AscDetector.endLine_sum : a.endLine.sum = a.sum := by simp [AscDetector.endLine]
@[simp] theorem AscDetector.endLine_ovr : a.endLine.ovr = a.ovr := by simp [AscDetector.endLine]
@[simp] theorem AscDetector.endLine_buf : a.endLine.buf = a.buf := by simp [AscDetector.endLine]
@[simp] theorem AscDetector.endLine_lrcok : a.endLine.lrcok = decide (a.sum = 0 ∧ 1 ≤ a.cnt.toNat) := by
  simp [AscDetector.endLine]

/-- The flags a line ends with: BADSTART where no data character was consumed, ODD where a nibble is held, SHORT
below three bytes, and those it had. -/
theorem AscDetector.endLine_flag (f : AscFlag) :
    a.endLine.flag f =
      (a.flag f || (decide (f = .badStart) && !a.started) || (decide (f = .odd) && a.phase) ||
        (decide (f = .short) && decide (a.cnt.toNat < 3))) := by
  have hf : a.endLine.flag f =
      ((({ a with state := .done }.flagIf (!a.started) .badStart).flagIf a.phase .odd).flagIf
        (decide (a.cnt.toNat < 3)) .short).flag f := by
    simp [AscDetector.endLine, AscDetector.flag]
  rw [hf, AscDetector.flagIf_flag, AscDetector.flagIf_flag, AscDetector.flagIf_flag]
  have h0 : ({ a with state := .done } : AscDetector).flag f = a.flag f := rfl
  rw [h0]
  cases f <;> simp [Bool.or_comm]

/-- After a push the detector is not in IDLE (rule R49 item vi). -/
theorem AscDetector.push_state_ne_idle : (a.push c).state ≠ .idle := by
  have ht : ∀ a' : AscDetector, (a'.take c).state ≠ .idle := fun a' => by
    rw [AscDetector.take_state]; split <;> decide
  cases hs : a.state with
  | done => rw [AscDetector.push_dropped hs]; simp [hs]
  | idle => rw [AscDetector.push_take (.inl hs)]; exact ht a
  | line => rw [AscDetector.push_take (.inr hs)]; exact ht a
  | cr =>
    by_cases hc : c = charLf
    · subst hc; rw [AscDetector.push_end hs]; rw [AscDetector.endLine_state]; decide
    · rw [AscDetector.push_pending hs hc]; exact ht _

end Sys2Proof.Machine
end

