-- ==== Sys2Proof/Laws/AscFrame.lean ====
section
/-! SUPPORT. What one character changes of the ASCII detector and what it leaves (43_ascii_detector.md R193, R194). -/

namespace Sys2Proof.Machine

/-- Whether the data character `c` completes a pair for which there is room (rules R194, R199). -/
def AscDetector.completesPair (a : AscDetector) (c : Byte) : Bool :=
  (hexVal c).isSome && a.started && a.phase && decide (a.cnt.toNat ≠ Config.bufBytes)

/-- What consuming a data character leaves: no flag is cleared, ODD and SHORT are not touched, `a_hi` stays but for a
high nibble, and the count, the sum and the buffer stay but for a completed pair. -/
theorem AscDetector.data_frame (a : AscDetector) (c : Byte) :
    (a.data c).flag .odd = a.flag .odd ∧ (a.data c).flag .short = a.flag .short ∧
    (∀ f, a.flag f = true → (a.data c).flag f = true) ∧
    (a.phase = true ∨ hexVal c = none → (a.data c).hi = a.hi) ∧
    (a.completesPair c = false →
      (a.data c).cnt = a.cnt ∧ (a.data c).sum = a.sum ∧ (a.data c).buf = a.buf) ∧
    (a.completesPair c = true →
      (a.data c).buf = a.buf.write a.cnt.toNat (a.pairByte c)) := by
  unfold AscDetector.completesPair
  cases hs : a.started with
  | false =>
    by_cases hc : c = charColon
    · subst hc; rw [AscDetector.data_colon hs]; simp [AscDetector.flag]
    · rw [AscDetector.data_badStart hs hc]
      refine ⟨?_, ?_, fun f hf => ?_, fun _ => rfl, fun _ => ⟨rfl, rfl, rfl⟩, fun h => by simp at h⟩ <;>
        rw [AscDetector.flag_raise]
      · rfl
      · rfl
      · rw [show ({ a with started := true } : AscDetector).flag f = a.flag f from rfl, hf]; simp
  | true =>
    cases hv : hexVal c with
    | none =>
      rw [AscDetector.data_nonHex hs hv]
      refine ⟨?_, ?_, fun f hf => ?_, fun _ => rfl, fun _ => ⟨rfl, rfl, rfl⟩, fun h => by simp at h⟩ <;>
        rw [AscDetector.flag_raise]
      · rfl
      · rfl
      · rw [hf]; simp
    | some n =>
      cases hp : a.phase with
      | false =>
        rw [AscDetector.data_high hs hv hp]
        refine ⟨rfl, rfl, fun f hf => hf, fun h => by simp at h, fun _ => ⟨rfl, rfl, rfl⟩, fun h => by simp at h⟩
      | true =>
        by_cases hr : a.cnt.toNat = Config.bufBytes
        · rw [AscDetector.data_overflow hs hv hp hr]
          refine ⟨?_, ?_, fun f hf => ?_, fun _ => rfl, fun _ => ⟨rfl, rfl, rfl⟩, fun h => by simp [hr] at h⟩ <;>
            rw [AscDetector.flag_raise]
          · rfl
          · rfl
          · rw [show ({ a with phase := false } : AscDetector).flag f = a.flag f from rfl, hf]; simp
        · rw [AscDetector.data_low hs hv hp hr]
          refine ⟨rfl, rfl, fun f hf => hf, fun _ => rfl, fun h => by simp [hr] at h, fun _ => ?_⟩
          simp [AscDetector.pairByte, hv]

/-- What handling a character leaves: as for a data character, and `a_lrcok` and `a_ovr` stay. -/
theorem AscDetector.take_frame (a : AscDetector) (c : Byte) :
    (a.take c).lrcok = a.lrcok ∧ (a.take c).ovr = a.ovr ∧ (a.take c).flag .odd = a.flag .odd ∧
    (a.take c).flag .short = a.flag .short ∧ (∀ f, a.flag f = true → (a.take c).flag f = true) ∧
    (a.phase = true ∨ hexVal c = none → (a.take c).hi = a.hi) ∧
    (a.completesPair c = false →
      (a.take c).cnt = a.cnt ∧ (a.take c).sum = a.sum ∧ (a.take c).buf = a.buf) ∧
    (a.completesPair c = true →
      (a.take c).buf = a.buf.write a.cnt.toNat (a.pairByte c)) := by
  by_cases hc : c = charCr
  · subst hc; rw [AscDetector.take_cr]; simp [AscDetector.flag, AscDetector.completesPair]
  · rw [AscDetector.take_data hc]
    obtain ⟨k1, k2, k3, k4⟩ := AscDetector.data_keeps (a := a) (c := c)
    obtain ⟨h1, h2, h3, h4, h5, h6⟩ := AscDetector.data_frame a c
    exact ⟨k2, k3, h1, h2, h3, h4, h5, h6⟩


end Sys2Proof.Machine
end

