-- ==== Sys2Proof/Laws/Checksum.lean ====
section
/-! SUPPORT. The laws of the checksum arithmetic: the CRC step is linear and a bijection, the sum step is addition. -/

namespace Sys2Proof.Machine

/-! ### One iteration of the CRC loop -/

/-- The loop's iteration as a masked exclusive or. -/
theorem crcShift_eq (c : Half) :
    crcShift c = (c >>> 1) ^^^ (if c.getLsbD 0 then Config.crcPoly else 0) := by
  unfold crcShift; split <;> simp

theorem crcShift_xor (x y : Half) : crcShift (x ^^^ y) = crcShift x ^^^ crcShift y := by
  have shift : (x ^^^ y) >>> 1 = (x >>> 1) ^^^ (y >>> 1) := by
    ext i hi; simp
  simp only [crcShift_eq, shift, BitVec.getLsbD_xor]
  cases hx : x.getLsbD 0 <;> cases hy : y.getLsbD 0 <;>
    simp [BitVec.xor_assoc, BitVec.xor_comm]
  all_goals
    ext i hi
    simp only [BitVec.getElem_xor]
    grind

@[simp] theorem crcShift_zero : crcShift 0#16 = 0#16 := by decide

theorem crcShifts_xor (k : Nat) (x y : Half) : crcShifts k (x ^^^ y) = crcShifts k x ^^^ crcShifts k y := by
  induction k generalizing x y with
  | zero => rfl
  | succ k ih => simp only [crcShifts, crcShift_xor, ih]

@[simp] theorem crcShifts_zero (k : Nat) : crcShifts k 0#16 = 0#16 := by
  induction k with
  | zero => rfl
  | succ k ih => simp [crcShifts, ih]

/-- The feedback constant has bit 15 set and a shifted register has not, so only 0 is mapped to 0. -/
theorem crcShift_eq_zero {c : Half} (h : crcShift c = 0#16) : c = 0#16 := by
  have top := congrArg (BitVec.getLsbD · 15) h
  by_cases low : c.getLsbD 0 = true
  · simp only [crcShift, low, if_true] at top
    simp at top
  · simp only [crcShift, low, if_false, Bool.false_eq_true] at h
    ext i hi
    match i, hi with
    | 0, _ => simpa using low
    | j + 1, hj =>
      have := congrArg (BitVec.getLsbD · j) h
      simp only [BitVec.getLsbD_ushiftRight, BitVec.getLsbD_zero] at this
      rw [Nat.add_comm] at this
      simpa [BitVec.getLsbD_eq_getElem hj] using this

theorem crcShifts_eq_zero {k : Nat} {c : Half} (h : crcShifts k c = 0#16) : c = 0#16 := by
  induction k generalizing c with
  | zero => exact h
  | succ k ih => exact crcShift_eq_zero (ih h)

/-! ### The step -/

theorem zext_xor (a b : Byte) : (a ^^^ b).setWidth 16 = (a.setWidth 16 ^^^ b.setWidth 16 : Half) :=
  BitVec.setWidth_xor

/-- Linearity (rule R129). -/
theorem crcStep_xor (c d : Half) (a b : Byte) :
    crcStep (c ^^^ d) (a ^^^ b) = crcStep c a ^^^ crcStep d b := by
  unfold crcStep
  rw [zext_xor, ← crcShifts_xor]
  congr 1
  ac_rfl

@[simp] theorem crcStep_zero_zero : crcStep 0#16 0#8 = 0#16 := by decide

/-- A step is 0 only where the byte cancels the register. -/
theorem crcStep_eq_zero {c : Half} {b : Byte} (h : crcStep c b = 0#16) : c = b.setWidth 16 := by
  have := crcShifts_eq_zero h
  exact BitVec.xor_eq_zero_iff.mp this

/-- Injective in the register for a fixed byte (rule R129). -/
theorem crcStep_injective {c d : Half} {b : Byte} (h : crcStep c b = crcStep d b) : c = d := by
  have e : crcStep (c ^^^ d) (b ^^^ b) = 0#16 := by rw [crcStep_xor, h, BitVec.xor_self]
  have := crcStep_eq_zero e
  rw [BitVec.xor_self] at this
  exact BitVec.xor_eq_zero_iff.mp (by simpa using this)

/-- Only the exclusive or of the byte and the register's low byte matters (rule R129). -/
theorem crcStep_zext (c : Half) (b : Byte) : crcStep c b = crcStep (c ^^^ b.setWidth 16) 0#8 := by
  simp [crcStep]

/-! ### Bytes of a register -/

/-- A register split into its two bytes. -/
theorem split_bytes (c : Half) : c = ((c.extractLsb' 8 8).setWidth 16 <<< 8) ^^^ (c.extractLsb' 0 8).setWidth 16 := by
  ext i hi
  by_cases h : i < 8
  · simp [h, BitVec.getLsbD_eq_getElem hi]
  · simp [h, BitVec.getLsbD_eq_getElem, show 8 + (i - 8) = i by omega, show i - 8 < 8 by omega, hi]

/-- A register whose low byte is 0 shifts out eight zeros. -/
theorem crcShifts_high (h : Byte) : crcShifts 8 (h.setWidth 16 <<< 8) = h.setWidth 16 := by
  revert h; decide

theorem shift8 (c : Half) : c >>> 8 = (c.extractLsb' 8 8).setWidth 16 := by
  ext i hi
  by_cases h : i < 8
  · simp [h]
  · simp only [BitVec.getElem_ushiftRight, BitVec.getElem_setWidth, BitVec.getLsbD_extractLsb', h, decide_false,
      Bool.false_and]
    exact BitVec.getLsbD_of_ge _ _ (by omega)

/-- The step as a shift by a byte and a function of the low byte alone (rule R128). -/
theorem crcStep_table (c : Half) (b : Byte) :
    crcStep c b = (c >>> 8) ^^^ crcShifts 8 (((c.extractLsb' 0 8) ^^^ b).setWidth 16) := by
  have e : c ^^^ b.setWidth 16 =
      ((c.extractLsb' 8 8).setWidth 16 <<< 8) ^^^ ((c.extractLsb' 0 8) ^^^ b).setWidth 16 := by
    conv => lhs; rw [split_bytes c]
    rw [zext_xor, BitVec.xor_assoc]
  unfold crcStep
  rw [e, crcShifts_xor, crcShifts_high, shift8]

/-- The residue law's first step: the register's low byte cancels (rule R127). -/
theorem crcStep_low (c : Half) : crcStep c (crcLow c) = (crcHigh c).setWidth 16 := by
  rw [crcStep_table, crcLow, BitVec.xor_self, shift8]
  simp [crcHigh]

/-- The residue law's second step (rule R127). -/
theorem crcStep_high (h : Byte) : crcStep (h.setWidth 16) h = 0#16 := by
  simp [crcStep]

/-! ### Whole messages -/

@[simp] theorem crc16_nil : crc16 [] = Config.crcInit := rfl

theorem crc16_append_one (m : List Byte) (b : Byte) : crc16 (m ++ [b]) = crcStep (crc16 m) b := by
  simp [crc16]

/-- Two more bytes bring the register to 0 exactly when they are the CRC, low byte first (rule R127). -/
theorem crc16_residue (m : List Byte) (x y : Byte) :
    crc16 (m ++ [x, y]) = 0#16 ↔ x = crcLow (crc16 m) ∧ y = crcHigh (crc16 m) := by
  have e : crc16 (m ++ [x, y]) = crcStep (crcStep (crc16 m) x) y := by simp [crc16]
  rw [e]
  constructor
  · intro h
    have h1 := crcStep_eq_zero h
    rw [crcStep_table] at h1
    have key : crcShifts 8 ((crcLow (crc16 m) ^^^ x).setWidth 16) = (crcHigh (crc16 m) ^^^ y).setWidth 16 := by
      rw [zext_xor (crcHigh _) y, ← h1, shift8]
      simp only [crcHigh, crcLow]
      rw [← BitVec.xor_assoc, BitVec.xor_self, BitVec.zero_xor]
    have small : ∀ z w : Byte, crcShifts 8 (z.setWidth 16) = w.setWidth 16 → z = 0#8 ∧ w = 0#8 := by
      intro z w hz
      have : crcShifts 8 ((z.setWidth 16 : Half) ^^^ (w.setWidth 16 <<< 8)) = 0#16 := by
        rw [crcShifts_xor, hz, crcShifts_high, BitVec.xor_self]
      have zero := crcShifts_eq_zero this
      constructor
      · ext i hi
        have := congrArg (BitVec.getLsbD · i) zero
        simpa [hi, show i < 16 by omega] using this
      · ext i hi
        have := congrArg (BitVec.getLsbD · (i + 8)) zero
        simpa [hi, show i + 8 < 16 by omega] using this
    have := small _ _ key
    exact ⟨(BitVec.xor_eq_zero_iff.mp this.1).symm, (BitVec.xor_eq_zero_iff.mp this.2).symm⟩
  · rintro ⟨rfl, rfl⟩
    rw [crcStep_low, crcStep_high]

/-! ### The sum -/

theorem sumStep_eq_add (s b : Byte) : sumStep s b = s + b := by
  apply BitVec.eq_of_toNat_eq
  simp [sumStep, BitVec.toNat_add]

theorem negSum_eq_neg (s : Byte) : negSum s = -s := by
  apply BitVec.eq_of_toNat_eq
  simp [negSum, BitVec.toNat_neg]

theorem byteSum_append_one (m : List Byte) (b : Byte) : byteSum (m ++ [b]) = sumStep (byteSum m) b := by
  simp [byteSum]

@[simp] theorem byteSum_nil : byteSum [] = 0#8 := rfl

/-- The check a receiver makes: the sum of all bytes, the LRC included, is 0 (rule R146). -/
theorem lrc_eq_iff (m : List Byte) (x : Byte) : lrc m = x ↔ sumStep (byteSum m) x = 0#8 := by
  rw [lrc, negSum_eq_neg, sumStep_eq_add]
  constructor
  · rintro rfl; grind
  · intro h; grind

/-- The byte sum of rule R144, as a number. -/
theorem byteSum_toNat (m : List Byte) : (byteSum m).toNat = (m.map BitVec.toNat).sum % 256 := by
  induction m using List.reverseRecOn with
  | nil => rfl
  | append_singleton m b ih =>
    rw [byteSum_append_one, sumStep_eq_add, BitVec.toNat_add, ih]; simp

/-! ### The two bytes of a CRC, as truncations -/

theorem crcLow_eq (c : Half) : crcLow c = c.setWidth 8 := by unfold crcLow; ext k hk; simp

theorem crcHigh_eq (c : Half) : crcHigh c = (c >>> 8).setWidth 8 := by unfold crcHigh; ext k hk; simp

end Sys2Proof.Machine
end

