-- ==== Sys2Proof/Laws/AscInv.lean ====
section
/-! SUPPORT. Every operation on the ASCII detector keeps its invariant (10_state.md rule R49). -/

namespace Sys2Proof.Machine

variable {a : AscDetector} {c : Byte}

/-- What holds of an unfinished line whatever its control state. -/
structure AscDetector.Open (a : AscDetector) : Prop where
  bufWf      : a.buf.wf = true
  cntBound   : a.cnt.toNat ≤ Config.bufBytes
  ovr        : a.ovr = false
  lrcok      : a.lrcok = false
  odd        : a.flag .odd = false
  short      : a.flag .short = false
  sumCovers  : a.sum = byteSum (a.buf.bytes a.cnt.toNat)
  notStarted : a.started = false → a.phase = false ∧ a.cnt = 0
  ovfFull    : a.flag .ovf = true → a.cnt.toNat = Config.bufBytes

theorem AscDetector.Inv.isOpen (h : a.Inv) (hs : a.state ≠ .done) : a.Open where
  bufWf := h.bufWf
  cntBound := h.cntBound
  ovr := by by_contra hx; exact hs (h.ovrDone (by simpa using hx))
  lrcok := by by_contra hx; exact hs (h.lrcokDone (by simpa using hx))
  odd := by by_contra hx; exact hs (h.oddDone (by simpa using hx))
  short := by by_contra hx; exact hs (h.shortDone (by simpa using hx))
  sumCovers := h.sumCovers
  notStarted := h.notStarted
  ovfFull := h.ovfFull

/-- A character held pending leaves the line open and good. -/
theorem AscDetector.Open.inv_cr (h : a.Open) : { a with state := .cr }.Inv where
  bufWf := h.bufWf
  cntBound := h.cntBound
  ovrDone hx := by simp [h.ovr] at hx
  idleClear hx := by simp at hx
  lrcokDone hx := by simp [h.lrcok] at hx
  oddDone hx := absurd hx (by have := h.odd; simp_all [AscDetector.flag])
  shortDone hx := absurd hx (by have := h.short; simp_all [AscDetector.flag])
  sumCovers := h.sumCovers
  lineStarted hx := by simp at hx
  notStarted := h.notStarted
  ovfFull := h.ovfFull
  judged hx := by simp at hx

/-- A line whose first data character has been consumed. -/
theorem AscDetector.Open.inv_line (h : a.Open) (hs : a.started = true) : { a with state := .line }.Inv where
  bufWf := h.bufWf
  cntBound := h.cntBound
  ovrDone hx := by simp [h.ovr] at hx
  idleClear hx := by simp at hx
  lrcokDone hx := by simp [h.lrcok] at hx
  oddDone hx := absurd hx (by have := h.odd; simp_all [AscDetector.flag])
  shortDone hx := absurd hx (by have := h.short; simp_all [AscDetector.flag])
  sumCovers := h.sumCovers
  lineStarted _ := hs
  notStarted := h.notStarted
  ovfFull := h.ovfFull
  judged hx := by simp at hx

/-- The end of a line (rule R200). -/
theorem AscDetector.Open.inv_endLine (h : a.Open) : a.endLine.Inv where
  bufWf := by simpa using h.bufWf
  cntBound := by simpa using h.cntBound
  ovrDone hx := by simp [h.ovr] at hx
  idleClear hx := by simp at hx
  lrcokDone _ := by simp
  oddDone _ := by simp
  shortDone _ := by simp
  sumCovers := by simpa using h.sumCovers
  lineStarted hx := by simp at hx
  notStarted := by simpa using h.notStarted
  ovfFull := by simpa [AscDetector.endLine_flag] using h.ovfFull
  judged _ := by simp +contextual [AscDetector.endLine_flag, h.odd, h.short]

/-- A data character keeps a line open and good (rule R194). -/
theorem AscDetector.Open.data (h : a.Open) (c : Byte) : (a.data c).Open := by
  cases hs : a.started with
  | false =>
    by_cases hc : c = charColon
    · subst hc
      rw [AscDetector.data_colon hs]
      exact { h with notStarted := by simp }
    · rw [AscDetector.data_badStart hs hc]
      constructor <;> simp
      · exact h.bufWf
      · exact h.cntBound
      · exact h.ovr
      · exact h.lrcok
      · exact h.odd
      · exact h.short
      · exact h.sumCovers
      · exact h.ovfFull
  | true =>
    cases hv : hexVal c with
    | none =>
      rw [AscDetector.data_nonHex hs hv]
      constructor <;> simp
      · exact h.bufWf
      · exact h.cntBound
      · exact h.ovr
      · exact h.lrcok
      · exact h.odd
      · exact h.short
      · exact h.sumCovers
      · exact h.notStarted
      · exact h.ovfFull
    | some n =>
      cases hp : a.phase with
      | false =>
        rw [AscDetector.data_high hs hv hp]
        exact { h with notStarted := by simp [hs] }
      | true =>
        by_cases hr : a.cnt.toNat = Config.bufBytes
        · rw [AscDetector.data_overflow hs hv hp hr]
          constructor <;> simp
          · exact h.bufWf
          · exact h.cntBound
          · exact h.ovr
          · exact h.lrcok
          · exact h.odd
          · exact h.short
          · exact h.sumCovers
          · simp [hs]
          · exact hr
        · rw [AscDetector.data_low hs hv hp hr]
          have room : a.cnt.toNat < Config.bufBytes := by have := h.cntBound; omega
          have succ : (a.cnt + 1).toNat = a.cnt.toNat + 1 := by
            simp only [Config.bufBytes] at room
            simp [BitVec.toNat_add]; omega
          constructor
          · exact Memory.wf_write h.bufWf _ _
          · rw [succ]; omega
          · exact h.ovr
          · exact h.lrcok
          · exact h.odd
          · exact h.short
          · rw [succ, Memory.bytes_write_at h.bufWf room, byteSum_append_one, ← h.sumCovers]
          · simp [hs]
          · intro hx; exact absurd (h.ovfFull hx) hr

theorem AscDetector.Open.inv_take (h : a.Open) (c : Byte) : (a.take c).Inv := by
  by_cases hc : c = charCr
  · subst hc; rw [AscDetector.take_cr]; exact h.inv_cr
  · rw [AscDetector.take_data hc]; exact (h.data c).inv_line AscDetector.data_keeps.2.2.2

/-- Every push keeps the invariant (rule R49). -/
theorem AscDetector.Inv.push (h : a.Inv) (c : Byte) : (a.push c).Inv := by
  cases hs : a.state with
  | done =>
    rw [AscDetector.push_dropped hs]
    exact { h with ovrDone := fun _ => hs, idleClear := fun hx => by simp [hs] at hx }
  | idle => rw [AscDetector.push_take (.inl hs)]; exact (h.isOpen (by simp [hs])).inv_take c
  | line => rw [AscDetector.push_take (.inr hs)]; exact (h.isOpen (by simp [hs])).inv_take c
  | cr =>
    have ho := h.isOpen (by simp [hs])
    by_cases hc : c = charLf
    · subst hc; rw [AscDetector.push_end hs]; exact ho.inv_endLine
    · rw [AscDetector.push_pending hs hc]; exact (ho.data charCr).inv_take c

/-- A cleared detector is good whatever its buffer holds (rule R192). -/
theorem AscDetector.inv_clear (hw : a.buf.wf = true) : a.clear.Inv where
  bufWf := hw
  cntBound := by simp [AscDetector.clear, AscDetector.reset]
  ovrDone hx := by simp [AscDetector.clear, AscDetector.reset] at hx
  idleClear _ := rfl
  lrcokDone hx := by simp [AscDetector.clear, AscDetector.reset] at hx
  oddDone hx := by simp [AscDetector.clear, AscDetector.reset, AscDetector.flag] at hx
  shortDone hx := by simp [AscDetector.clear, AscDetector.reset, AscDetector.flag] at hx
  sumCovers := by simp [AscDetector.clear, AscDetector.reset]
  lineStarted hx := by simp [AscDetector.clear, AscDetector.reset] at hx
  notStarted := by simp [AscDetector.clear, AscDetector.reset]
  ovfFull hx := by simp [AscDetector.clear, AscDetector.reset, AscDetector.flag] at hx
  judged hx := by simp [AscDetector.clear, AscDetector.reset] at hx

end Sys2Proof.Machine
end

