-- ==== Sys2Proof/Laws/AscStream.lean ====
section
/-! SUPPORT. The ASCII detector over a line of characters (43_ascii_detector.md rule R204): what it holds after any
data characters, after any characters without an end delimiter, and at the end of a line. -/

namespace Sys2Proof.Machine

/-! ### Data characters -/

/-- An unfinished line of which the data characters `c` have been consumed. -/
structure LineRead (a : AscDetector) (c : List Byte) : Prop where
  op : a.Open
  started : a.started = decide (c ≠ [])
  bad : a.flag .badStart = true ↔ c ≠ [] ∧ c.getD 0 0 ≠ 0x3A
  nonHex : a.flag .nonHex = true ↔ ∃ x ∈ c.drop 1, hexVal x = none
  phase : a.phase = true ↔ (lineNibbles c).length % 2 = 1
  hi : (lineNibbles c).length % 2 = 1 → (lineNibbles c).getLast? = some a.hi
  ovf : a.flag .ovf = true ↔ 264 < (lineNibbles c).length / 2
  cnt : a.cnt.toNat = min ((lineNibbles c).length / 2) 264
  buf : a.buf.bytes a.cnt.toNat = (pairBytes (lineNibbles c)).take 264

theorem lineNibbles_snoc {c : List Byte} {x : Byte} (hc : c ≠ []) :
    lineNibbles (c ++ [x]) = lineNibbles c ++ (hexVal x).toList := by
  cases c with
  | nil => exact absurd rfl hc
  | cons y c =>
    simp only [lineNibbles, List.cons_append, List.drop_succ_cons, List.drop_zero, List.filterMap_append]
    cases h : hexVal x <;> simp [h]

theorem pairBytes_snoc_even : ∀ (h : List Nibble) (n : Nibble), h.length % 2 = 0 →
    pairBytes (h ++ [n]) = pairBytes h
  | [], n, _ => rfl
  | [_], n, h => by simp at h
  | x :: y :: r, n, h => by
    simp only [List.cons_append, pairBytes]
    rw [pairBytes_snoc_even r n (by simp at h; omega)]

theorem pairBytes_snoc_odd : ∀ (h : List Nibble) (m n : Nibble), h.length % 2 = 1 → h.getLast? = some m →
    pairBytes (h ++ [n]) = pairBytes h ++ [m ++ n]
  | [], m, n, h, _ => by simp at h
  | [x], m, n, _, hl => by simp at hl; subst hl; rfl
  | x :: y :: r, m, n, h, hl => by
    have hr : r ≠ [] := by rintro rfl; simp at h
    simp only [List.cons_append, pairBytes, List.cons.injEq, true_and]
    apply pairBytes_snoc_odd r m n (by simp at h; omega)
    rw [← hl]
    cases r with
    | nil => exact absurd rfl hr
    | cons z r => simp [List.getLast?_cons_cons]

theorem pairBytes_length : ∀ h : List Nibble, (pairBytes h).length = h.length / 2
  | [] => rfl
  | [_] => by simp [pairBytes]
  | _ :: _ :: r => by simp [pairBytes, pairBytes_length r]; omega

/-- One more data character (rule R194). -/
theorem LineRead.step {a : AscDetector} {c : List Byte} (h : LineRead a c) (x : Byte) :
    LineRead (a.data x) (c ++ [x]) := by
  have hop := h.op.data x
  have hlen : (pairBytes (lineNibbles c)).length = (lineNibbles c).length / 2 := pairBytes_length _
  by_cases hc : c = []
  · subst hc
    have hs : a.started = false := by simpa using h.started
    have hn : ¬ a.flag .nonHex = true := by rw [h.nonHex]; simp
    have hb : ¬ a.flag .badStart = true := by rw [h.bad]; simp
    have hp := h.phase
    have ho := h.ovf
    have hct := h.cnt
    have hbf := h.buf
    simp [lineNibbles, pairBytes] at hp ho hct hbf
    by_cases hx : x = charColon
    · subst hx
      rw [AscDetector.data_colon hs] at hop ⊢
      constructor <;> simp_all [lineNibbles, pairBytes, charColon, AscDetector.flag]
    · rw [AscDetector.data_badStart hs hx] at hop ⊢
      have hfl : ∀ f, ({ a with started := true, phase := false } : AscDetector).flag f = a.flag f := fun _ => rfl
      constructor <;> first | exact hop | simp_all [lineNibbles, pairBytes, charColon]
  · have hs : a.started = true := by simpa [hc] using h.started
    have c0 : (c ++ [x]).getD 0 0 = c.getD 0 0 := by cases c with | nil => exact absurd rfl hc | cons y c => rfl
    have cd : (c ++ [x]).drop 1 = c.drop 1 ++ [x] := by cases c with | nil => exact absurd rfl hc | cons y c => rfl
    have hbad := h.bad
    have hnh := h.nonHex
    have hph := h.phase
    have hhi := h.hi
    have hov := h.ovf
    have hct := h.cnt
    have hbf := h.buf
    cases hv : hexVal x with
    | none =>
      rw [AscDetector.data_nonHex hs hv] at hop ⊢
      constructor <;> (try rw [lineNibbles_snoc hc, hv])
      · exact hop
      · simp [hs]
      · rw [c0]; simp [hbad, hc]
      · rw [cd]; simp [hv]
      · simpa using hph
      · simpa using hhi
      · simpa using hov
      · simpa using hct
      · simpa using hbf
    | some n =>
      have hnh' : (a.flag .nonHex = true ↔ ∃ y ∈ (c ++ [x]).drop 1, hexVal y = none) := by
        rw [cd, hnh]; simp [hv]
      have hbad' : (a.flag .badStart = true ↔ (c ++ [x]) ≠ [] ∧ (c ++ [x]).getD 0 0 ≠ 0x3A) := by
        rw [c0, hbad]; simp [hc]
      cases hp : a.phase with
      | false =>
        have he : (lineNibbles c).length % 2 = 0 := by
          rw [hp] at hph; simp at hph; omega
        rw [AscDetector.data_high hs hv hp] at hop ⊢
        constructor <;> (try rw [lineNibbles_snoc hc, hv])
        · exact hop
        · simp [hs]
        · exact hbad'
        · exact hnh'
        · simp; omega
        · simp
        · simp [AscDetector.flag] at hov ⊢; rw [hov]; omega
        · simp; rw [hct]; omega
        · simp only [Option.toList]; rw [pairBytes_snoc_even _ _ he]; exact hbf
      | true =>
        have he : (lineNibbles c).length % 2 = 1 := by rw [← hph]; exact hp
        have hl := hhi he
        by_cases hr : a.cnt.toNat = Config.bufBytes
        · rw [AscDetector.data_overflow hs hv hp hr] at hop ⊢
          have h264 : a.cnt.toNat = 264 := hr
          constructor <;> (try rw [lineNibbles_snoc hc, hv])
          · exact hop
          · simp [hs]
          · rw [AscDetector.flag_raise]; simp only [reduceCtorEq, decide_false, Bool.false_or]; exact hbad'
          · rw [AscDetector.flag_raise]; simp only [reduceCtorEq, decide_false, Bool.false_or]; exact hnh'
          · simp; omega
          · simp; omega
          · simp; omega
          · simp; rw [hct]; omega
          · simp only [Option.toList, AscDetector.raiseFlag_buf, AscDetector.raiseFlag_cnt]
            rw [pairBytes_snoc_odd _ _ _ he hl, hbf, List.take_append_of_le_length (by rw [hlen]; omega)]
        · have room : a.cnt.toNat < 264 := by have := h.op.cntBound; simp [Config.bufBytes] at hr this; omega
          rw [AscDetector.data_low hs hv hp hr] at hop ⊢
          have succ : (a.cnt + 1).toNat = a.cnt.toNat + 1 := by simp [BitVec.toNat_add]; omega
          constructor <;> (try rw [lineNibbles_snoc hc, hv])
          · exact hop
          · simp [hs]
          · exact hbad'
          · exact hnh'
          · simp; omega
          · simp; omega
          · simp [AscDetector.flag] at hov ⊢; rw [hov]; omega
          · simp only [succ]; simp; omega
          · simp only [succ, Option.toList]
            rw [Memory.bytes_write_at h.op.bufWf room, hbf, pairBytes_snoc_odd _ _ _ he hl]
            rw [List.take_of_length_le (by rw [hlen]; omega), List.take_of_length_le (by simp [hlen]; omega)]

theorem LineRead.start {a : AscDetector} (h : a.Inv) (hs : a.state = .idle) : LineRead a [] := by
  have e := h.idleClear hs
  have hop := h.isOpen (by rw [hs]; decide)
  rw [e] at hop ⊢
  constructor <;> first | exact hop | simp [AscDetector.reset, lineNibbles, AscDetector.flag, pairBytes]

theorem LineRead.setState {a : AscDetector} {c : List Byte} (h : LineRead a c) (st : AscState) :
    LineRead { a with state := st } c := by
  obtain ⟨h1, h2, h3, h4, h5, h6, h7, h8, h9⟩ := h
  refine ⟨?_, h2, h3, h4, h5, h6, h7, h8, h9⟩
  obtain ⟨g1, g2, g3, g4, g5, g6, g7, g8, g9⟩ := h1
  exact ⟨g1, g2, g3, g4, g5, g6, g7, g8, g9⟩

/-! ### Characters, none of them ending the line -/

/-- An unfinished line that has been given the characters `p`: all of them have been consumed, but for a CR that is
the last of them, which is held. -/
def LineTaken (a : AscDetector) (p : List Byte) : Prop :=
  (p = [] ∧ a.state = .idle ∧ LineRead a []) ∨
  (∃ q, p = q ++ [charCr] ∧ a.state = .cr ∧ LineRead a q) ∨
  (∃ q x, p = q ++ [x] ∧ x ≠ charCr ∧ a.state = .line ∧ LineRead a p)

theorem noDelimiter_snoc {q : List Byte} {x y : Byte} (h : noDelimiter (q ++ [x, y]) = true) :
    ¬(x = charCr ∧ y = charLf) := by
  induction q with
  | nil => simp [noDelimiter] at h; rintro ⟨h1, h2⟩; exact h.elim (fun k => k h1) (fun k => k h2)
  | cons z q ih =>
    cases q with
    | nil => simp [noDelimiter] at h ih; rintro ⟨h1, h2⟩; exact h.2.elim (fun k => k h1) (fun k => k h2)
    | cons z' q => simp only [List.cons_append, noDelimiter, Bool.and_eq_true] at h; exact ih h.2

theorem noDelimiter_init {q : List Byte} {x : Byte} (h : noDelimiter (q ++ [x]) = true) : noDelimiter q = true := by
  induction q with
  | nil => rfl
  | cons z q ih =>
    cases q with
    | nil => rfl
    | cons z' q => simp only [List.cons_append, noDelimiter, Bool.and_eq_true] at h ⊢; exact ⟨h.1, ih h.2⟩

theorem LineRead.take {a : AscDetector} {p : List Byte} (h : LineRead a p) (x : Byte) :
    LineTaken (a.take x) (p ++ [x]) := by
  by_cases hx : x = charCr
  · subst hx; rw [AscDetector.take_cr]; exact .inr (.inl ⟨p, rfl, rfl, h.setState _⟩)
  · rw [AscDetector.take_data hx]; exact .inr (.inr ⟨p, x, rfl, hx, rfl, (h.step x).setState _⟩)

/-- One more character that does not end the line (rules R193, R196). -/
theorem LineTaken.push {a : AscDetector} {p : List Byte} (h : LineTaken a p) (x : Byte)
    (hn : noDelimiter (p ++ [x]) = true) : LineTaken (a.push x) (p ++ [x]) := by
  rcases h with ⟨rfl, hs, hr⟩ | ⟨q, rfl, hs, hr⟩ | ⟨q, y, rfl, hy, hs, hr⟩
  · rw [AscDetector.push_take (.inl hs)]; exact LineRead.take hr x
  · have hx : x ≠ charLf := by
      rintro rfl
      rw [List.append_assoc] at hn
      exact noDelimiter_snoc hn ⟨rfl, rfl⟩
    rw [AscDetector.push_pending hs hx]
    exact LineRead.take (hr.step charCr) x
  · rw [AscDetector.push_take (.inr hs)]; exact LineRead.take hr x

theorem LineTaken.run {a : AscDetector} (h : LineTaken a []) (p : List Byte) (hn : noDelimiter p = true) :
    LineTaken (p.foldl AscDetector.push a) p := by
  induction p using List.reverseRecOn with
  | nil => exact h
  | append_singleton p x ih => rw [List.foldl_append]; exact (ih (noDelimiter_init hn)).push x hn

/-! ### Whole lines -/

/-- A line that ends with its first CR LF pair: its characters are consumed and the line is judged. -/
theorem AscDetector.line_result {a : AscDetector} (h : a.Inv) (hs : a.state = .idle) (line : List Byte)
    (hn : noDelimiter (line ++ [0x0D]) = true) :
    ∃ b : AscDetector, LineRead b line ∧ (line ++ [0x0D, 0x0A]).foldl AscDetector.push a = b.endLine := by
  have := LineTaken.run (a := a) (.inl ⟨rfl, hs, LineRead.start h hs⟩) _ hn
  rcases this with ⟨h0, -⟩ | ⟨q, hq, hst, hr⟩ | ⟨q, x, hq, hx, -⟩
  · simp at h0
  · have : q = line := (List.append_inj_left hq (by have := congrArg List.length hq; simpa using this)).symm
    subst this
    refine ⟨_, hr, ?_⟩
    rw [show q ++ [0x0D, 0x0A] = (q ++ [0x0D]) ++ [0x0A] by simp, List.foldl_append]
    exact AscDetector.push_end hst
  · exfalso
    have := List.append_inj_right hq (by have := congrArg List.length hq; simpa using this)
    simp at this
    exact hx this.symm

theorem lineNibbles_hex (frame : List Byte) :
    lineNibbles ([0x3A] ++ frame.flatMap hexPair) =
      frame.flatMap (fun b => [b.extractLsb' 4 4, b.extractLsb' 0 4]) := by
  simp only [lineNibbles, List.cons_append, List.drop_succ_cons, List.drop_zero, List.nil_append]
  induction frame with
  | nil => rfl
  | cons b f ih => 
    simp only [List.flatMap_cons, List.filterMap_append, ih, hexPair]
    congr 1
    simp [hexVal_hexChar]

theorem pairBytes_hex (frame : List Byte) :
    pairBytes (frame.flatMap (fun b => [b.extractLsb' 4 4, b.extractLsb' 0 4])) = frame := by
  induction frame with
  | nil => rfl
  | cons b f ih =>
    simp only [List.flatMap_cons, List.cons_append, List.nil_append, pairBytes, ih]
    congr 1
    revert b; decide

theorem hexChar_ne : ∀ n, hexChar n ≠ charCr ∧ hexChar n ≠ charLf := by decide

theorem noDelimiter_of_no_lf {l : List Byte} (h : ∀ x ∈ l, x ≠ charLf) : noDelimiter l = true := by
  induction l with
  | nil => rfl
  | cons x l ih => cases l with
    | nil => rfl
    | cons y l =>
      simp only [noDelimiter, Bool.and_eq_true]
      refine ⟨?_, ih (fun z hz => h z (List.mem_cons_of_mem _ hz))⟩
      have := h y (by simp)
      simp [this]

/-- A line of `:` and the hex pairs of 3 to 264 bytes. -/
theorem hexLine_result {a : AscDetector} (h : a.Inv) (hs : a.state = .idle) (m : List Byte) (hm : 3 ≤ m.length)
    (hm2 : m.length ≤ 264) :
    ∃ t, ([0x3A] ++ m.flatMap hexPair ++ [0x0D, 0x0A]).foldl AscDetector.push a = t ∧ t.state = .done ∧
      t.flags = 0 ∧ t.ovr = false ∧ t.cnt.toNat = m.length ∧ t.buf.bytes m.length = m ∧
      t.lrcok = decide (byteSum m = 0) := by
  obtain ⟨b, hr, e⟩ := AscDetector.line_result h hs ([0x3A] ++ m.flatMap hexPair) (noDelimiter_of_no_lf (by
    intro x hx
    simp only [List.cons_append, List.nil_append, List.mem_cons, List.mem_append, List.mem_flatMap, hexPair,
      List.not_mem_nil, or_false] at hx
    rcases hx with rfl | ⟨b, -, rfl | rfl⟩ | rfl
    · decide
    · exact (hexChar_ne _).2
    · exact (hexChar_ne _).2
    · decide))
  have hn := lineNibbles_hex m
  have hl : (lineNibbles ([0x3A] ++ m.flatMap hexPair)).length = 2 * m.length := by
    rw [hn]; clear * -
    induction m with
    | nil => rfl
    | cons b m ih => simp only [List.flatMap_cons, List.length_append, ih]; simp; omega
  have hcnt : b.cnt.toNat = m.length := by rw [hr.cnt, hl]; omega
  have hbytes : b.buf.bytes m.length = m := by
    have := hr.buf
    rw [hcnt, hn, pairBytes_hex, List.take_of_length_le hm2] at this
    exact this
  refine ⟨_, e, by simp, ?_, by simpa using hr.op.ovr, by simpa using hcnt, by simpa using hbytes, ?_⟩
  · rw [AscDetector.flags_zero_iff]
    intro f
    rw [AscDetector.endLine_flag]
    cases f <;> simp [hr.started, hr.op.odd, hr.op.short]
    · by_contra hb; have := hr.bad.mp (by simpa using hb); simp at this
    · by_contra hb
      obtain ⟨x, hx, hv⟩ := hr.nonHex.mp (by simpa using hb)
      simp only [List.cons_append, List.nil_append, List.drop_succ_cons, List.drop_zero, List.mem_flatMap, hexPair,
        List.mem_cons, List.not_mem_nil, or_false] at hx
      rcases hx with ⟨b, -, rfl | rfl⟩ <;> rw [hexVal_hexChar] at hv <;> cases hv
    · by_contra hb; have := hr.phase.mp (by simpa using hb); omega
    · omega
    · by_contra hb; have := hr.ovf.mp (by simpa using hb); omega
  · rw [AscDetector.endLine_lrcok, hr.op.sumCovers, hcnt, hbytes]
    simp; intro; omega


end Sys2Proof.Machine
end

