-- ==== Sys2Proof/Laws/Decode.lean ====
section
/-! SUPPORT. The decoder, row by row, and the fields of an encoded command (30_encoding.md rules R81 to R83). -/

namespace Sys2Proof

/-! ### Fields -/

theorem opField_append (op : Byte) (x : Half) : opField (op ++ x) = op := by
  unfold opField
  ext k hk
  simp only [BitVec.getElem_extractLsb', BitVec.getLsbD_append]
  rw [if_neg (by omega)]
  simp [BitVec.getLsbD_eq_getElem hk, show 16 + k - 16 = k by omega]

theorem operandField_append (op : Byte) (x : Half) : operandField (op ++ x) = x := by
  unfold operandField
  ext k hk
  simp only [BitVec.getElem_extractLsb', Nat.zero_add]
  exact (BitVec.getLsbD_append (x := op) (y := x)).trans (by simp [hk])

theorem opField_encode (i : Instr) : opField (encode i) = i.opcode := opField_append _ _

theorem operandField_encode (i : Instr) : operandField (encode i) = i.operand := operandField_append _ _

/-- The code of a word, as a number. -/
theorem toNat_opField (w : Cmd) : (opField w).toNat = w.toNat / 2 ^ 16 := by
  have := w.isLt
  simp [opField, BitVec.extractLsb'_toNat, Nat.shiftRight_eq_div_pow]
  omega

/-- The operand of a word, as a number. -/
theorem toNat_operandField (w : Cmd) : (operandField w).toNat = w.toNat % 2 ^ 16 := by
  simp [operandField, BitVec.extractLsb'_toNat]

/-- The bits a format uses, as a number. -/
theorem usedOperand_eq (f : Format) (x : Half) :
    usedOperand f x =
      BitVec.ofNat 16 (x.toNat % 2 ^ (match f with | .n => 0 | .b => 8 | .i => 9 | .w => 2)) := by
  cases f <;> (apply BitVec.eq_of_toNat_eq; simp [usedOperand]; try omega)

/-- A bit of the used operand. -/
theorem getLsbD_usedOperand (f : Format) (x : Half) (k : Nat) :
    (usedOperand f x).getLsbD k =
      (x.getLsbD k && decide (k < match f with | .n => 0 | .b => 8 | .i => 9 | .w => 2)) := by
  cases f <;> simp [usedOperand] <;> grind

/-- A canonical operand is used whole (rule R82). -/
theorem usedOperand_of_fits {f : Format} {x : Half} (h : f.fits x = true) : usedOperand f x = x := by
  have := x.isLt
  cases f <;> simp [Format.fits] at h <;> apply BitVec.eq_of_toNat_eq <;> simp [usedOperand, h] <;> omega

theorem fits_usedOperand (f : Format) (x : Half) : f.fits (usedOperand f x) = true := by
  cases f <;> simp [Format.fits, usedOperand] <;> omega

/-! ### Rows -/

/-- The codes of the table (rule R83). -/
theorem opRows_ops : opRows.map (fun r => r.op.toNat) =
    [0x00, 0x01, 0x02, 0x03, 0x04, 0x05, 0x06] ++ [0x08, 0x09, 0x0A, 0x0B, 0x0C, 0x0D, 0x0E] ++
    [0x10, 0x11, 0x12, 0x13, 0x14, 0x15] ++ [0x18, 0x19] := rfl

/-- A row of the table, found by the code of the word. -/
theorem decode_of_row {w : Cmd} {r : OpRow} (h : opRows.find? (fun r => r.op == opField w) = some r) :
    decode w = .instr (r.build (usedOperand r.format (operandField w))) := by
  simp [decode, h]

/-- All that the decoder can answer: a row of the table with the word's code, or the code by name where no row has
it. -/
theorem decode_cases (w : Cmd) :
    (∃ r ∈ opRows, r.op = opField w ∧ decode w = .instr (r.build (usedOperand r.format (operandField w)))) ∨
    ((∀ r ∈ opRows, r.op ≠ opField w) ∧ decode w = .reserved (opField w)) := by
  cases h : opRows.find? (fun r => r.op == opField w) with
  | some r =>
    refine .inl ⟨r, List.mem_of_find?_eq_some h, ?_, decode_of_row h⟩
    simpa using List.find?_some h
  | none =>
    refine .inr ⟨fun r hr => ?_, by simp [decode, h]⟩
    simpa using List.find?_eq_none.mp h r hr

/-- A word decodes to a command exactly where its code is in the table. -/
theorem decode_isInstr_iff (w : Cmd) :
    (∃ i, decode w = .instr i) ↔ w.toNat / 2 ^ 16 ∈ opRows.map (fun r => r.op.toNat) := by
  rw [← toNat_opField]
  rcases decode_cases w with ⟨r, hr, ho, hd⟩ | ⟨hn, hd⟩
  · exact ⟨fun _ => List.mem_map.mpr ⟨r, hr, by rw [ho]⟩, fun _ => ⟨_, hd⟩⟩
  · refine ⟨fun ⟨i, hi⟩ => by rw [hd] at hi; exact absurd hi (by simp), fun h => ?_⟩
    obtain ⟨r, hr, ho⟩ := List.mem_map.mp h
    exact absurd (BitVec.eq_of_toNat_eq ho) (hn r hr)

/-- The command of `i`'s row on the operand bits `x`, of which its format uses some (rules R81, R82). -/
def Instr.withOperand (i : Instr) (x : Half) : Instr :=
  match i with
  | .crcUpd _ => .crcUpd (usedOperand .b x)
  | .lrcUpd _ => .lrcUpd (usedOperand .b x)
  | .rtuPush _ => .rtuPush (usedOperand .b x)
  | .rtuRdb _ => .rtuRdb (usedOperand .i x)
  | .ascPush _ => .ascPush (usedOperand .b x)
  | .ascRdb _ => .ascRdb (usedOperand .i x)
  | .cfgWr _ => .cfgWr (usedOperand .w x)
  | j => j

theorem Instr.withOperand_used (i : Instr) (x : Half) :
    i.withOperand (usedOperand i.format x) = i.withOperand x := by
  have idem : ∀ f : Format, usedOperand f (usedOperand f x) = usedOperand f x :=
    fun f => usedOperand_of_fits (fits_usedOperand f x)
  cases i <;> simp only [Instr.withOperand, Instr.format, idem]

theorem Instr.withOperand_self {i : Instr} (h : i.wf = true) : i.withOperand i.operand = i := by
  have := usedOperand_of_fits h
  cases i <;> simp_all [Instr.withOperand, Instr.format, Instr.operand]

/-- A word with the code of a command decodes to that command on the bits of the operand that its format uses. -/
theorem decode_of_opcode {w : Cmd} {i : Instr} (h : opField w = i.opcode) :
    decode w = .instr (i.withOperand (operandField w)) := by
  unfold decode
  rw [h]
  cases i <;> rfl

/-- A word is its code and its operand (rule R80). -/
theorem fields_append (w : Cmd) : opField w ++ operandField w = w := by
  unfold opField operandField
  ext k hk
  simp only [BitVec.getElem_append]
  by_cases h : k < 16
  · simp [h, BitVec.getLsbD_eq_getElem hk]
  · simp [h, show 16 + (k - 16) = k by omega, BitVec.getLsbD_eq_getElem hk]

/-- What a word decodes to has the word's code, its used operand, and is canonical. -/
theorem decode_instr {w : Cmd} {i : Instr} (h : decode w = .instr i) :
    i.opcode = opField w ∧ i.operand = usedOperand i.format (operandField w) ∧ i.wf = true := by
  rcases decode_cases w with ⟨r, hr, ho, hd⟩ | ⟨-, hd⟩
  · rw [hd] at h
    obtain rfl := Decoded.instr.inj h
    simp only [opRows, List.cons_append, List.nil_append, List.mem_cons, List.not_mem_nil, or_false] at hr
    rcases hr with rfl | rfl | rfl | rfl | rfl | rfl | rfl | rfl | rfl | rfl | rfl | rfl | rfl | rfl | rfl | rfl |
      rfl | rfl | rfl | rfl | rfl | rfl <;>
    first
    | exact ⟨ho, rfl, fits_usedOperand .b _⟩
    | exact ⟨ho, rfl, fits_usedOperand .i _⟩
    | exact ⟨ho, rfl, fits_usedOperand .w _⟩
    | exact ⟨ho, rfl, rfl⟩
  · rw [hd] at h; exact absurd h (by simp)

end Sys2Proof
end

