-- ==== Sys2Proof/Laws/PerInstr.lean ====
section
/-! SUPPORT. Statements made of every command, one lemma per constructor. -/

namespace Sys2Proof.Laws

/-- The two fields of a command's word are its code and its operand (30_encoding.md rules R80, R81, R83), and the word
decodes to the command with the operand bits its format uses (rule R82). -/
def Fields.Statement (i : Instr) : Prop :=
  opField (encode i) = i.opcode ∧ operandField (encode i) = i.operand ∧
    decode (encode i) = .instr (i.withOperand i.operand)

theorem Fields.of (i : Instr) : Fields.Statement i :=
  ⟨opField_encode i, operandField_encode i, by rw [decode_of_opcode (opField_encode i), operandField_encode]⟩

theorem Fields.nop : Fields.Statement .nop := Fields.of _
theorem Fields.crcInit : Fields.Statement .crcInit := Fields.of _
theorem Fields.crcUpd (operand : Half) : Fields.Statement (.crcUpd operand) := Fields.of _
theorem Fields.crcRd : Fields.Statement .crcRd := Fields.of _
theorem Fields.lrcInit : Fields.Statement .lrcInit := Fields.of _
theorem Fields.lrcUpd (operand : Half) : Fields.Statement (.lrcUpd operand) := Fields.of _
theorem Fields.lrcRd : Fields.Statement .lrcRd := Fields.of _
theorem Fields.rtuClr : Fields.Statement .rtuClr := Fields.of _
theorem Fields.rtuPush (operand : Half) : Fields.Statement (.rtuPush operand) := Fields.of _
theorem Fields.rtuStat : Fields.Statement .rtuStat := Fields.of _
theorem Fields.rtuRdb (operand : Half) : Fields.Statement (.rtuRdb operand) := Fields.of _
theorem Fields.rtuLen : Fields.Statement .rtuLen := Fields.of _
theorem Fields.rtuCnt : Fields.Statement .rtuCnt := Fields.of _
theorem Fields.rtuCrc : Fields.Statement .rtuCrc := Fields.of _
theorem Fields.ascClr : Fields.Statement .ascClr := Fields.of _
theorem Fields.ascPush (operand : Half) : Fields.Statement (.ascPush operand) := Fields.of _
theorem Fields.ascStat : Fields.Statement .ascStat := Fields.of _
theorem Fields.ascRdb (operand : Half) : Fields.Statement (.ascRdb operand) := Fields.of _
theorem Fields.ascCnt : Fields.Statement .ascCnt := Fields.of _
theorem Fields.ascSum : Fields.Statement .ascSum := Fields.of _
theorem Fields.cfgWr (operand : Half) : Fields.Statement (.cfgWr operand) := Fields.of _
theorem Fields.cfgRd : Fields.Statement .cfgRd := Fields.of _

end Sys2Proof.Laws
end

