-- ==== Sys2Proof/Laws/Rtu.lean ====
section
/-! SUPPORT. What a push does to the RTU parser, one lemma per place in a frame (42_rtu_parser.md rules R158 to R166).
Callers cite these and do not unfold the push. -/

namespace Sys2Proof.Machine

variable {r : RtuParser} {dir : Dir} {b : Byte}

/-! ### The pieces -/

@[simp] theorem RtuParser.store_buf : (r.store dir b).buf = r.buf.write r.idx.toNat b := rfl

theorem RtuParser.store_of_ne (h : r.idx ≠ 0) : r.store dir b = { r with buf := r.buf.write r.idx.toNat b } := by
  simp only [RtuParser.store]
  rw [if_neg h]

/-- The byte at index 1 is not stored over by a push at another index. -/
theorem RtuParser.store_read {k : Nat} (hw : r.buf.wf = true) (h : k ≠ r.idx.toNat) :
    (r.store dir b).buf.read k = r.buf.read k :=
  Memory.read_write_other hw h b

/-- A push outside IDLE and RECV only sets the overrun flag (rule R159). -/
theorem RtuParser.push_dropped (h : r.state = .done ∨ r.state = .error) : r.push dir b = { r with ovr := true } := by
  rcases h with h | h <;> simp [RtuParser.push, h]

/-- A push in IDLE or RECV is accepted. -/
theorem RtuParser.push_accept (h : r.state = .idle ∨ r.state = .recv) : r.push dir b = r.accept dir b := by
  rcases h with h | h <;> simp [RtuParser.push, h]

/-- An accepted push of a byte that is not an unsupported function code. -/
theorem RtuParser.accept_advance (h : ¬(r.idx = 1 ∧ lenClass (r.store dir b).dir b = .unsupported)) :
    r.accept dir b = (r.store dir b).advance r.idx b := by
  simp only [RtuParser.accept]
  rw [if_neg h]

/-- An accepted push at another index than 1. -/
theorem RtuParser.accept_of_ne (h : r.idx ≠ 1) : r.accept dir b = (r.store dir b).advance r.idx b :=
  RtuParser.accept_advance fun h' => h h'.1

/-- `cfg.RTU_DIR` is looked at only when index 0 is accepted (rule R160). -/
theorem RtuParser.push_dir (h : r.idx ≠ 0) (d d' : Dir) : r.push d b = r.push d' b := by
  have e : r.store d b = r.store d' b := by rw [RtuParser.store_of_ne h, RtuParser.store_of_ne h]
  simp only [RtuParser.push, RtuParser.accept, e]

/-- A byte that settles no length is folded while it can still be no checksum byte (rule R164). -/
theorem RtuParser.advance_fold {q : RtuParser} {i : Idx} (hq : q.infer i b = q)
    (h : q.lenk = false ∨ i < q.len - 2) (h' : q.lenk = false ∨ i + 1 ≠ q.len) :
    q.advance i b = { q with crc := crcStep q.crc b, idx := i + 1, state := .recv } := by
  simp only [RtuParser.advance, hq, RtuParser.foldCrc, if_pos h, RtuParser.complete]
  rw [if_neg]
  rintro ⟨h1, h2⟩
  rcases h' with h' | h'
  · simp [h'] at h1
  · exact h' h2

/-- A checksum byte that is not the last is not folded (rule R164). -/
theorem RtuParser.advance_keep {q : RtuParser} {i : Idx} (hq : q.infer i b = q)
    (hk : q.lenk = true) (h : ¬ i < q.len - 2) (h' : i + 1 ≠ q.len) :
    q.advance i b = { q with idx := i + 1, state := .recv } := by
  have hf : q.foldCrc i b = q := by
    unfold RtuParser.foldCrc
    rw [if_neg (by rw [hk]; simpa using h)]
  simp only [RtuParser.advance, hq, hf, RtuParser.complete]
  rw [if_neg fun hc => h' hc.2]

/-- The last byte ends the frame (rule R166). -/
theorem RtuParser.advance_last {q : RtuParser} {i : Idx} (hq : q.infer i b = q)
    (hk : q.lenk = true) (h : ¬ i < q.len - 2) (h' : i + 1 = q.len) :
    q.advance i b =
      { q with idx := q.len, state := .done,
               crcok := q.buf.read (q.len - 2).toNat == crcLow q.crc && b == crcHigh q.crc } := by
  have hf : q.foldCrc i b = q := by
    unfold RtuParser.foldCrc
    rw [if_neg (by rw [hk]; simpa using h)]
  simp only [RtuParser.advance, hq, hf, RtuParser.complete, h']
  rw [if_pos ⟨hk, trivial⟩]
  rfl

/-! ### Index 0 -/

/-- The first byte of a frame: the direction is latched, the byte stored and folded (rule R160). -/
theorem RtuParser.push_first (hs : r.state = .idle ∨ r.state = .recv) (hi : r.idx = 0) (hk : r.lenk = false) :
    r.push dir b =
      { r with dir := dir, buf := r.buf.write 0 b, crc := crcStep r.crc b, idx := 1, state := .recv } := by
  rw [RtuParser.push_accept hs, RtuParser.accept_advance (by simp [hi])]
  simp [RtuParser.advance, RtuParser.infer, RtuParser.foldCrc, RtuParser.complete, RtuParser.store, hi, hk]

/-! ### Index 1 -/

/-- An unsupported function code: stored, and the parser stops (rules R162, R247). -/
theorem RtuParser.push_unsupported (hs : r.state = .idle ∨ r.state = .recv) (hi : r.idx = 1)
    (hc : lenClass r.dir b = .unsupported) :
    r.push dir b = { r with buf := r.buf.write 1 b, state := .error, err := 3, idx := 2 } := by
  rw [RtuParser.push_accept hs]
  simp [RtuParser.accept, RtuParser.store, RtuParser.raiseUnsupported, hi, hc]

/-- The function code of an exception response (rule R165). -/
theorem RtuParser.push_exception (hs : r.state = .idle ∨ r.state = .recv) (hi : r.idx = 1)
    (hc : lenClass r.dir b = .exc) :
    r.push dir b =
      { r with buf := r.buf.write 1 b, exc := true, len := 5, lenk := true, crc := crcStep r.crc b, idx := 2,
               state := .recv } := by
  rw [RtuParser.push_accept hs, RtuParser.accept_advance (by simp [RtuParser.store, hi, hc])]
  simp [RtuParser.advance, RtuParser.infer, RtuParser.inferAtCode, RtuParser.setLen, RtuParser.foldCrc,
    RtuParser.complete, RtuParser.store, hi, hc]

/-- A function code whose frame has the fixed length 8 (rules R97, R98). -/
theorem RtuParser.push_fixed (hs : r.state = .idle ∨ r.state = .recv) (hi : r.idx = 1)
    (hc : lenClass r.dir b = .wrRsp ∨ lenClass r.dir b = .fixReq) :
    r.push dir b =
      { r with buf := r.buf.write 1 b, len := 8, lenk := true, crc := crcStep r.crc b, idx := 2, state := .recv } := by
  rw [RtuParser.push_accept hs, RtuParser.accept_advance (by rcases hc with hc | hc <;> simp [RtuParser.store, hi, hc])]
  rcases hc with hc | hc <;>
    simp [RtuParser.advance, RtuParser.infer, RtuParser.inferAtCode, RtuParser.setLen, RtuParser.foldCrc,
      RtuParser.complete, RtuParser.store, hi, hc]

/-- A function code whose frame's length a later byte count settles (rules R97, R98). -/
theorem RtuParser.push_counted (hs : r.state = .idle ∨ r.state = .recv) (hi : r.idx = 1) (hk : r.lenk = false)
    (hc : lenClass r.dir b = .rdRsp ∨ lenClass r.dir b = .bulkReq) :
    r.push dir b =
      { r with buf := r.buf.write 1 b, crc := crcStep r.crc b, idx := 2, state := .recv } := by
  rw [RtuParser.push_accept hs, RtuParser.accept_advance (by rcases hc with hc | hc <;> simp [RtuParser.store, hi, hc])]
  rcases hc with hc | hc <;>
    simp [RtuParser.advance, RtuParser.infer, RtuParser.inferAtCode, RtuParser.foldCrc,
      RtuParser.complete, RtuParser.store, hi, hc, hk]

/-! ### Byte counts -/

/-- `5 + zext_9(b)` and `9 + zext_9(b)` do not overflow (rule R161). -/
theorem toNat_add_zext (n : Nat) (hn : n ≤ 9) (b : Byte) :
    (BitVec.ofNat 9 n + b.setWidth 9).toNat = n + b.toNat := by
  have := b.isLt
  simp [BitVec.toNat_add]
  omega

/-- The byte count of a read response, at index 2 (rule R161). -/
theorem RtuParser.push_readCount (hw : r.buf.wf = true) (hs : r.state = .idle ∨ r.state = .recv) (hi : r.idx = 2)
    (hc : lenClass r.dir (r.buf.read 1) = .rdRsp) :
    r.push dir b =
      { r with buf := r.buf.write 2 b, len := 5 + b.setWidth 9, lenk := true, crc := crcStep r.crc b, idx := 3,
               state := .recv } := by
  have held : (r.buf.write 2 b).read 1 = r.buf.read 1 := Memory.read_write_other hw (by decide) b
  have len := toNat_add_zext 5 (by decide) b
  have h1 : (2 : Idx) < 5 + b.setWidth 9 - 2 := by
    have := b.isLt; simp only [BitVec.lt_def, BitVec.toNat_sub]; simp at len ⊢; omega
  have h2 : (3 : Idx) ≠ 5 + b.setWidth 9 := by
    intro h; have := congrArg BitVec.toNat h; simp at len this; omega
  rw [RtuParser.push_accept hs, RtuParser.accept_advance (by simp [hi])]
  simp at h1 h2
  simp [RtuParser.advance, RtuParser.infer, RtuParser.setLen, RtuParser.foldCrc,
    RtuParser.complete, RtuParser.store, hi, hc, held, h1, h2]

/-- The byte count of a bulk-write request, at index 6 (rule R161). -/
theorem RtuParser.push_bulkCount (hw : r.buf.wf = true) (hs : r.state = .idle ∨ r.state = .recv) (hi : r.idx = 6)
    (hc : lenClass r.dir (r.buf.read 1) = .bulkReq) :
    r.push dir b =
      { r with buf := r.buf.write 6 b, len := 9 + b.setWidth 9, lenk := true, crc := crcStep r.crc b, idx := 7,
               state := .recv } := by
  have held : (r.buf.write 6 b).read 1 = r.buf.read 1 := Memory.read_write_other hw (by decide) b
  have len := toNat_add_zext 9 (by decide) b
  have h1 : (6 : Idx) < 9 + b.setWidth 9 - 2 := by
    have := b.isLt; simp only [BitVec.lt_def, BitVec.toNat_sub]; simp at len ⊢; omega
  have h2 : (7 : Idx) ≠ 9 + b.setWidth 9 := by
    intro h; have := congrArg BitVec.toNat h; simp at len this; omega
  rw [RtuParser.push_accept hs, RtuParser.accept_advance (by simp [hi])]
  simp at h1 h2
  simp [RtuParser.advance, RtuParser.infer, RtuParser.setLen, RtuParser.foldCrc,
    RtuParser.complete, RtuParser.store, hi, hc, held, h1, h2]

/-- A byte that settles no length: neither index 1, nor the byte count its class waits for. -/
def RtuParser.settlesNothing (r : RtuParser) : Prop :=
  r.idx ≠ 1 ∧ ¬(r.idx = 2 ∧ lenClass r.dir (r.buf.read 1) = .rdRsp) ∧
    ¬(r.idx = 6 ∧ lenClass r.dir (r.buf.read 1) = .bulkReq)

theorem RtuParser.infer_settlesNothing (hw : r.buf.wf = true) (h0 : r.idx ≠ 0) (h : r.settlesNothing) :
    (r.store dir b).infer r.idx b = r.store dir b := by
  obtain ⟨h1, h2, h6⟩ := h
  have held : (r.buf.write r.idx.toNat b).read 1 = r.buf.read 1 := by
    refine Memory.read_write_other hw ?_ b
    intro h; exact h1 (BitVec.eq_of_toNat_eq (by simpa using h.symm))
  rw [RtuParser.store_of_ne h0]
  simp only [RtuParser.infer, held]
  rw [if_neg h1, if_neg h2, if_neg h6]

/-- A byte of a bulk-write request before its byte count. -/
theorem RtuParser.push_waiting (hw : r.buf.wf = true) (hs : r.state = .idle ∨ r.state = .recv) (h0 : r.idx ≠ 0)
    (hn : r.settlesNothing) (hk : r.lenk = false) :
    r.push dir b =
      { r with buf := r.buf.write r.idx.toNat b, crc := crcStep r.crc b, idx := r.idx + 1, state := .recv } := by
  rw [RtuParser.push_accept hs, RtuParser.accept_of_ne hn.1]
  rw [RtuParser.advance_fold (RtuParser.infer_settlesNothing hw h0 hn) (.inl hk) (.inl hk), RtuParser.store_of_ne h0]

/-! ### The rest of a frame whose length is known -/

/-- A byte of the message frame (rule R164). -/
theorem RtuParser.push_body (hw : r.buf.wf = true) (hs : r.state = .idle ∨ r.state = .recv) (h0 : r.idx ≠ 0)
    (hn : r.settlesNothing) (hi : r.idx.toNat + 2 < r.len.toNat) :
    r.push dir b =
      { r with buf := r.buf.write r.idx.toNat b, crc := crcStep r.crc b, idx := r.idx + 1, state := .recv } := by
  have h1 : r.idx < r.len - 2 := by simp only [BitVec.lt_def, BitVec.toNat_sub]; simp; omega
  have h2 : r.idx + 1 ≠ r.len := by
    intro h; have := congrArg BitVec.toNat h; simp [BitVec.toNat_add] at this; omega
  rw [RtuParser.push_accept hs, RtuParser.accept_of_ne hn.1]
  rw [RtuParser.advance_fold (RtuParser.infer_settlesNothing hw h0 hn) (.inr h1) (.inr h2), RtuParser.store_of_ne h0]

/-- The first checksum byte: stored, not folded (rule R164). -/
theorem RtuParser.push_crcLow (hw : r.buf.wf = true) (hs : r.state = .idle ∨ r.state = .recv) (h0 : r.idx ≠ 0)
    (hn : r.settlesNothing) (hk : r.lenk = true) (hi : r.idx.toNat + 2 = r.len.toNat) :
    r.push dir b =
      { r with buf := r.buf.write r.idx.toNat b, idx := r.idx + 1, state := .recv } := by
  have h1 : ¬ r.idx < r.len - 2 := by simp only [BitVec.lt_def, BitVec.toNat_sub]; simp; omega
  have h2 : r.idx + 1 ≠ r.len := by
    intro h; have := congrArg BitVec.toNat h; simp [BitVec.toNat_add] at this; omega
  rw [RtuParser.push_accept hs, RtuParser.accept_of_ne hn.1]
  rw [RtuParser.advance_keep (RtuParser.infer_settlesNothing hw h0 hn) hk h1 h2, RtuParser.store_of_ne h0]

/-- The last byte: stored, not folded, and the frame is judged (rule R166). -/
theorem RtuParser.push_last (hw : r.buf.wf = true) (hs : r.state = .idle ∨ r.state = .recv) (h0 : r.idx ≠ 0)
    (hn : r.settlesNothing) (hk : r.lenk = true) (hi : r.idx.toNat + 1 = r.len.toNat) :
    r.push dir b =
      { r with buf := r.buf.write r.idx.toNat b, idx := r.len, state := .done,
               crcok := r.buf.read (r.len.toNat - 2) == crcLow r.crc && b == crcHigh r.crc } := by
  have hlt := r.len.isLt
  have pos : r.idx.toNat ≠ 0 := fun h => h0 (BitVec.eq_of_toNat_eq (by simpa using h))
  have h1 : ¬ r.idx < r.len - 2 := by simp only [BitVec.lt_def, BitVec.toNat_sub]; simp; omega
  have h2 : r.idx + 1 = r.len := by
    apply BitVec.eq_of_toNat_eq; simp [BitVec.toNat_add]; omega
  have h3 : (r.len - 2).toNat = r.len.toNat - 2 := by simp [BitVec.toNat_sub]; omega
  have h4 : (r.buf.write r.idx.toNat b).read (r.len.toNat - 2) = r.buf.read (r.len.toNat - 2) :=
    Memory.read_write_other hw (by omega) b
  rw [RtuParser.push_accept hs, RtuParser.accept_of_ne hn.1]
  rw [RtuParser.advance_last (RtuParser.infer_settlesNothing hw h0 hn) hk h1 h2, RtuParser.store_of_ne h0]
  simp only [h3, h4]

/-! ### The registers a push does not write (rules R27, R158) -/

theorem RtuParser.infer_frame {q : RtuParser} {i : Idx} :
    (q.infer i b).dir = q.dir ∧ (q.infer i b).buf = q.buf ∧ (q.infer i b).crc = q.crc ∧
      (q.infer i b).crcok = q.crcok ∧ (q.infer i b).err = q.err ∧ (q.infer i b).ovr = q.ovr := by
  unfold RtuParser.infer RtuParser.inferAtCode
  split_ifs
  · split <;> simp [RtuParser.setLen]
  all_goals simp [RtuParser.setLen]

/-- `r_exc` is written by a function code only. -/
theorem RtuParser.infer_exc {q : RtuParser} {i : Idx} (h : i ≠ 1) : (q.infer i b).exc = q.exc := by
  unfold RtuParser.infer
  rw [if_neg h]
  split_ifs <;> rfl

theorem RtuParser.foldCrc_frame {q : RtuParser} {i : Idx} : q.foldCrc i b = { q with crc := (q.foldCrc i b).crc } := by
  unfold RtuParser.foldCrc; split <;> rfl

theorem RtuParser.complete_frame {q : RtuParser} :
    q.complete b = { q with state := (q.complete b).state, crcok := (q.complete b).crcok } := by
  unfold RtuParser.complete; split <;> rfl

/-- A byte that does not end its frame leaves `r_crcok`. -/
theorem RtuParser.complete_crcok {q : RtuParser} (h : (q.complete b).state ≠ .done) : (q.complete b).crcok = q.crcok := by
  unfold RtuParser.complete at h ⊢; split_ifs at h ⊢ <;> simp_all

theorem RtuParser.advance_frame {q : RtuParser} {i : Idx} :
    (q.advance i b).dir = q.dir ∧ (q.advance i b).buf = q.buf ∧ (q.advance i b).err = q.err ∧
      (q.advance i b).ovr = q.ovr ∧ (q.advance i b).idx = i + 1 ∧ (i ≠ 1 → (q.advance i b).exc = q.exc) ∧
      ((q.advance i b).state ≠ .done → (q.advance i b).crcok = q.crcok) := by
  obtain ⟨h1, h2, -, h4, h5, h6⟩ := RtuParser.infer_frame (q := q) (i := i) (b := b)
  simp only [RtuParser.advance]
  rw [RtuParser.complete_frame, RtuParser.foldCrc_frame]
  refine ⟨h1, h2, h5, h6, rfl, fun h => RtuParser.infer_exc h, fun h => ?_⟩
  exact (RtuParser.complete_crcok h).trans h4

/-- What an accepted byte does whatever its place in the frame: it is stored at `r_idx`, which moves on by one. -/
theorem RtuParser.accept_frame :
    (r.accept dir b).dir = (if r.idx = 0 then dir else r.dir) ∧ (r.accept dir b).buf = r.buf.write r.idx.toNat b ∧
      (r.accept dir b).ovr = r.ovr ∧ (r.accept dir b).idx = r.idx + 1 ∧
      ((r.accept dir b).state ≠ .error → (r.accept dir b).err = r.err) ∧
      (r.idx ≠ 1 → (r.accept dir b).exc = r.exc ∧ (r.accept dir b).err = r.err) ∧
      ((r.accept dir b).state ≠ .done → (r.accept dir b).crcok = r.crcok) := by
  by_cases h : r.idx = 1 ∧ lenClass (r.store dir b).dir b = .unsupported
  · have e : r.accept dir b = (r.store dir b).raiseUnsupported := by
      simp only [RtuParser.accept]; rw [if_pos h]
    rw [e]
    refine ⟨rfl, rfl, rfl, ?_, fun hs => absurd rfl hs, fun h1 => absurd h.1 h1, fun _ => rfl⟩
    rw [h.1]; rfl
  · rw [RtuParser.accept_advance h]
    obtain ⟨h1, h2, h3, h4, h5, h6, h7⟩ := RtuParser.advance_frame (q := r.store dir b) (i := r.idx) (b := b)
    exact ⟨h1, h2, h4, h5, fun _ => h3, fun hi => ⟨h6 hi, h3⟩, h7⟩

end Sys2Proof.Machine
end

