-- ==== Sys2Proof/Laws/RtuInv.lean ====
section
/-! SUPPORT. Every operation on the RTU parser keeps its invariant (10_state.md rule R49). -/

namespace Sys2Proof.Machine

variable {r : RtuParser} {dir : Dir} {b : Byte}

/-! ### Where the invariant puts the parser -/

theorem toNat_ne_zero {i : Idx} (h : i ≠ 0) : i.toNat ≠ 0 :=
  fun h' => h (BitVec.eq_of_toNat_eq (by simpa using h'))

theorem one_le_decidingIndex (d : Dir) (fc : Byte) : 1 ≤ decidingIndex d fc := by
  unfold decidingIndex; split <;> decide

/-- Before index 2 no length is known. -/
theorem RtuParser.Inv.lenk_of_lt (h : r.Inv) (hi : r.idx.toNat < 2) : r.lenk = false := by
  by_contra hk
  have := (h.inferred (by simpa using hk)).2
  have := one_le_decidingIndex r.dir (r.buf.read 1)
  omega

/-- In IDLE every register is at its reset value. -/
theorem RtuParser.Inv.idle_eq (h : r.Inv) (hs : r.state = .idle) : r = r.clear := by
  have hi := h.idleIff.mp hs
  have hk := h.lenk_of_lt (by rw [hi]; decide)
  have hl := (h.unknown hk).1
  have he : r.exc = false := by
    by_contra hx
    have := (h.excHolds (by simpa using hx)).2
    rw [hl] at this; exact absurd this (by decide)
  have ho : r.crcok = false := by
    by_contra hx
    have := h.crcokDone (by simpa using hx)
    rw [hs] at this; exact absurd this (by decide)
  have hr : r.err = 0 := by
    by_contra hx
    have := h.errIff.mp hx
    rw [hs] at this; exact absurd this (by decide)
  have hv : r.ovr = false := by
    by_contra hx
    rcases h.ovrEnd (by simpa using hx) with h' | h' <;> (rw [hs] at h'; exact absurd h' (by decide))
  have hc : r.crc = Config.crcInit := by
    rw [h.crcCovers]; simp [RtuParser.folded, hk, hs, hi]
  have hd := h.idleDir hs
  cases r
  simp_all [RtuParser.clear, RtuParser.reset]

/-- The places of an unfinished frame of which at least one byte is held. -/
inductive RtuParser.Place (r : RtuParser) : Prop where
  /-- The function code comes next. -/
  | code (hi : r.idx = 1) (hk : r.lenk = false)
  /-- The byte count of a read response comes next. -/
  | readCount (hi : r.idx = 2) (hk : r.lenk = false) (hc : r.heldClass = .rdRsp)
  /-- A byte of a bulk-write request before its byte count comes next. -/
  | waiting (h2 : 2 ≤ r.idx.toNat) (h6 : r.idx.toNat < 6) (hk : r.lenk = false) (hc : r.heldClass = .bulkReq)
  /-- The byte count of a bulk-write request comes next. -/
  | bulkCount (hi : r.idx = 6) (hk : r.lenk = false) (hc : r.heldClass = .bulkReq)
  /-- The length is known and more bytes come. -/
  | counted (hk : r.lenk = true) (hi : r.idx.toNat < r.len.toNat)

theorem RtuParser.Inv.place (h : r.Inv) (hs : r.state = .recv) : r.Place := by
  have h0 : r.idx ≠ 0 := fun hi => by
    have := h.idleIff.mpr hi; rw [hs] at this; exact absurd this (by decide)
  have pos := toNat_ne_zero h0
  by_cases h1 : r.idx.toNat < 2
  · exact .code (BitVec.eq_of_toNat_eq (by simp; omega)) (h.lenk_of_lt h1)
  · cases hk : r.lenk with
    | false =>
      rcases h.waiting hs hk (by omega) with ⟨hc, hi⟩ | hc
      · exact .readCount hi hk hc
      · have := (h.unknown hk).2
        by_cases h6 : r.idx.toNat < 6
        · exact .waiting (by omega) h6 hk hc
        · exact .bulkCount (BitVec.eq_of_toNat_eq (by simp; omega)) hk hc
    | true =>
      refine .counted hk ?_
      have hle := (h.known hk).2.2
      rcases Nat.lt_or_eq_of_le hle with hlt | heq
      · exact hlt
      · have := h.doneIff.mpr ⟨hk, BitVec.eq_of_toNat_eq heq⟩
        rw [hs] at this; exact absurd this (by decide)

/-- Where the length is known, the next byte settles none. -/
theorem RtuParser.Inv.settlesNothing (h : r.Inv) (hk : r.lenk = true) : r.settlesNothing := by
  have hd := (h.inferred hk).2
  have h1 := one_le_decidingIndex r.dir (r.buf.read 1)
  refine ⟨fun hi => ?_, fun ⟨hi, hc⟩ => ?_, fun ⟨hi, hc⟩ => ?_⟩
  · rw [hi] at hd; simp at hd; omega
  · rw [hi] at hd; simp [decidingIndex, hc] at hd
  · rw [hi] at hd; simp [decidingIndex, hc] at hd

theorem settlesNothing_waiting (h2 : 2 ≤ r.idx.toNat) (h6 : r.idx.toNat < 6) (hc : r.heldClass = .bulkReq) :
    r.settlesNothing := by
  refine ⟨fun hi => ?_, fun ⟨hi, hc'⟩ => ?_, fun ⟨hi, hc'⟩ => ?_⟩
  · rw [hi] at h2; simp at h2
  · rw [RtuParser.heldClass] at hc; rw [hc] at hc'; exact absurd hc' (by decide)
  · rw [hi] at h6; simp at h6

/-! ### Reset and clear -/

/-- A cleared parser is good whatever its buffer holds (rule R157). -/
theorem RtuParser.inv_clear (hw : r.buf.wf = true) : r.clear.Inv where
  bufWf := hw
  idxBound := by simp [RtuParser.clear, RtuParser.reset]
  unknown _ := by simp [RtuParser.clear, RtuParser.reset]
  known h := by simp [RtuParser.clear, RtuParser.reset] at h
  idleIff := by simp [RtuParser.clear, RtuParser.reset]
  doneIff := by simp [RtuParser.clear, RtuParser.reset]
  errorHolds h := by simp [RtuParser.clear, RtuParser.reset] at h
  crcokDone h := by simp [RtuParser.clear, RtuParser.reset] at h
  excHolds h := by simp [RtuParser.clear, RtuParser.reset] at h
  errIff := by simp [RtuParser.clear, RtuParser.reset]
  ovrEnd h := by simp [RtuParser.clear, RtuParser.reset] at h
  crcCovers := by simp [RtuParser.clear, RtuParser.reset, RtuParser.folded]
  waiting h := by simp [RtuParser.clear, RtuParser.reset] at h
  errorClass h := by simp [RtuParser.clear, RtuParser.reset] at h
  inferred h := by simp [RtuParser.clear, RtuParser.reset] at h
  excIff h := by simp [RtuParser.clear, RtuParser.reset] at h
  idleDir _ := rfl
  crcokMeans h := by simp [RtuParser.clear, RtuParser.reset] at h

/-! ### The push -/

/-- A dropped push. -/
theorem RtuParser.Inv.push_dropped (h : r.Inv) (hs : r.state = .done ∨ r.state = .error) : (r.push dir b).Inv := by
  rw [RtuParser.push_dropped hs]
  exact { h with ovrEnd := fun _ => hs }

/-- The first byte. -/
theorem RtuParser.Inv.push_first (h : r.Inv) (hs : r.state = .idle) : (r.push dir b).Inv := by
  have hi := h.idleIff.mp hs
  have hk := h.lenk_of_lt (by rw [hi]; decide)
  rw [RtuParser.push_first (.inl hs) hi hk, h.idle_eq hs]
  simp only [RtuParser.clear, RtuParser.reset]
  constructor <;> simp [RtuParser.folded]
  · exact Memory.wf_write h.bufWf 0 b
  · have := Memory.bytes_write_at h.bufWf (n := 0) (by decide) b
    simp only [Nat.zero_add, Memory.bytes_zero, List.nil_append] at this
    rw [this]; rfl

theorem RtuParser.Inv.quiet (h : r.Inv) (hs : r.state = .recv) : r.crcok = false ∧ r.err = 0 ∧ r.ovr = false := by
  refine ⟨?_, ?_, ?_⟩
  · by_contra hx
    have := h.crcokDone (by simpa using hx)
    rw [hs] at this; exact absurd this (by decide)
  · by_contra hx
    have := h.errIff.mp hx
    rw [hs] at this; exact absurd this (by decide)
  · by_contra hx
    rcases h.ovrEnd (by simpa using hx) with h' | h' <;> (rw [hs] at h'; exact absurd h' (by decide))

theorem RtuParser.Inv.exc_of_lenk (h : r.Inv) (hk : r.lenk = false) : r.exc = false := by
  by_contra hx
  have := (h.excHolds (by simpa using hx)).2
  rw [(h.unknown hk).1] at this; exact absurd this (by decide)

/-- The function code. -/
theorem RtuParser.Inv.push_code (h : r.Inv) (hs : r.state = .recv) (hi : r.idx = 1) (hk : r.lenk = false) :
    (r.push dir b).Inv := by
  obtain ⟨hq, he, ho⟩ := h.quiet hs
  have hx := h.exc_of_lenk hk
  have hl := (h.unknown hk).1
  have w1 : (r.buf.write 1 b).wf = true := Memory.wf_write h.bufWf 1 b
  have r1 : (r.buf.write 1 b).read 1 = b := Memory.read_write_self h.bufWf (by decide) b
  have bs1 : (r.buf.write 1 b).bytes 1 = r.buf.bytes 1 := Memory.bytes_write_above h.bufWf (by decide) b
  have bs2 : (r.buf.write 1 b).bytes 2 = r.buf.bytes 1 ++ [b] := Memory.bytes_write_at h.bufWf (by decide) b
  have hc : r.crc = crc16 (r.buf.bytes 1) := by
    rw [h.crcCovers]; simp [RtuParser.folded, hk, hs, hi]
  have excDir : lenClass r.dir b = .exc → r.dir = .response := by
    cases hd : r.dir with
    | response => intro; rfl
    | request => simp only [lenClass, requestClass]; split_ifs <;> simp
  cases hcl : lenClass r.dir b with
  | unsupported =>
    rw [RtuParser.push_unsupported (.inr hs) hi hcl]
    constructor <;> simp [RtuParser.folded, RtuParser.heldClass, Config.bufBytes, *]
  | exc =>
    rw [RtuParser.push_exception (.inr hs) hi hcl]
    have hd := excDir hcl
    rw [hd] at hcl
    constructor <;> simp [RtuParser.folded, RtuParser.heldClass, RtuParser.heldLength, rtuLength, decidingIndex, Config.bufBytes,
      crc16_append_one, *]
  | wrRsp =>
    rw [RtuParser.push_fixed (.inr hs) hi (.inl hcl)]
    constructor <;> simp [RtuParser.folded, RtuParser.heldClass, RtuParser.heldLength, rtuLength, decidingIndex, Config.bufBytes,
      crc16_append_one, *]
  | fixReq =>
    rw [RtuParser.push_fixed (.inr hs) hi (.inr hcl)]
    constructor <;> simp [RtuParser.folded, RtuParser.heldClass, RtuParser.heldLength, rtuLength, decidingIndex, Config.bufBytes,
      crc16_append_one, *]
  | rdRsp =>
    rw [RtuParser.push_counted (.inr hs) hi hk (.inl hcl)]
    constructor <;> simp [RtuParser.folded, RtuParser.heldClass, RtuParser.heldLength, rtuLength, decidingIndex, Config.bufBytes,
      crc16_append_one, *]
  | bulkReq =>
    rw [RtuParser.push_counted (.inr hs) hi hk (.inr hcl)]
    constructor <;> simp [RtuParser.folded, RtuParser.heldClass, RtuParser.heldLength, rtuLength, decidingIndex, Config.bufBytes,
      crc16_append_one, *]

/-- What an accepted push at index 2 or above leaves of the bytes before it. -/
theorem RtuParser.Inv.kept (h : r.Inv) {k : Nat} (hk : k ≠ r.idx.toNat) :
    (r.buf.write r.idx.toNat b).read k = r.buf.read k := Memory.read_write_other h.bufWf hk b

/-- A byte count. -/
theorem RtuParser.Inv.push_readCount (h : r.Inv) (hs : r.state = .recv) (hi : r.idx = 2) (hk : r.lenk = false)
    (hc : r.heldClass = .rdRsp) : (r.push dir b).Inv := by
  obtain ⟨hq, he, ho⟩ := h.quiet hs
  have hx := h.exc_of_lenk hk
  have w2 : (r.buf.write 2 b).wf = true := Memory.wf_write h.bufWf 2 b
  have r1 : (r.buf.write 2 b).read 1 = r.buf.read 1 := Memory.read_write_other h.bufWf (by decide) b
  have r2 : (r.buf.write 2 b).read 2 = b := Memory.read_write_self h.bufWf (by decide) b
  have bs3 : (r.buf.write 2 b).bytes 3 = r.buf.bytes 2 ++ [b] := Memory.bytes_write_at h.bufWf (by decide) b
  have hcrc : r.crc = crc16 (r.buf.bytes 2) := by
    rw [h.crcCovers]; simp [RtuParser.folded, hk, hs, hi]
  have len := toNat_add_zext 5 (by decide) b
  have lt := b.isLt
  simp only [RtuParser.heldClass] at hc
  rw [RtuParser.push_readCount h.bufWf (.inr hs) hi hc]
  have hne : ¬ 3#9 = 5#9 + b.setWidth 9 := by
    intro h; have := congrArg BitVec.toNat h; simp at len this; omega
  have hmin : min 3 (5 + b.toNat - 2) = 3 := by omega
  have hmod : (5 + b.toNat) % 512 = 5 + b.toNat := Nat.mod_eq_of_lt (by omega)
  constructor <;> simp [RtuParser.folded, RtuParser.heldClass, RtuParser.heldLength, rtuLength, decidingIndex,
    Config.bufBytes, crc16_append_one, *]
  all_goals omega

theorem RtuParser.Inv.push_bulkCount (h : r.Inv) (hs : r.state = .recv) (hi : r.idx = 6) (hk : r.lenk = false)
    (hc : r.heldClass = .bulkReq) : (r.push dir b).Inv := by
  obtain ⟨hq, he, ho⟩ := h.quiet hs
  have hx := h.exc_of_lenk hk
  have w6 : (r.buf.write 6 b).wf = true := Memory.wf_write h.bufWf 6 b
  have r1 : (r.buf.write 6 b).read 1 = r.buf.read 1 := Memory.read_write_other h.bufWf (by decide) b
  have r6 : (r.buf.write 6 b).read 6 = b := Memory.read_write_self h.bufWf (by decide) b
  have bs7 : (r.buf.write 6 b).bytes 7 = r.buf.bytes 6 ++ [b] := Memory.bytes_write_at h.bufWf (by decide) b
  have hcrc : r.crc = crc16 (r.buf.bytes 6) := by
    rw [h.crcCovers]; simp [RtuParser.folded, hk, hs, hi]
  have len := toNat_add_zext 9 (by decide) b
  have lt := b.isLt
  simp only [RtuParser.heldClass] at hc
  rw [RtuParser.push_bulkCount h.bufWf (.inr hs) hi hc]
  have hne : ¬ 7#9 = 9#9 + b.setWidth 9 := by
    intro h; have := congrArg BitVec.toNat h; simp at len this; omega
  have hmin : min 7 (9 + b.toNat - 2) = 7 := by omega
  have hmod : (9 + b.toNat) % 512 = 9 + b.toNat := Nat.mod_eq_of_lt (by omega)
  constructor <;> simp [RtuParser.folded, RtuParser.heldClass, RtuParser.heldLength, rtuLength, decidingIndex,
    Config.bufBytes, crc16_append_one, *]
  all_goals omega

/-- The index after an accepted byte. -/
theorem toNat_succ {i : Idx} (h : i.toNat < 511) : (i + 1).toNat = i.toNat + 1 := by
  simp [BitVec.toNat_add]; omega

theorem ne_zero_of_toNat_pos {i : Idx} (h : 0 < i.toNat) : i ≠ 0 := by
  rintro rfl; simp at h

/-- A byte of a bulk-write request before its byte count. -/
theorem RtuParser.Inv.push_waiting (h : r.Inv) (hs : r.state = .recv) (h2 : 2 ≤ r.idx.toNat) (h6 : r.idx.toNat < 6)
    (hk : r.lenk = false) (hc : r.heldClass = .bulkReq) : (r.push dir b).Inv := by
  obtain ⟨hq, he, ho⟩ := h.quiet hs
  have hx := h.exc_of_lenk hk
  have hl := (h.unknown hk).1
  have h0 : r.idx ≠ 0 := ne_zero_of_toNat_pos (by omega)
  have hi := toNat_succ (i := r.idx) (by omega)
  have wf := Memory.wf_write h.bufWf r.idx.toNat b
  have r1 : (r.buf.write r.idx.toNat b).read 1 = r.buf.read 1 := h.kept (by omega)
  have bs : (r.buf.write r.idx.toNat b).bytes (r.idx.toNat + 1) = r.buf.bytes r.idx.toNat ++ [b] :=
    Memory.bytes_write_at h.bufWf (by simp only [Config.bufBytes]; omega) b
  have hcrc : r.crc = crc16 (r.buf.bytes r.idx.toNat) := by
    rw [h.crcCovers]; simp [RtuParser.folded, hk, hs]
  rw [RtuParser.push_waiting h.bufWf (.inr hs) h0 (settlesNothing_waiting h2 h6 hc) hk]
  simp only [RtuParser.heldClass] at hc
  generalize r.idx + 1 = j at hi ⊢
  have hj : j ≠ 0 := ne_zero_of_toNat_pos (by omega)
  constructor <;> simp only [RtuParser.heldClass, RtuParser.folded, Config.bufBytes, hi, r1, hk, hq, hx, he, ho, hl, hc]
  case bufWf => exact wf
  case idxBound => omega
  case unknown => intro; exact ⟨trivial, by omega⟩
  case idleIff => simpa using hj
  case crcCovers => simp [crc16_append_one, hcrc, bs]
  all_goals simp

/-- Once the length is known: a byte of the message frame, a checksum byte, and the byte that ends the frame. -/
theorem RtuParser.Inv.push_counted (h : r.Inv) (hs : r.state = .recv) (hk : r.lenk = true)
    (hlt : r.idx.toNat < r.len.toNat) : (r.push dir b).Inv := by
  obtain ⟨hq, he, ho⟩ := h.quiet hs
  obtain ⟨l5, l264, -⟩ := h.known hk
  obtain ⟨hlen, hd⟩ := h.inferred hk
  have hn := h.settlesNothing hk
  have d1 := one_le_decidingIndex r.dir (r.buf.read 1)
  have h0 : r.idx ≠ 0 := ne_zero_of_toNat_pos (by omega)
  have hi := toNat_succ (i := r.idx) (by simp only [Config.bufBytes] at l264; omega)
  have wf := Memory.wf_write h.bufWf r.idx.toNat b
  have r1 : (r.buf.write r.idx.toNat b).read 1 = r.buf.read 1 := h.kept (by omega)
  have bs : (r.buf.write r.idx.toNat b).bytes (r.idx.toNat + 1) = r.buf.bytes r.idx.toNat ++ [b] :=
    Memory.bytes_write_at h.bufWf (by omega) b
  have hexc := h.excIff (by omega)
  have hcrc := h.crcCovers
  have hheld : rtuLength r.dir (r.buf.read 1) ((r.buf.write r.idx.toNat b).read 2)
      ((r.buf.write r.idx.toNat b).read 6) = some r.len.toNat := by
    simp only [RtuParser.heldLength, rtuLength, decidingIndex] at hlen hd ⊢
    split at hlen <;> simp_all
    · rw [h.kept (by omega)]; exact hlen
    · rw [h.kept (by omega)]; exact hlen
  have hxh := h.excHolds
  simp only [RtuParser.folded, hk, if_true] at hcrc
  simp only [RtuParser.heldClass] at hexc
  have hln : r.len ≠ 0 := ne_zero_of_toNat_pos (by omega)
  rcases (by omega : r.idx.toNat + 2 < r.len.toNat ∨ r.idx.toNat + 2 = r.len.toNat ∨ r.idx.toNat + 1 = r.len.toNat)
    with c | c | c
  · rw [RtuParser.push_body h.bufWf (.inr hs) h0 hn c]
    rw [show min r.idx.toNat (r.len.toNat - 2) = r.idx.toNat by omega] at hcrc
    generalize r.idx + 1 = j at hi ⊢
    have hj : j ≠ 0 := ne_zero_of_toNat_pos (by omega)
    have hjl : j ≠ r.len := fun h' => by rw [h'] at hi; omega
    constructor <;> simp only [RtuParser.heldClass, RtuParser.heldLength, RtuParser.folded, hi, r1, hk, hq, he, ho, hheld]
    case bufWf => exact wf
    case idxBound => simp only [Config.bufBytes] at *; omega
    case known => intro; exact ⟨l5, l264, by omega⟩
    case idleIff => simpa using hj
    case doneIff => simpa using hjl
    case crcCovers =>
      rw [show min (r.idx.toNat + 1) (r.len.toNat - 2) = r.idx.toNat + 1 by omega]
      simp [crc16_append_one, hcrc, bs]
    case inferred => intro; exact ⟨trivial, by omega⟩
    case excIff => intro; exact hexc
    case excHolds => exact hxh
    all_goals simp
  · rw [RtuParser.push_crcLow h.bufWf (.inr hs) h0 hn hk c]
    rw [show min r.idx.toNat (r.len.toNat - 2) = r.idx.toNat by omega] at hcrc
    have bsame : (r.buf.write r.idx.toNat b).bytes r.idx.toNat = r.buf.bytes r.idx.toNat :=
      Memory.bytes_write_above h.bufWf (Nat.le_refl _) b
    generalize r.idx + 1 = j at hi ⊢
    have hj : j ≠ 0 := ne_zero_of_toNat_pos (by omega)
    have hjl : j ≠ r.len := fun h' => by rw [h'] at hi; omega
    constructor <;> simp only [RtuParser.heldClass, RtuParser.heldLength, RtuParser.folded, hi, r1, hk, hq, he, ho, hheld]
    case bufWf => exact wf
    case idxBound => simp only [Config.bufBytes] at *; omega
    case known => intro; exact ⟨l5, l264, by omega⟩
    case idleIff => simpa using hj
    case doneIff => simpa using hjl
    case crcCovers =>
      simp only [if_true]
      rw [show min (r.idx.toNat + 1) (r.len.toNat - 2) = r.idx.toNat by omega, bsame, hcrc]
    case inferred => intro; exact ⟨trivial, by omega⟩
    case excIff => intro; exact hexc
    case excHolds => exact hxh
    all_goals simp
  · rw [RtuParser.push_last h.bufWf (.inr hs) h0 hn hk c]
    have bsame : (r.buf.write r.idx.toNat b).bytes (r.len.toNat - 2) = r.buf.bytes (r.len.toNat - 2) :=
      Memory.bytes_write_above h.bufWf (by omega) b
    have keptLow : (r.buf.write r.idx.toNat b).read (r.len.toNat - 2) = r.buf.read (r.len.toNat - 2) :=
      h.kept (by omega)
    have last : (r.buf.write r.idx.toNat b).read (r.len.toNat - 1) = b := by
      rw [show r.len.toNat - 1 = r.idx.toNat by omega]
      exact Memory.read_write_self h.bufWf (by omega) b
    rw [show min r.idx.toNat (r.len.toNat - 2) = r.len.toNat - 2 by omega] at hcrc
    constructor <;> simp only [RtuParser.heldClass, RtuParser.heldLength, RtuParser.folded, r1, hk, he, ho, hheld]
    case bufWf => exact wf
    case idxBound => exact l264
    case known => intro; exact ⟨l5, l264, Nat.le_refl _⟩
    case idleIff => simpa using hln
    case crcCovers =>
      simp only [if_true]
      rw [show min r.len.toNat (r.len.toNat - 2) = r.len.toNat - 2 by omega, bsame, hcrc]
    case inferred => intro; exact ⟨trivial, by omega⟩
    case excIff => intro; exact hexc
    case excHolds => exact hxh
    case crcokMeans => simp [keptLow, last]
    all_goals simp

/-- Every push keeps the invariant (rule R49). -/
theorem RtuParser.Inv.push (h : r.Inv) (dir : Dir) (b : Byte) : (r.push dir b).Inv := by
  cases hs : r.state with
  | idle => exact h.push_first hs
  | done => exact h.push_dropped (.inl hs)
  | error => exact h.push_dropped (.inr hs)
  | recv =>
    cases h.place hs with
    | code hi hk => exact h.push_code hs hi hk
    | readCount hi hk hc => exact h.push_readCount hs hi hk hc
    | waiting h2 h6 hk hc => exact h.push_waiting hs h2 h6 hk hc
    | bulkCount hi hk hc => exact h.push_bulkCount hs hi hk hc
    | counted hk hi => exact h.push_counted hs hk hi

end Sys2Proof.Machine
end

