-- ==== Sys2Proof/Laws/State.lean ====
section
/-! SUPPORT. One lemma per field per update of State, all true by rfl. -/

namespace Sys2Proof.Machine

/-! ### `State.setCrc` -/

@[simp] theorem State.setCrc_crc (s : State) (c : Half) : (s.setCrc c).crc = c := rfl
@[simp] theorem State.setCrc_lsum (s : State) (c : Half) : (s.setCrc c).lsum = s.lsum := rfl
@[simp] theorem State.setCrc_cfg (s : State) (c : Half) : (s.setCrc c).cfg = s.cfg := rfl
@[simp] theorem State.setCrc_rtu (s : State) (c : Half) : (s.setCrc c).rtu = s.rtu := rfl
@[simp] theorem State.setCrc_asc (s : State) (c : Half) : (s.setCrc c).asc = s.asc := rfl
@[simp] theorem State.setCrc_rsp (s : State) (c : Half) : (s.setCrc c).rsp = s.rsp := rfl
@[simp] theorem State.setCrc_inputs (s : State) (c : Half) : (s.setCrc c).inputs = s.inputs := rfl

/-! ### `State.setLsum` -/

@[simp] theorem State.setLsum_crc (s : State) (v : Byte) : (s.setLsum v).crc = s.crc := rfl
@[simp] theorem State.setLsum_lsum (s : State) (v : Byte) : (s.setLsum v).lsum = v := rfl
@[simp] theorem State.setLsum_cfg (s : State) (v : Byte) : (s.setLsum v).cfg = s.cfg := rfl
@[simp] theorem State.setLsum_rtu (s : State) (v : Byte) : (s.setLsum v).rtu = s.rtu := rfl
@[simp] theorem State.setLsum_asc (s : State) (v : Byte) : (s.setLsum v).asc = s.asc := rfl
@[simp] theorem State.setLsum_rsp (s : State) (v : Byte) : (s.setLsum v).rsp = s.rsp := rfl
@[simp] theorem State.setLsum_inputs (s : State) (v : Byte) : (s.setLsum v).inputs = s.inputs := rfl

/-! ### `State.setCfg` -/

@[simp] theorem State.setCfg_crc (s : State) (v : BitVec 2) : (s.setCfg v).crc = s.crc := rfl
@[simp] theorem State.setCfg_lsum (s : State) (v : BitVec 2) : (s.setCfg v).lsum = s.lsum := rfl
@[simp] theorem State.setCfg_cfg (s : State) (v : BitVec 2) : (s.setCfg v).cfg = v := rfl
@[simp] theorem State.setCfg_rtu (s : State) (v : BitVec 2) : (s.setCfg v).rtu = s.rtu := rfl
@[simp] theorem State.setCfg_asc (s : State) (v : BitVec 2) : (s.setCfg v).asc = s.asc := rfl
@[simp] theorem State.setCfg_rsp (s : State) (v : BitVec 2) : (s.setCfg v).rsp = s.rsp := rfl
@[simp] theorem State.setCfg_inputs (s : State) (v : BitVec 2) : (s.setCfg v).inputs = s.inputs := rfl

/-! ### `State.setRtu` -/

@[simp] theorem State.setRtu_crc (s : State) (r : RtuParser) : (s.setRtu r).crc = s.crc := rfl
@[simp] theorem State.setRtu_lsum (s : State) (r : RtuParser) : (s.setRtu r).lsum = s.lsum := rfl
@[simp] theorem State.setRtu_cfg (s : State) (r : RtuParser) : (s.setRtu r).cfg = s.cfg := rfl
@[simp] theorem State.setRtu_rtu (s : State) (r : RtuParser) : (s.setRtu r).rtu = r := rfl
@[simp] theorem State.setRtu_asc (s : State) (r : RtuParser) : (s.setRtu r).asc = s.asc := rfl
@[simp] theorem State.setRtu_rsp (s : State) (r : RtuParser) : (s.setRtu r).rsp = s.rsp := rfl
@[simp] theorem State.setRtu_inputs (s : State) (r : RtuParser) : (s.setRtu r).inputs = s.inputs := rfl

/-! ### `State.setAsc` -/

@[simp] theorem State.setAsc_crc (s : State) (a : AscDetector) : (s.setAsc a).crc = s.crc := rfl
@[simp] theorem State.setAsc_lsum (s : State) (a : AscDetector) : (s.setAsc a).lsum = s.lsum := rfl
@[simp] theorem State.setAsc_cfg (s : State) (a : AscDetector) : (s.setAsc a).cfg = s.cfg := rfl
@[simp] theorem State.setAsc_rtu (s : State) (a : AscDetector) : (s.setAsc a).rtu = s.rtu := rfl
@[simp] theorem State.setAsc_asc (s : State) (a : AscDetector) : (s.setAsc a).asc = a := rfl
@[simp] theorem State.setAsc_rsp (s : State) (a : AscDetector) : (s.setAsc a).rsp = s.rsp := rfl
@[simp] theorem State.setAsc_inputs (s : State) (a : AscDetector) : (s.setAsc a).inputs = s.inputs := rfl

/-! ### `State.respond` -/

@[simp] theorem State.respond_crc (s : State) (v : Half) : (s.respond v).crc = s.crc := rfl
@[simp] theorem State.respond_lsum (s : State) (v : Half) : (s.respond v).lsum = s.lsum := rfl
@[simp] theorem State.respond_cfg (s : State) (v : Half) : (s.respond v).cfg = s.cfg := rfl
@[simp] theorem State.respond_rtu (s : State) (v : Half) : (s.respond v).rtu = s.rtu := rfl
@[simp] theorem State.respond_asc (s : State) (v : Half) : (s.respond v).asc = s.asc := rfl
@[simp] theorem State.respond_rsp (s : State) (v : Half) : (s.respond v).rsp = v := rfl
@[simp] theorem State.respond_inputs (s : State) (v : Half) : (s.respond v).inputs = s.inputs := rfl

/-! ### `State.setInputs` -/

@[simp] theorem State.setInputs_crc (s : State) (q : List PortSample) : (s.setInputs q).crc = s.crc := rfl
@[simp] theorem State.setInputs_lsum (s : State) (q : List PortSample) : (s.setInputs q).lsum = s.lsum := rfl
@[simp] theorem State.setInputs_cfg (s : State) (q : List PortSample) : (s.setInputs q).cfg = s.cfg := rfl
@[simp] theorem State.setInputs_rtu (s : State) (q : List PortSample) : (s.setInputs q).rtu = s.rtu := rfl
@[simp] theorem State.setInputs_asc (s : State) (q : List PortSample) : (s.setInputs q).asc = s.asc := rfl
@[simp] theorem State.setInputs_rsp (s : State) (q : List PortSample) : (s.setInputs q).rsp = s.rsp := rfl
@[simp] theorem State.setInputs_inputs (s : State) (q : List PortSample) : (s.setInputs q).inputs = q := rfl

/-! ### Configuration bits -/

@[simp] theorem State.respond_checkFrame (s : State) (v : Half) : (s.respond v).checkFrame = s.checkFrame := rfl
@[simp] theorem State.setRtu_checkFrame (s : State) (r : RtuParser) : (s.setRtu r).checkFrame = s.checkFrame := rfl
@[simp] theorem State.setAsc_checkFrame (s : State) (a : AscDetector) : (s.setAsc a).checkFrame = s.checkFrame := rfl
@[simp] theorem State.respond_rtuDir (s : State) (v : Half) : (s.respond v).rtuDir = s.rtuDir := rfl
@[simp] theorem State.setRtu_rtuDir (s : State) (r : RtuParser) : (s.setRtu r).rtuDir = s.rtuDir := rfl
@[simp] theorem State.setAsc_rtuDir (s : State) (a : AscDetector) : (s.setAsc a).rtuDir = s.rtuDir := rfl

/-! ### Events that are no command -/

@[simp] theorem State.idleEvent_eq (s : State) : s.idleEvent = s.respond 0 := rfl
@[simp] theorem State.reservedEvent_eq (s : State) : s.reservedEvent = s.respond 0 := rfl
@[simp] theorem State.resetEvent_rtu (s : State) : s.resetEvent.rtu = s.rtu.clear := rfl
@[simp] theorem State.resetEvent_asc (s : State) : s.resetEvent.asc = s.asc.clear := rfl
@[simp] theorem State.resetEvent_crc (s : State) : s.resetEvent.crc = Config.crcInit := rfl
@[simp] theorem State.resetEvent_lsum (s : State) : s.resetEvent.lsum = 0 := rfl
@[simp] theorem State.resetEvent_cfg (s : State) : s.resetEvent.cfg = 0b01 := rfl
@[simp] theorem State.resetEvent_rsp (s : State) : s.resetEvent.rsp = 0 := rfl
@[simp] theorem State.resetEvent_inputs (s : State) : s.resetEvent.inputs = s.inputs := rfl

end Sys2Proof.Machine
end

