-- ==== Sys2Proof/Laws/Step.lean ====
section
/-! SUPPORT. What a command does, register by register: one lemma per field of State, cited instead of unfolding
`exec`; and runs of commands as folds. -/

namespace Sys2Proof.Machine

/-! ### One command -/

/-- The state after a command. Every command has one (`exec_eq_after`). -/
def State.after (s : State) (i : Instr) : State :=
  match exec i s with
  | .next t => t
  | .fault _ => s
  | .refused _ => s

/-- Every command answers a next state (rule R289). -/
theorem exec_eq_after (i : Instr) (s : State) : exec i s = .next (s.after i) := by
  cases i <;> rfl

theorem exec_next_iff {i : Instr} {s t : State} : exec i s = .next t ↔ s.after i = t := by
  rw [exec_eq_after]; simp

/-- `crc` after a command (rules R23, R122, R123). -/
theorem State.after_crc (s : State) (i : Instr) :
    (s.after i).crc =
      match i with
      | .crcInit => Config.crcInit
      | .crcUpd x => crcStep s.crc (operandByte x)
      | _ => s.crc := by
  cases i <;> rfl

/-- `lsum` after a command (rules R23, R141, R142). -/
theorem State.after_lsum (s : State) (i : Instr) :
    (s.after i).lsum =
      match i with
      | .lrcInit => 0
      | .lrcUpd x => sumStep s.lsum (operandByte x)
      | _ => s.lsum := by
  cases i <;> rfl

/-- `cfg` after a command (rules R23, R231). -/
theorem State.after_cfg (s : State) (i : Instr) :
    (s.after i).cfg =
      match i with
      | .cfgWr x => operandCfg x
      | _ => s.cfg := by
  cases i <;> rfl

/-- The RTU parser after a command (rules R23, R157, R158). -/
theorem State.after_rtu (s : State) (i : Instr) :
    (s.after i).rtu =
      match i with
      | .rtuClr => s.rtu.clear
      | .rtuPush x => s.rtu.push s.rtuDir (operandByte x)
      | _ => s.rtu := by
  cases i <;> rfl

/-- The ASCII detector after a command (rules R23, R192, R193). -/
theorem State.after_asc (s : State) (i : Instr) :
    (s.after i).asc =
      match i with
      | .ascClr => s.asc.clear
      | .ascPush x => s.asc.push (operandByte x)
      | _ => s.asc := by
  cases i <;> rfl

/-- A command takes no sample of the ports. -/
@[simp] theorem State.after_inputs (s : State) (i : Instr) : (s.after i).inputs = s.inputs := by
  cases i <;> rfl

/-- The response of a command (rules R23, R84). -/
theorem State.after_rsp (s : State) (i : Instr) :
    (s.after i).rsp =
      match i with
      | .crcRd => s.crc
      | .lrcRd => (negSum s.lsum).setWidth 16
      | .rtuStat => s.rtu.stat s.checkFrame
      | .rtuRdb x => (readBelow s.rtu.buf s.rtu.idx (operandIndex x)).setWidth 16
      | .rtuLen => s.rtu.lenWord
      | .rtuCnt => s.rtu.idx.setWidth 16
      | .rtuCrc => s.rtu.crc
      | .ascStat => s.asc.stat s.checkFrame
      | .ascRdb x => (readBelow s.asc.buf s.asc.cnt (operandIndex x)).setWidth 16
      | .ascCnt => s.asc.cnt.setWidth 16
      | .ascSum => s.asc.sum.setWidth 16
      | .cfgRd => s.cfg.setWidth 16
      | _ => 0 := by
  cases i <;> rfl

/-- `RTU.PUSH` by what it does to the parser. -/
theorem exec_rtuPush_of {s : State} {x : Half} {r : RtuParser} (h : s.rtu.push s.rtuDir (operandByte x) = r) :
    exec (.rtuPush x) s = .next { s with rtu := r, rsp := 0 } := by
  subst h; rfl

/-- `ASC.PUSH` by what it does to the detector. -/
theorem exec_ascPush_of {s : State} {x : Half} {a : AscDetector} (h : s.asc.push (operandByte x) = a) :
    exec (.ascPush x) s = .next { s with asc := a, rsp := 0 } := by
  subst h; rfl

/-! ### What a unit's register depends on (rule R23) -/

theorem State.after_crc_other (s : State) {i : Instr} (h : i.unit ≠ .crc) : (s.after i).crc = s.crc := by
  rw [State.after_crc]; cases i <;> first | rfl | exact absurd rfl h

theorem State.after_lsum_other (s : State) {i : Instr} (h : i.unit ≠ .lrc) : (s.after i).lsum = s.lsum := by
  rw [State.after_lsum]; cases i <;> first | rfl | exact absurd rfl h

theorem State.after_cfg_other (s : State) {i : Instr} (h : i.unit ≠ .cfg) : (s.after i).cfg = s.cfg := by
  rw [State.after_cfg]; cases i <;> first | rfl | exact absurd rfl h

theorem State.after_rtu_other (s : State) {i : Instr} (h : i.unit ≠ .rtu) : (s.after i).rtu = s.rtu := by
  rw [State.after_rtu]; cases i <;> first | rfl | exact absurd rfl h

theorem State.after_asc_other (s : State) {i : Instr} (h : i.unit ≠ .asc) : (s.after i).asc = s.asc := by
  rw [State.after_asc]; cases i <;> first | rfl | exact absurd rfl h

theorem State.after_crc_congr {s t : State} (i : Instr) (h : s.crc = t.crc) : (s.after i).crc = (t.after i).crc := by
  rw [State.after_crc, State.after_crc, h]

theorem State.after_lsum_congr {s t : State} (i : Instr) (h : s.lsum = t.lsum) :
    (s.after i).lsum = (t.after i).lsum := by
  rw [State.after_lsum, State.after_lsum, h]

theorem State.after_cfg_congr {s t : State} (i : Instr) (h : s.cfg = t.cfg) : (s.after i).cfg = (t.after i).cfg := by
  rw [State.after_cfg, State.after_cfg, h]

theorem State.after_asc_congr {s t : State} (i : Instr) (h : s.asc = t.asc) : (s.after i).asc = (t.after i).asc := by
  rw [State.after_asc, State.after_asc, h]

theorem State.after_rtu_congr {s t : State} (i : Instr) (h : s.rtu = t.rtu) (hd : s.rtuDir = t.rtuDir) :
    (s.after i).rtu = (t.after i).rtu := by
  rw [State.after_rtu, State.after_rtu, h, hd]

/-- Two states that agree field by field are equal. -/
theorem State.ext_fields {s t : State} (h1 : s.crc = t.crc) (h2 : s.lsum = t.lsum) (h3 : s.cfg = t.cfg)
    (h4 : s.rtu = t.rtu) (h5 : s.asc = t.asc) (h6 : s.rsp = t.rsp) (h7 : s.inputs = t.inputs) : s = t := by
  cases s; cases t; simp_all

/-! ### One step -/

theorem step_nil {s : State} (h : s.inputs = []) : step s = .next (s.respond 0) := by
  simp [step, h]

theorem step_cons {s : State} {p : PortSample} {rest : List PortSample} (h : s.inputs = p :: rest) :
    step s = clkEvent p (s.setInputs rest) := by
  simp [step, h]

/-- A step with `rst = 1` (rules R44, R275). -/
theorem step_reset {s : State} {v : Bool} {w : Cmd} {rest : List PortSample}
    (h : s.inputs = { rst := true, cmdValid := v, cmd := w } :: rest) :
    step s = .next (s.setInputs rest).resetEvent := by
  rw [step_cons h]; rfl

/-- A step with a valid command applies it (rule R44). -/
theorem step_command {s : State} {w : Cmd} {rest : List PortSample}
    (h : s.inputs = { rst := false, cmdValid := true, cmd := w } :: rest) :
    step s = applyCommand w (s.setInputs rest) := by
  rw [step_cons h]; rfl

/-- A step without a command (rule R44). -/
theorem step_idle {s : State} {w : Cmd} {rest : List PortSample}
    (h : s.inputs = { rst := false, cmdValid := false, cmd := w } :: rest) :
    step s = .next ((s.setInputs rest).respond 0) := by
  rw [step_cons h]; rfl

theorem applyCommand_instr {w : Cmd} {i : Instr} (h : decode w = .instr i) (s : State) :
    applyCommand w s = exec i s := by
  simp [applyCommand, h]

theorem applyCommand_reserved {w : Cmd} {op : Byte} (h : decode w = .reserved op) (s : State) :
    applyCommand w s = .next (s.respond 0) := by
  simp [applyCommand, h]

/-- All that a step can do: reset, apply one command, or leave everything but the response and the ports. -/
theorem step_cases (s : State) :
    step s = .next (s.setInputs s.inputs.tail).resetEvent ∨
    (∃ i, step s = .next ((s.setInputs s.inputs.tail).after i)) ∨
    step s = .next ((s.setInputs s.inputs.tail).respond 0) := by
  cases hq : s.inputs with
  | nil =>
    refine .inr (.inr ?_)
    rw [step_nil hq]
    simp only [List.tail, ← hq]
    rfl
  | cons p rest =>
    obtain ⟨r, v, w⟩ := p
    simp only [List.tail]
    cases r with
    | true => exact .inl (step_reset hq)
    | false =>
      cases v with
      | false => exact .inr (.inr (step_idle hq))
      | true =>
        rw [step_command hq]
        cases hd : decode w with
        | instr i => exact .inr (.inl ⟨i, by rw [applyCommand_instr hd, exec_eq_after]⟩)
        | reserved op => exact .inr (.inr (applyCommand_reserved hd _))

/-! ### Runs of commands (rule R10) -/

/-- A run of commands always completes. -/
theorem execAll_eq_foldl (cs : List Instr) (s : State) : execAll cs s = .next (cs.foldl State.after s) := by
  induction cs generalizing s with
  | nil => rfl
  | cons i rest ih => simp only [execAll, exec_eq_after, List.foldl_cons, ih]

/-- `crc` is moved by the updates alone (rule R126). -/
theorem foldl_after_crc {cs : List Instr} (h : .crcInit ∉ cs) (s : State) :
    (cs.foldl State.after s).crc = (crcBytes cs).foldl crcStep s.crc := by
  induction cs generalizing s with
  | nil => rfl
  | cons i rest ih =>
    rw [List.mem_cons, not_or] at h
    rw [List.foldl_cons, ih h.2, State.after_crc]
    cases i <;> simp_all [crcBytes]

/-- `lsum` is moved by the updates alone (rule R145). -/
theorem foldl_after_lsum {cs : List Instr} (h : .lrcInit ∉ cs) (s : State) :
    (cs.foldl State.after s).lsum = (lrcBytes cs).foldl sumStep s.lsum := by
  induction cs generalizing s with
  | nil => rfl
  | cons i rest ih =>
    rw [List.mem_cons, not_or] at h
    rw [List.foldl_cons, ih h.2, State.after_lsum]
    cases i <;> simp_all [lrcBytes]

/-- The ASCII detector is moved by the pushes alone (rule R204). -/
theorem foldl_after_asc {cs : List Instr} (h : .ascClr ∉ cs) (s : State) :
    (cs.foldl State.after s).asc = (ascBytes cs).foldl AscDetector.push s.asc := by
  induction cs generalizing s with
  | nil => rfl
  | cons i rest ih =>
    rw [List.mem_cons, not_or] at h
    rw [List.foldl_cons, ih h.2, State.after_asc]
    cases i <;> simp_all [ascBytes]

theorem foldl_after_inputs (cs : List Instr) (s : State) : (cs.foldl State.after s).inputs = s.inputs := by
  induction cs generalizing s with
  | nil => rfl
  | cons i rest ih => rw [List.foldl_cons, ih, State.after_inputs]

/-- Commands that do not address `cfg` leave it. -/
theorem foldl_after_cfg {cs : List Instr} (h : ∀ i ∈ cs, i.unit ≠ .cfg) (s : State) :
    (cs.foldl State.after s).cfg = s.cfg := by
  induction cs generalizing s with
  | nil => rfl
  | cons i rest ih =>
    rw [List.foldl_cons, ih (fun j hj => h j (List.mem_cons_of_mem _ hj)), State.after_cfg_other _ (h i (by simp))]

@[simp] theorem operandByte_byteOperand (b : Byte) : operandByte (byteOperand b) = b := by
  simp [operandByte, byteOperand]

theorem rtuBytes_pushes (m : List Byte) : rtuBytes (m.map fun b => .rtuPush (byteOperand b)) = m := by
  induction m with
  | nil => rfl
  | cons b m ih => simp only [List.map_cons, rtuBytes, ih, operandByte_byteOperand]

theorem ascBytes_pushes (m : List Byte) : ascBytes (m.map fun b => .ascPush (byteOperand b)) = m := by
  induction m with
  | nil => rfl
  | cons b m ih => simp only [List.map_cons, ascBytes, ih, operandByte_byteOperand]

theorem lrcBytes_updates (m : List Byte) : lrcBytes (m.map fun b => .lrcUpd (byteOperand b)) = m := by
  induction m with
  | nil => rfl
  | cons b m ih => simp only [List.map_cons, lrcBytes, ih, operandByte_byteOperand]

/-- `RTU.FRAME` (rule R88): clear, the pushes, the status read. -/
theorem foldl_rtuFrame (m : List Byte) (s : State) :
    (rtuFrame m).foldl State.after s =
      ((m.map fun b => Instr.rtuPush (byteOperand b)).foldl State.after (s.after .rtuClr)).after .rtuStat := by
  rw [rtuFrame, List.cons_append, List.foldl_cons, List.foldl_append, List.foldl_cons, List.foldl_nil]

/-- `ASC.FRAME` (rule R88): clear, the pushes, the status read. -/
theorem foldl_ascFrame (m : List Byte) (s : State) :
    (ascFrame m).foldl State.after s =
      ((m.map fun b => Instr.ascPush (byteOperand b)).foldl State.after (s.after .ascClr)).after .ascStat := by
  rw [ascFrame, List.cons_append, List.foldl_cons, List.foldl_append, List.foldl_cons, List.foldl_nil]

/-- The direction that `cfg` selects (rule R40). -/
theorem State.rtuDir_eq (s : State) : s.rtuDir = if s.cfg.getLsbD 1 then .request else .response := by
  unfold State.rtuDir; cases s.cfg.getLsbD 1 <;> rfl

/-! ### Codes of commands (rules R81 to R83) -/

/-- What the code of a command says of every word that has it. -/
theorem codedAs_of_opcode {i : Instr} {op width : Nat} {build : Half → Instr} (ho : i.opcode.toNat = op)
    (hb : ∀ x, i.withOperand x = build (BitVec.ofNat 16 (x.toNat % 2 ^ width))) (hw : width ≤ 16) :
    codedAs op width build := by
  intro w h
  have e := decode_of_opcode (w := w) (i := i) (BitVec.eq_of_toNat_eq (by rw [toNat_opField, h, ho]))
  rw [e, hb, toNat_operandField, Nat.mod_mod_of_dvd _ (Nat.pow_dvd_pow 2 hw)]

end Sys2Proof.Machine
end

