-- ==== Sys2Proof/Laws/RtuStream.lean ====
section
/-! SUPPORT. The RTU parser over a stream of bytes (42_rtu_parser.md rule R168): what it holds after any bytes, and
what follows for an unsupported code, a part of a frame, and a whole frame. -/

namespace Sys2Proof.Machine

/-! ### Accepting a byte -/

theorem RtuParser.accepting_iff {r : RtuParser} : r.accepting = true ↔ r.state = .idle ∨ r.state = .recv := by
  simp [RtuParser.accepting]

theorem RtuParser.push_eq_accept {r : RtuParser} {d : Dir} {b : Byte} (h : r.accepting = true) : r.push d b = r.accept d b :=
  RtuParser.push_accept (RtuParser.accepting_iff.mp h)

/-- An accepted byte always has a place in `RBUF` (rule R163). -/
theorem RtuParser.Inv.idx_lt {r : RtuParser} (h : r.Inv) (ha : r.accepting = true) : r.idx.toNat < 264 := by
  rcases RtuParser.accepting_iff.mp ha with hs | hs
  · rw [h.idleIff.mp hs]; decide
  · rcases h.place hs with ⟨hi, -⟩ | ⟨hi, -, -⟩ | ⟨-, h6, -, -⟩ | ⟨hi, -, -⟩ | ⟨hk, hi⟩
    · rw [hi]; decide
    · rw [hi]; decide
    · omega
    · rw [hi]; decide
    · have := (h.known hk).2.1; simp [Config.bufBytes] at this; omega

theorem RtuParser.not_accepting {r : RtuParser} (ha : ¬ r.accepting = true) :
    r.state = .done ∨ r.state = .error := by
  cases hs : r.state <;> simp_all [RtuParser.accepting]

/-! ### After any bytes -/

/-- A parser that was cleared has been given the bytes `v`, the first of them in direction `d`: it holds a prefix of
them, and where it holds fewer than it was given, it has ended and flagged the overrun. -/
structure Fed (d : Dir) (r : RtuParser) (v : List Byte) : Prop where
  inv : r.Inv
  dir : v ≠ [] → r.dir = d
  le : r.idx.toNat ≤ v.length
  buf : r.buf.bytes r.idx.toNat = v.take r.idx.toNat
  ovr : r.ovr = true ↔ r.idx.toNat < v.length
  stop : r.idx.toNat < v.length → r.state = .done ∨ r.state = .error

/-- One more byte. -/
theorem Fed.push {d : Dir} {r : RtuParser} {v : List Byte} (h : Fed d r v) (b : Byte) (d' : Dir)
    (hd : v = [] → d' = d) : Fed d (r.push d' b) (v ++ [b]) := by
  by_cases ha : r.accepting = true
  · have hlt := RtuParser.Inv.idx_lt h.inv ha
    have heq : r.idx.toNat = v.length := by
      by_contra hne
      have := h.stop (by have := h.le; omega)
      rcases RtuParser.accepting_iff.mp ha with hs | hs <;> rw [hs] at this <;> simp at this
    obtain ⟨h1, h2, h3, h4, -, -, -⟩ := RtuParser.accept_frame (r := r) (dir := d') (b := b)
    have h4' : (r.accept d' b).idx.toNat = r.idx.toNat + 1 := by rw [h4]; exact toNat_succ (by omega)
    have hb := h.buf
    constructor
    · exact h.inv.push _ _
    all_goals rw [RtuParser.push_eq_accept ha]
    · intro _
      rw [h1]; split_ifs with h0
      · apply hd; apply List.eq_nil_of_length_eq_zero; rw [← heq, h0]; rfl
      · apply h.dir; rintro rfl; apply h0; exact BitVec.eq_of_toNat_eq heq
    · rw [h4']; simp [heq]
    · rw [h4', h2, Memory.bytes_write_at h.inv.bufWf hlt, hb, heq]; simp
    · rw [h3, h.ovr, h4']; simp; try omega
    · rw [h4']; simp; try omega
  · have hn := RtuParser.not_accepting ha
    have e := RtuParser.push_dropped (dir := d') (b := b) hn
    constructor
    · exact h.inv.push _ _
    all_goals rw [e]
    · intro _; apply h.dir; rintro rfl
      have := h.le
      have : r.idx = 0 := BitVec.eq_of_toNat_eq (by simpa using this)
      have := h.inv.idleIff.mpr this
      rcases hn with hn | hn <;> rw [this] at hn <;> cases hn
    · have := h.le; simp; omega
    · simp only; rw [h.buf, List.take_append_of_le_length h.le]
    · have := h.le; simp; omega
    · intro _; exact hn

/-- No byte yet. -/
theorem Fed.start {r : RtuParser} (h : r.Inv) (hs : r.state = .idle) (d : Dir) : Fed d r [] where
  inv := h
  dir h := absurd rfl h
  le := by rw [h.idleIff.mp hs]; rfl
  buf := by rw [h.idleIff.mp hs]; rfl
  ovr := by 
    have : r.ovr = false := by
      by_contra hx
      rcases h.ovrEnd (by simpa using hx) with h' | h' <;> rw [hs] at h' <;> cases h'
    simp [this]
  stop h' := absurd h' (by simp)

/-- Commands after the first byte: only the pushes among them matter. -/
theorem Fed.run {d : Dir} {cs : List Instr} :
    ∀ {s : State} {v : List Byte}, Fed d s.rtu v → v ≠ [] → .rtuClr ∉ cs →
      Fed d (cs.foldl State.after s).rtu (v ++ rtuBytes cs) := by
  induction cs with
  | nil => intro s v h hv _; simpa [rtuBytes] using h
  | cons i rest ih =>
    intro s v h hv hc
    rw [List.mem_cons, not_or] at hc
    rw [List.foldl_cons]
    by_cases hi : ∃ x, i = .rtuPush x
    · obtain ⟨x, rfl⟩ := hi
      have := ih (s := s.after (.rtuPush x)) (v := v ++ [operandByte x])
        (by rw [State.after_rtu]; exact h.push _ _ (fun e => absurd e hv)) (by simp) hc.2
      simpa [rtuBytes] using this
    · have e : (s.after i).rtu = s.rtu := by rw [State.after_rtu]; cases i <;> simp_all
      have := ih (s := s.after i) (v := v) (by rw [e]; exact h) hv hc.2
      have e2 : rtuBytes (i :: rest) = rtuBytes rest := by cases i <;> first | rfl | simp at hi
      rwa [e2]

theorem getD_take_of_lt {l : List Byte} {k n : Nat} (h : k < n) : (l.take n).getD k 0 = l.getD k 0 := by
  simp [List.getD, h]

/-- A byte the parser holds is the byte it was given. -/
theorem Fed.read {d : Dir} {r : RtuParser} {v : List Byte} (h : Fed d r v) {k : Nat} (hk : k < r.idx.toNat) : r.buf.read k = v.getD k 0 := by
  rw [Memory.read_of_bytes h.buf hk, getD_take_of_lt hk]

/-! ### The length function (rule R100) -/

/-- The length depends on the function code and the bytes up to the one that settles it. -/
theorem rtuLength_congr {d : Dir} {v w : List Byte} (h1 : v.getD 1 0 = w.getD 1 0)
    (hv : ∀ k, k ≤ decidingIndex d (v.getD 1 0) → v.getD k 0 = w.getD k 0) :
    rtuLength d (v.getD 1 0) (v.getD 2 0) (v.getD 6 0) = rtuLength d (w.getD 1 0) (w.getD 2 0) (w.getD 6 0) := by
  unfold rtuLength
  rw [← h1]
  unfold decidingIndex at hv
  cases hc : lenClass d (v.getD 1 0) <;> simp only [hc] at hv ⊢
  · rw [hv 2 (by omega)]
  · rw [hv 6 (by omega)]

theorem rtuLength_eq_none {d : Dir} {fc a b : Byte} : rtuLength d fc a b = none ↔ lenClass d fc = .unsupported := by
  unfold rtuLength; cases lenClass d fc <;> simp

/-- The lengths that occur (rule R163). -/
theorem rtuLength_bounds {d : Dir} {fc a b : Byte} {n : Nat} (h : rtuLength d fc a b = some n) :
    5 ≤ n ∧ (lenClass d fc = .bulkReq → 9 ≤ n) ∧ decidingIndex d fc < n ∧ n ≤ 264 := by
  unfold rtuLength at h
  unfold decidingIndex
  have := a.isLt
  have := b.isLt
  cases hc : lenClass d fc <;> rw [hc] at h <;> simp at h ⊢ <;> omega

/-! ### What the parser has made of the bytes -/

/-- A known length is the length the bytes give. -/
theorem Fed.length_known {d : Dir} {r : RtuParser} {v : List Byte} (h : Fed d r v) (hk : r.lenk = true) :
    rtuLength d (v.getD 1 0) (v.getD 2 0) (v.getD 6 0) = some r.len.toNat ∧ 2 ≤ v.length ∧
      decidingIndex d (v.getD 1 0) < r.idx.toNat := by
  obtain ⟨h1, h2⟩ := h.inv.inferred hk
  have o := one_le_decidingIndex r.dir (r.buf.read 1)
  have hv : v ≠ [] := by rintro rfl; have := h.le; simp only [List.length_nil] at this; omega
  have hd := h.dir hv
  have r1 := h.read (k := 1) (by omega)
  rw [r1, hd] at h2
  have o2 := one_le_decidingIndex d (v.getD 1 0)
  refine ⟨?_, by have := h.le; omega, h2⟩
  rw [← h1, RtuParser.heldLength, hd, r1]
  unfold rtuLength
  unfold decidingIndex at h2
  cases hc : lenClass d (v.getD 1 0) <;> simp only [hc] at h2 ⊢
  · rw [h.read h2]
  · rw [h.read h2]

theorem Fed.heldClass {d : Dir} {r : RtuParser} {v : List Byte} (h : Fed d r v) (h2 : 2 ≤ r.idx.toNat) :
    r.heldClass = lenClass d (v.getD 1 0) := by
  have hv : v ≠ [] := by rintro rfl; have := h.le; simp at this; omega
  rw [RtuParser.heldClass, h.dir hv, h.read (by omega)]

/-- Bytes with an unsupported function code. -/
theorem Fed.unsupported {d : Dir} {r : RtuParser} {v : List Byte} (h : Fed d r v) (hl : 2 ≤ v.length)
    (hn : rtuLength d (v.getD 1 0) (v.getD 2 0) (v.getD 6 0) = none) :
    r.state = .error ∧ r.idx = 2 ∧ r.err = 3 ∧ r.crc = crc16 [v.getD 0 0] ∧ (r.ovr = true ↔ 2 < v.length) := by
  have hnk : r.lenk = false := by
    by_contra hk
    have := (Fed.length_known h (by simpa using hk)).1
    rw [hn] at this; cases this
  have hs : r.state = .error := by
    cases hs : r.state with
    | error => rfl
    | done => have := (h.inv.doneIff.mp hs).1; rw [hnk] at this; cases this
    | idle => 
      have hi := h.inv.idleIff.mp hs
      have := h.stop (by rw [hi]; simp; omega)
      rw [hs] at this; simp at this
    | recv =>
      have he : r.idx.toNat = v.length := by
        by_contra hne
        have := h.stop (by have := h.le; omega)
        rw [hs] at this; simp at this
      have := h.inv.waiting hs hnk (by omega)
      rw [Fed.heldClass h (by omega), rtuLength_eq_none.mp hn] at this
      simp at this
  obtain ⟨h1, h2, h3⟩ := h.inv.errorHolds hs
  refine ⟨hs, h1, h2, ?_, by rw [h.ovr, h1]; rfl⟩
  rw [h.inv.crcCovers, RtuParser.folded, hnk, hs]
  simp only [Bool.false_eq_true, if_false, if_true]
  congr 1
  rw [Memory.bytes_succ, Memory.bytes_zero, h.read (by rw [h1]; decide)]; rfl

/-- A part of a frame, or all of it. -/
theorem Fed.part {d : Dir} {r : RtuParser} {w v : List Byte} (h : Fed d r v)
    (hw : rtuLength d (w.getD 1 0) (w.getD 2 0) (w.getD 6 0) = some w.length)
    (k : Nat) (hk : k ≤ w.length) (hv : v = w.take k) :
    r.buf.bytes k = w.take k ∧ r.idx.toNat = k ∧ (r.state = .done ↔ k = w.length) ∧ r.ovr = false := by
  obtain ⟨g5, gb, gd, g264⟩ := rtuLength_bounds hw
  have hvl : v.length = k := by rw [hv]; simp [hk]
  have same : ∀ j, j < k → v.getD j 0 = w.getD j 0 := fun j hj => by rw [hv, getD_take_of_lt hj]
  have lens : r.lenk = true → r.len.toNat = w.length := by
    intro hkk
    obtain ⟨a1, a2, a3⟩ := Fed.length_known h hkk
    have hle := h.le
    have hd : decidingIndex d (v.getD 1 0) < k := by omega
    rw [rtuLength_congr (same 1 (by omega)) (fun j hj => same j (by omega)), hw] at a1
    exact (Option.some.inj a1).symm
  have noerr : r.state ≠ .error := by
    intro hs
    have he := h.inv.errorClass hs
    have h2 := (h.inv.errorHolds hs).1
    rw [Fed.heldClass h (by rw [h2]; decide)] at he
    have : 2 ≤ k := by have := h.le; rw [h2] at this; simpa [hvl] using this
    rw [same 1 (by omega), ← rtuLength_eq_none (a := w.getD 2 0) (b := w.getD 6 0), hw] at he
    cases he
  have hidx : r.idx.toNat = k := by
    by_contra hne
    have hle := h.le
    rcases h.stop (by omega) with hs | hs
    · obtain ⟨d1, d2⟩ := h.inv.doneIff.mp hs
      have := lens d1
      rw [d2, this] at hne hle
      omega
    · exact noerr hs
  refine ⟨?_, hidx, ?_, ?_⟩
  · rw [← hidx, h.buf, hidx, hv]; simp
  · constructor
    · intro hs
      obtain ⟨d1, d2⟩ := h.inv.doneIff.mp hs
      rw [← hidx, d2, lens d1]
    · intro hkw
      cases hs : r.state with
      | done => rfl
      | error => exact absurd hs noerr
      | idle => have := h.inv.idleIff.mp hs; rw [this] at hidx; simp at hidx; omega
      | recv =>
        exfalso
        cases hkk : r.lenk with
        | true =>
          have := h.inv.doneIff.mpr ⟨hkk, BitVec.eq_of_toNat_eq (by rw [lens hkk, hidx, hkw])⟩
          rw [hs] at this; cases this
        | false =>
          have h6 := (h.inv.unknown hkk).2
          rcases h.inv.waiting hs hkk (by omega) with ⟨-, hi⟩ | hc
          · rw [hi] at hidx; simp at hidx; omega
          · rw [Fed.heldClass h (by omega), same 1 (by omega)] at hc
            have := gb hc
            omega
  · have := h.ovr
    rw [hidx, hvl] at this
    simpa using this

/-- A whole frame and any bytes after it. -/
theorem Fed.whole {d : Dir} {r : RtuParser} {w more v : List Byte} (h : Fed d r v)
    (hw : rtuLength d (w.getD 1 0) (w.getD 2 0) (w.getD 6 0) = some w.length)
    (hv : v = w ++ more) :
    r.state = .done ∧ r.len.toNat = w.length ∧ r.idx.toNat = w.length ∧
      r.buf.bytes w.length = w ∧ r.crc = crc16 (w.take (w.length - 2)) ∧
      (r.crcok = true ↔
        w.getD (w.length - 2) 0 = r.crc.setWidth 8 ∧ w.getD (w.length - 1) 0 = (r.crc >>> 8).setWidth 8) ∧
      (r.ovr = true ↔ more ≠ []) := by
  obtain ⟨g5, gb, gd, g264⟩ := rtuLength_bounds hw
  have hvl : v.length = w.length + more.length := by rw [hv]; simp
  have same : ∀ j, j < w.length → v.getD j 0 = w.getD j 0 := fun j hj => by
    rw [hv]; simp [List.getD, List.getElem?_append, hj]
  have hw' : rtuLength d (v.getD 1 0) (v.getD 2 0) (v.getD 6 0) = some w.length := by
    rw [← hw]
    exact rtuLength_congr (same 1 (by omega)) (fun j hj => same j (by rw [same 1 (by omega)] at hj; omega))
  have lens : r.lenk = true → r.len.toNat = w.length := by
    intro hkk
    obtain ⟨a1, a2, a3⟩ := Fed.length_known h hkk
    rw [hw'] at a1
    exact (Option.some.inj a1).symm
  have noerr : r.state ≠ .error := by
    intro hs
    have he := h.inv.errorClass hs
    have h2 := (h.inv.errorHolds hs).1
    rw [Fed.heldClass h (by rw [h2]; decide)] at he
    rw [← rtuLength_eq_none (a := v.getD 2 0) (b := v.getD 6 0), hw'] at he
    cases he
  have hdone : r.state = .done := by
    cases hs : r.state with
    | done => rfl
    | error => exact absurd hs noerr
    | idle =>
      have hi := h.inv.idleIff.mp hs
      have := h.stop (by rw [hi]; simp; omega)
      rw [hs] at this; simp at this
    | recv =>
      exfalso
      have he : r.idx.toNat = v.length := by
        by_contra hne
        have := h.stop (by have := h.le; omega)
        rw [hs] at this; simp at this
      cases hkk : r.lenk with
      | true =>
        have := (h.inv.known hkk).2.2
        rw [lens hkk] at this
        have := h.inv.doneIff.mpr ⟨hkk, BitVec.eq_of_toNat_eq (by rw [lens hkk]; omega)⟩
        rw [hs] at this; cases this
      | false =>
        have h6 := (h.inv.unknown hkk).2
        rcases h.inv.waiting hs hkk (by omega) with ⟨-, hi⟩ | hc
        · rw [hi] at he; simp at he; omega
        · rw [Fed.heldClass h (by omega), same 1 (by omega)] at hc
          have := gb hc
          omega
  obtain ⟨d1, d2⟩ := h.inv.doneIff.mp hdone
  have hl := lens d1
  have hi : r.idx.toNat = w.length := by rw [d2, hl]
  have hb : r.buf.bytes w.length = w := by
    have := h.buf
    rw [hi, hv] at this
    simpa using this
  have rd : ∀ j, j < w.length → r.buf.read j = w.getD j 0 := fun j hj => Memory.read_of_bytes hb hj
  refine ⟨hdone, hl, hi, hb, ?_, ?_, ?_⟩
  · rw [h.inv.crcCovers, RtuParser.folded, if_pos d1, hi, hl]
    congr 1
    rw [show min w.length (w.length - 2) = w.length - 2 by omega]
    conv => rhs; rw [← hb]
    simp [Memory.bytes, ← List.map_take, List.take_range]
  · rw [h.inv.crcokMeans hdone, hl, rd _ (by omega), rd _ (by omega), crcLow_eq, crcHigh_eq]
  · rw [h.ovr, hi, hvl]
    cases more <;> simp

/-- A list of pushes given to a parser in IDLE. -/
theorem Fed.pushes (s : State) (d : Dir) (m : List Byte) (h : s.rtu.Inv) (hs : s.rtu.state = .idle)
    (hd : d = if s.cfg.getLsbD 1 then .request else .response) :
    Fed d ((m.map fun b => Instr.rtuPush (byteOperand b)).foldl State.after s).rtu m := by
  cases m with
  | nil => exact Fed.start h hs d
  | cons b m =>
    have f0 := (Fed.start h hs d).push b s.rtuDir (fun _ => by rw [hd, State.rtuDir_eq])
    have := Fed.run (s := s.after (.rtuPush (byteOperand b))) (cs := m.map fun b => Instr.rtuPush (byteOperand b))
      (by rw [State.after_rtu]; simpa using f0) (by simp) (by simp)
    rw [rtuBytes_pushes] at this
    exact this


end Sys2Proof.Machine
end

