-- ==== Sys2Proof/Laws/Status.lean ====
section
/-! SUPPORT. The status words as numbers (10_state.md rules R41 to R43), and words put together from fields. -/

namespace Sys2Proof.Machine

/-- A word and the word below it, as a number. -/
theorem toNat_append_add {n m : Nat} (x : BitVec n) (y : BitVec m) : (x ++ y).toNat = x.toNat * 2 ^ m + y.toNat := by
  rw [BitVec.toNat_append, ← Nat.shiftLeft_add_eq_or_of_lt y.isLt, Nat.shiftLeft_eq]

/-- Zero extension to a response word (rule R84). -/
theorem zext16_eq_ofNat {n : Nat} (x : BitVec n) : x.setWidth 16 = BitVec.ofNat 16 x.toNat := by
  apply BitVec.eq_of_toNat_eq; simp

/-- A bit of a word, as a number. -/
theorem getLsbD_eq_decide {n : Nat} (x : BitVec n) (k : Nat) : x.getLsbD k = decide (x.toNat / 2 ^ k % 2 = 1) := by
  rw [BitVec.getLsbD, Nat.testBit_eq_decide_div_mod_eq]

/-- `RTU_STAT` as a number (rule R41). -/
theorem RtuParser.toNat_stat (r : RtuParser) (checkFrame : Bool) :
    (r.stat checkFrame).toNat =
      256 * (r.errCode checkFrame).toNat + 128 * r.exc.toNat + 64 * r.ovr.toNat + 32 * (r.frameOk checkFrame).toNat +
        16 * r.crcok.toNat + 8 * r.dir.bit.toNat + 4 * r.lenk.toNat + r.state.code.toNat := by
  unfold RtuParser.stat
  simp only [toNat_append_add, BitVec.toNat_ofBool]
  simp
  omega

/-- `ASC_STAT` as a number (rule R42). -/
theorem AscDetector.toNat_stat (a : AscDetector) (checkFrame : Bool) :
    (a.stat checkFrame).toNat =
      2048 * a.flags.toNat + 256 * (a.errCode checkFrame).toNat + 64 * a.ovr.toNat +
        32 * (a.frameOk checkFrame).toNat + 16 * a.lrcok.toNat + 8 * a.eof.toNat + 4 * a.sof.toNat +
        a.state.code.toNat := by
  unfold AscDetector.stat
  simp only [toNat_append_add, BitVec.toNat_ofBool]
  simp
  omega

/-- The word of `RTU.LEN` as a number (rule R43). -/
theorem RtuParser.toNat_lenWord (r : RtuParser) : r.lenWord.toNat = 32768 * r.lenk.toNat + r.len.toNat := by
  unfold RtuParser.lenWord
  simp only [toNat_append_add, BitVec.toNat_ofBool]
  simp
  omega

/-- The bits and fields of a status word given as a number: what each of them is. -/
theorem status_fields {n e f c : Nat} {b2 b3 b4 b5 b6 b7 : Bool} (he : e < 8) (hc : c < 4)
    (hn : n = 2048 * f + 256 * e + 128 * b7.toNat + 64 * b6.toNat + 32 * b5.toNat + 16 * b4.toNat + 8 * b3.toNat +
      4 * b2.toNat + c) :
    n % 4 = c ∧ decide (n / 2 ^ 2 % 2 = 1) = b2 ∧ decide (n / 2 ^ 3 % 2 = 1) = b3 ∧ decide (n / 2 ^ 4 % 2 = 1) = b4 ∧
      decide (n / 2 ^ 5 % 2 = 1) = b5 ∧ decide (n / 2 ^ 6 % 2 = 1) = b6 ∧ decide (n / 2 ^ 7 % 2 = 1) = b7 ∧
      n / 2 ^ 8 % 8 = e ∧ n / 2 ^ 11 = f := by
  have bit : ∀ (p : Nat) (b : Bool), p = b.toNat → decide (p = 1) = b := by
    rintro p b rfl; cases b <;> rfl
  have l2 := b2.toNat_lt
  have l3 := b3.toNat_lt
  have l4 := b4.toNat_lt
  have l5 := b5.toNat_lt
  have l6 := b6.toNat_lt
  have l7 := b7.toNat_lt
  refine ⟨by omega, bit _ _ ?_, bit _ _ ?_, bit _ _ ?_, bit _ _ ?_, bit _ _ ?_, bit _ _ ?_, by omega, by omega⟩ <;> omega

/-- The fields of `RTU_STAT`. -/
theorem RtuParser.stat_fields (r : RtuParser) (checkFrame : Bool) :
    (r.stat checkFrame).toNat % 4 = r.state.code.toNat ∧ (r.stat checkFrame).getLsbD 2 = r.lenk ∧
      (r.stat checkFrame).getLsbD 3 = r.dir.bit ∧ (r.stat checkFrame).getLsbD 4 = r.crcok ∧
      (r.stat checkFrame).getLsbD 5 = r.frameOk checkFrame ∧ (r.stat checkFrame).getLsbD 6 = r.ovr ∧
      (r.stat checkFrame).getLsbD 7 = r.exc ∧
      (r.stat checkFrame).toNat / 2 ^ 8 % 8 = (r.errCode checkFrame).toNat ∧ (r.stat checkFrame).toNat / 2 ^ 11 = 0 := by
  simp only [getLsbD_eq_decide]
  exact status_fields (r.errCode checkFrame).isLt r.state.code.isLt (by rw [r.toNat_stat checkFrame]; omega)

/-- The fields of `ASC_STAT`. -/
theorem AscDetector.stat_fields (a : AscDetector) (checkFrame : Bool) :
    (a.stat checkFrame).toNat % 4 = a.state.code.toNat ∧ (a.stat checkFrame).getLsbD 2 = a.sof ∧
      (a.stat checkFrame).getLsbD 3 = a.eof ∧ (a.stat checkFrame).getLsbD 4 = a.lrcok ∧
      (a.stat checkFrame).getLsbD 5 = a.frameOk checkFrame ∧ (a.stat checkFrame).getLsbD 6 = a.ovr ∧
      (a.stat checkFrame).getLsbD 7 = false ∧
      (a.stat checkFrame).toNat / 2 ^ 8 % 8 = (a.errCode checkFrame).toNat ∧
      (a.stat checkFrame).toNat / 2 ^ 11 = a.flags.toNat := by
  simp only [getLsbD_eq_decide]
  refine status_fields (a.errCode checkFrame).isLt a.state.code.isLt ?_
  rw [a.toNat_stat checkFrame, Bool.toNat_false]; omega

end Sys2Proof.Machine
end

