-- ==== Sys2Proof/Laws/StepInv.lean ====
section
/-! SUPPORT. Commands keep the invariant (10_state.md rule R49). -/

namespace Sys2Proof.Machine

/-- A command keeps the invariant. -/
theorem State.Inv.after {s : State} (h : s.Inv) (i : Instr) : (s.after i).Inv := by
  constructor
  · rw [State.after_rtu]
    cases i <;> first | exact h.rtu | exact h.rtu.push _ _ | exact RtuParser.inv_clear h.rtu.bufWf
  · rw [State.after_asc]
    cases i <;> first | exact h.asc | exact h.asc.push _ | exact AscDetector.inv_clear h.asc.bufWf

/-- A run of commands keeps the invariant. -/
theorem State.Inv.run {s : State} (h : s.Inv) (cs : List Instr) : (cs.foldl State.after s).Inv := by
  induction cs generalizing s with
  | nil => exact h
  | cons i rest ih => exact ih (h.after i)

end Sys2Proof.Machine
end

