-- ==== Sys2Proof/Tests/Slice0.lean ====
section
/-! SUPPORT. The model's own tests. Expected values are the spec's: the encodings of 30_encoding.md rules R81 to R87, the
examples of the command rules, and the vectors of 95_test_vectors.md. Then, for every statement with hypotheses, a
witness that meets them. -/

namespace Sys2Proof.Tests

open Sys2Proof.Machine

/-! ### Helpers -/

/-- The response of a step or command. -/
def rspOf : Host.Outcome State Fault Refusal → Option Half
  | .next t => some t.rsp
  | .fault _ => none
  | .refused _ => none

/-- A part of the next state. -/
def partOf {α : Type} (f : State → α) : Host.Outcome State Fault Refusal → Option α
  | .next t => some (f t)
  | .fault _ => none
  | .refused _ => none

/-- The state after commands, from reset. -/
def ran (cs : List Instr) : State := cs.foldl State.after State.reset

/-- `RTU.PUSH` of bytes. -/
def pushes (bs : List Byte) : List Instr := bs.map fun b => .rtuPush (byteOperand b)

/-- `ASC.PUSH` of characters. -/
def chars (bs : List Byte) : List Instr := bs.map fun b => .ascPush (byteOperand b)

theorem ran_inv (cs : List Instr) : (ran cs).Inv :=
  State.Inv.run ⟨RtuParser.inv_clear (r := .reset) rfl, AscDetector.inv_clear (a := .reset) rfl⟩ cs

/-! ### WellFormed: an ill-formed term for each check -/

theorem test_wf_format_n : Format.fits .n 0x0001 = false ∧ Format.fits .n 0x0000 = true := by decide
theorem test_wf_format_b : (Instr.crcUpd 0x0100).wf = false ∧ (Instr.crcUpd 0x00FF).wf = true := by decide
theorem test_wf_format_i : (Instr.rtuRdb 0x0200).wf = false ∧ (Instr.rtuRdb 0x01FF).wf = true := by decide
theorem test_wf_format_w : (Instr.cfgWr 0x0004).wf = false ∧ (Instr.cfgWr 0x0003).wf = true := by decide

/-! ### Decoding: words written out from R80 to R83, bit 23 first -/

theorem test_decode_crc :
    decode 0b000000010000000000000000 = .instr .crcInit ∧
    decode 0b000000100000000000000010 = .instr (.crcUpd 0x02) ∧
    decode 0b000000110000000000000000 = .instr .crcRd := by decide
theorem test_decode_lrc :
    decode 0b000001000000000000000000 = .instr .lrcInit ∧
    decode 0b000001010000000000001000 = .instr (.lrcUpd 0x08) ∧
    decode 0b000001100000000000000000 = .instr .lrcRd := by decide
theorem test_decode_rtu :
    decode 0b000010000000000000000000 = .instr .rtuClr ∧
    decode 0b000010010000000010000001 = .instr (.rtuPush 0x81) ∧
    decode 0b000010100000000000000000 = .instr .rtuStat ∧
    decode 0b000010110000000100000111 = .instr (.rtuRdb 263) ∧
    decode 0b000011000000000000000000 = .instr .rtuLen ∧
    decode 0b000011010000000000000000 = .instr .rtuCnt ∧
    decode 0b000011100000000000000000 = .instr .rtuCrc := by decide
theorem test_decode_asc :
    decode 0b000100000000000000000000 = .instr .ascClr ∧
    decode 0b000100010000000000111010 = .instr (.ascPush 0x3A) ∧
    decode 0b000100100000000000000000 = .instr .ascStat ∧
    decode 0b000100110000000000000010 = .instr (.ascRdb 2) ∧
    decode 0b000101000000000000000000 = .instr .ascCnt ∧
    decode 0b000101010000000000000000 = .instr .ascSum := by decide
theorem test_decode_cfg :
    decode 0b000110000000000000000011 = .instr (.cfgWr 3) ∧ decode 0b000110010000000000000000 = .instr .cfgRd ∧
    decode 0b000000000000000000000000 = .instr .nop := by decide
/-- Ignored bits, all 1 (R82). -/
theorem test_decode_ignored :
    decode 0b000000011111111111111111 = .instr .crcInit ∧ decode 0b000000101111111100000010 = .instr (.crcUpd 0x02) ∧
    decode 0b000010111111111000000011 = .instr (.rtuRdb 3) ∧ decode 0b000110001111111111111101 = .instr (.cfgWr 1) := by
  decide
/-- Reserved codes are rejected by name (R86). -/
theorem test_decode_reserved :
    decode 0x070000 = .reserved 0x07 ∧ decode 0x0F0000 = .reserved 0x0F ∧ decode 0x160000 = .reserved 0x16 ∧
    decode 0x170000 = .reserved 0x17 ∧ decode 0x1A0000 = .reserved 0x1A ∧ decode 0x200000 = .reserved 0x20 ∧
    decode 0xFF1234 = .reserved 0xFF := by decide
/-- Rows numbered as the table numbers them. -/
theorem test_decodeTableWord :
    decodeTableWord 24 0x090081 = some (.rtuPush 0x81) ∧ decodeTableWord 24 0x070000 = none := by decide
/-- The textual form (R87, R85). -/
theorem test_text :
    (Instr.crcUpd 0x02).text = "CRC.UPD 0x02" ∧ (Instr.rtuRdb 3).text = "RTU.RDB 3" ∧
    (Instr.cfgWr 0x0003).text = "CFG.WR 0x0003" ∧ Instr.nop.text = "NOP" := by decide +kernel

/-! ### Single commands, with the values of the rules' examples -/

theorem test_nop : rspOf (exec .nop State.reset) = some 0x0000 := by decide
theorem test_crcInit : partOf State.crc (exec .crcInit { State.reset with crc := 0x3F6C }) = some 0xFFFF := by decide
theorem test_crcUpd : partOf State.crc (exec (.crcUpd 0x02) State.reset) = some 0x813E := by decide
theorem test_crcUpd_zero_byte : partOf State.crc (exec (.crcUpd 0x00) State.reset) = some 0x40BF := by decide
theorem test_crcRd : rspOf (exec .crcRd { State.reset with crc := 0x3F6C }) = some 0x3F6C := by decide
theorem test_lrcInit : partOf State.lsum (exec .lrcInit { State.reset with lsum := 0x0C }) = some 0x00 := by decide
theorem test_lrcUpd : partOf State.lsum (exec (.lrcUpd 0x08) { State.reset with lsum := 0x04 }) = some 0x0C := by decide
theorem test_lrcUpd_wrap : partOf State.lsum (exec (.lrcUpd 0x01) { State.reset with lsum := 0xFF }) = some 0x00 := by
  decide
theorem test_lrcRd : rspOf (exec .lrcRd { State.reset with lsum := 0x0C }) = some 0x00F4 := by decide
theorem test_lrcRd_corners :
    rspOf (exec .lrcRd State.reset) = some 0x0000 ∧
    rspOf (exec .lrcRd { State.reset with lsum := 0x01 }) = some 0x00FF ∧
    rspOf (exec .lrcRd { State.reset with lsum := 0x80 }) = some 0x0080 := by decide
/-- R157's example. -/
theorem test_rtuClr :
    rspOf (exec .rtuStat (ran (pushes [0x01, 0x00]))) = some 0x0303 ∧
    rspOf (exec .rtuStat (ran (pushes [0x01, 0x00] ++ [.rtuClr]))) = some 0x0000 := by decide
/-- R170's example: the last push of `01 01 01 81 91 E8`. -/
theorem test_rtuPush_last :
    partOf (fun t => (t.rtu.state, t.rtu.crcok, t.rtu.len))
      (exec (.rtuPush 0xE8) (ran (pushes [0x01, 0x01, 0x01, 0x81, 0x91]))) = some (.done, true, 6) := by decide +kernel
theorem test_rtuPush_dropped :
    partOf (fun t => (t.rtu.ovr, t.rtu.idx)) (exec (.rtuPush 0x55) (ran (pushes [0x01, 0x00]))) = some (true, 2) := by decide +kernel
theorem test_rtuStat : rspOf (exec .rtuStat (ran (pushes [0x01, 0x01, 0x01, 0x81, 0x91, 0xE8]))) = some 0x0036 := by decide +kernel
/-- R171's example, and the byte above the count. -/
theorem test_rtuRdb :
    rspOf (exec (.rtuRdb 2) (ran (pushes [0x01, 0x81, 0x02, 0xC1, 0x91]))) = some 0x0002 ∧
    rspOf (exec (.rtuRdb 5) (ran (pushes [0x01, 0x81, 0x02, 0xC1, 0x91]))) = some 0x0000 := by decide +kernel
/-- R172's example. -/
theorem test_rtuLen : rspOf (exec .rtuLen (ran (pushes [0x01, 0x03, 0x04]))) = some 0x8009 := by decide
theorem test_rtuCnt : rspOf (exec .rtuCnt (ran (pushes [0x01, 0x03, 0x04]))) = some 0x0003 := by decide
/-- R174's example. -/
theorem test_rtuCrc : rspOf (exec .rtuCrc (ran (pushes [0x01, 0x01, 0x01, 0x81, 0x91, 0xE9]))) = some 0xE891 := by decide +kernel
theorem test_ascClr :
    rspOf (exec .ascStat (ran (chars [0x3A, 0x0D, 0x0A]))) = some 0x410F ∧
    rspOf (exec .ascStat (ran (chars [0x3A, 0x0D, 0x0A] ++ [.ascClr]))) = some 0x0000 := by decide
/-- The line of R193's example, `:020100010008F4` CR LF: its end. -/
theorem test_ascPush_end :
    partOf (fun t => (t.asc.state, t.asc.cnt, t.asc.sum, t.asc.lrcok))
      (exec (.ascPush 0x0A) (ran (chars [0x3A, 0x30, 0x32, 0x30, 0x31, 0x30, 0x30, 0x30, 0x31, 0x30, 0x30, 0x30, 0x38,
        0x46, 0x34, 0x0D]))) = some (.done, 7, 0x00, true) := by decide
/-- A pending CR followed by a character (R196): the CR is NONHEX data, the character is consumed after it. -/
theorem test_ascPush_pending :
    partOf (fun t => (t.asc.state, t.asc.flags, t.asc.phase, t.asc.hi)) (exec (.ascPush 0x41) (ran (chars [0x3A, 0x0D]))) =
      some (.line, 0b00010, true, 0xA) := by decide
/-- `:0181027C` CR LF: FRAME_OK. -/
theorem test_ascStat :
    rspOf (exec .ascStat (ran (chars [0x3A, 0x30, 0x31, 0x38, 0x31, 0x30, 0x32, 0x37, 0x43, 0x0D, 0x0A]))) =
      some 0x003F := by decide
/-- R206's example. -/
theorem test_ascRdb :
    rspOf (exec (.ascRdb 2) (ran (chars [0x3A, 0x30, 0x31, 0x38, 0x31, 0x30, 0x32, 0x37, 0x43, 0x0D, 0x0A]))) =
      some 0x0002 := by decide
theorem test_ascCnt : rspOf (exec .ascCnt (ran (chars [0x3A, 0x30, 0x31, 0x38, 0x31]))) = some 0x0002 := by decide
theorem test_ascSum : rspOf (exec .ascSum (ran (chars [0x3A, 0x30, 0x31, 0x38, 0x31]))) = some 0x0082 := by decide
theorem test_cfgWr : partOf State.cfg (exec (.cfgWr 0xFFFD) { State.reset with cfg := 0b10 }) = some 0b01 := by decide
theorem test_cfgRd : rspOf (exec .cfgRd State.reset) = some 0x0001 := by decide

/-! ### Steps -/

theorem test_step_fetch : partOf State.crc (step (State.reset.withFetchWord 24 0x020002)) = some 0x813E := by decide
theorem test_step_reset :
    partOf (fun t => (t.crc, t.cfg, t.rtu.state))
      (step { ran (pushes [0x01] ++ [.crcUpd 2, .cfgWr 2]) with inputs := [⟨true, true, 0x020002⟩] }) =
      some (0xFFFF, 0b01, .idle) := by decide
theorem test_step_idle : rspOf (step { State.reset with rsp := 0x1234, inputs := [⟨false, false, 0x030000⟩] }) = some 0 := by
  decide

/-! ### Whole-message functions (E2, E9 and section 2 of the vectors) -/

theorem test_crc16 : crc16 [0x02, 0x01, 0x00, 0x01, 0x00, 0x08] = 0x3F6C := by decide +kernel
theorem test_crc16_check : crc16 [0x31, 0x32, 0x33, 0x34, 0x35, 0x36, 0x37, 0x38, 0x39] = 0x4B37 := by decide +kernel
theorem test_lrc : lrc [0x02, 0x01, 0x00, 0x01, 0x00, 0x08] = 0xF4 := by decide
theorem test_asciiEncode :
    asciiEncode [0x02, 0x01, 0x00, 0x01, 0x00, 0x08] =
      [0x3A, 0x30, 0x32, 0x30, 0x31, 0x30, 0x30, 0x30, 0x31, 0x30, 0x30, 0x30, 0x38, 0x46, 0x34, 0x0D, 0x0A] := by decide
theorem test_charClass :
    charClass 0x3A = .colon ∧ charClass 0x0D = .cr ∧ charClass 0x0A = .lf ∧ charClass 0x46 = .hex ∧
    charClass 0x66 = .other ∧ charClass 0x47 = .other := by decide

/-! ### Witnesses: the hypotheses of each statement are met together -/

theorem witness_StepAppliesDecodedCommand :
    (∃ (s : State) (w : Cmd) (rest : List PortSample) (i : Instr),
      s.inputs = { rst := false, cmdValid := true, cmd := w } :: rest ∧ decode w = .instr i) ∧
    ∃ (nbits w : Nat) (i : Instr), decodeTableWord nbits w = some i :=
  ⟨⟨{ State.reset with inputs := [commandSample 0x0B0003] }, _, _, _, rfl, rfl⟩, 24, 0x0B0003, .rtuRdb 3, by decide⟩

theorem witness_ResetStepRestoresRegisters :
    ∃ (s : State) (v : Bool) (w : Cmd) (rest : List PortSample) (v' : Bool) (w' : Cmd) (rest' : List PortSample),
      s.inputs = { rst := true, cmdValid := v, cmd := w } :: rest ∧
      rest = { rst := true, cmdValid := v', cmd := w' } :: rest' :=
  ⟨{ State.reset with inputs := [⟨true, true, 0x020002⟩, ⟨true, false, 0⟩] }, _, _, _, _, _, _, rfl, rfl⟩

theorem witness_NoCommandChangesNothing :
    (∃ (s : State) (w : Cmd) (rest : List PortSample),
      s.inputs = { rst := false, cmdValid := false, cmd := w } :: rest) ∧ ∃ s : State, s.inputs = [] :=
  ⟨⟨{ State.reset with inputs := [⟨false, false, 0x020002⟩] }, _, _, rfl⟩, State.reset, rfl⟩

/-- Each reserved range at both its ends. -/
theorem witness_ReservedCodesActAsNop :
    ∀ op ∈ ([0x07, 0x0F, 0x16, 0x17, 0x1A, 0x1F, 0x20, 0xFF] : List Nat),
      ∃ (s : State) (w : Cmd) (rest : List PortSample),
        s.inputs = { rst := false, cmdValid := true, cmd := w } :: rest ∧ w.toNat / 2 ^ 16 = op := by
  intro op h
  have hop : op < 256 := by fin_cases h <;> decide
  refine ⟨{ State.reset with inputs := [commandSample (BitVec.ofNat 24 (op * 2 ^ 16))] }, _, [], rfl, ?_⟩
  simp
  omega

/-- A word with a code of the table, one with a code outside it, and a word for each group. -/
theorem witness_CommandCodeTable :
    (0x19FFFF : Cmd).toNat / 2 ^ 16 = 0x19 ∧ (0x07FFFF : Cmd).toNat / 2 ^ 16 = 0x07 ∧
    decode 0x020000 = .instr (.crcUpd 0) ∧ decode 0x060000 = .instr .lrcRd ∧ decode 0x0E0000 = .instr .rtuCrc ∧
    decode 0x150000 = .instr .ascSum ∧ decode 0x180000 = .instr (.cfgWr 0) := by decide

/-- Every code is the code of some word. -/
theorem witness_codedAs : ∀ op : Nat, op < 256 → ∃ w : Cmd, w.toNat / 2 ^ 16 = op := by
  intro op hop
  refine ⟨BitVec.ofNat 24 (op * 2 ^ 16), ?_⟩
  simp
  omega

theorem witness_DecodeEncodeRoundTrip :
    (Instr.rtuRdb 0x01FF).wf = true ∧ (Instr.crcUpd 0x00FF).wf = true ∧ (Instr.cfgWr 3).wf = true ∧
    Instr.nop.wf = true ∧ decode 0x0BFFFF = .instr (.rtuRdb 0x01FF) := by decide

theorem witness_IgnoredOperandBits :
    (∃ w w' : Cmd, ∃ i, w ≠ w' ∧ decode w = .instr i ∧ w.toNat / 2 ^ 16 = w'.toNat / 2 ^ 16 ∧ i.format = .b ∧
      w.toNat % 2 ^ 8 = w'.toNat % 2 ^ 8) ∧
    (∃ w w' : Cmd, ∃ i, w ≠ w' ∧ decode w = .instr i ∧ w.toNat / 2 ^ 16 = w'.toNat / 2 ^ 16 ∧ i.format = .i ∧
      w.toNat % 2 ^ 9 = w'.toNat % 2 ^ 9) ∧
    (∃ w w' : Cmd, ∃ i, w ≠ w' ∧ decode w = .instr i ∧ w.toNat / 2 ^ 16 = w'.toNat / 2 ^ 16 ∧ i.format = .w ∧
      w.toNat % 2 ^ 2 = w'.toNat % 2 ^ 2) ∧
    (∃ w w' : Cmd, ∃ i, w ≠ w' ∧ decode w = .instr i ∧ w.toNat / 2 ^ 16 = w'.toNat / 2 ^ 16 ∧ i.format = .n) ∧
    (0xFF80 : Half).toNat % 2 ^ 8 = (0x0080 : Half).toNat % 2 ^ 8 ∧
    (0xFF07 : Half).toNat % 2 ^ 9 = (0x0107 : Half).toNat % 2 ^ 9 ∧
    (0xFFFE : Half).toNat % 2 ^ 2 = (0x0002 : Half).toNat % 2 ^ 2 := by
  refine ⟨⟨0x02FF80, 0x020080, .crcUpd 0x80, ?_⟩, ⟨0x0BFF07, 0x0B0107, .rtuRdb 0x107, ?_⟩,
    ⟨0x18FFFE, 0x180002, .cfgWr 2, ?_⟩, ⟨0x01FFFF, 0x010000, .crcInit, ?_⟩, ?_⟩ <;> decide

/-- The invariant with a step that pushes, at the place where a frame ends. -/
theorem witness_StepKeepsInvariant : ∃ s t : State, s.Inv ∧ step s = .next t ∧ t.rtu.state = .done := by
  refine ⟨(ran (pushes [0x01, 0x81, 0x02, 0xC1])).withFetchWord 24 0x090091, _, ?_, rfl, by decide⟩
  exact ⟨(ran_inv (pushes [0x01, 0x81, 0x02, 0xC1])).rtu, (ran_inv (pushes [0x01, 0x81, 0x02, 0xC1])).asc⟩

/-- A command that changes each register, a reserved word, and two states that differ outside the unit. -/
theorem witness_CommandsTouchOnlyTheirUnit :
    (State.reset.after (.crcUpd 0)).crc ≠ State.reset.crc ∧ (State.reset.after (.lrcUpd 1)).lsum ≠ State.reset.lsum ∧
    (State.reset.after (.cfgWr 2)).cfg ≠ State.reset.cfg ∧ (State.reset.after (.rtuPush 1)).rtu ≠ State.reset.rtu ∧
    (State.reset.after (.ascPush 1)).asc ≠ State.reset.asc ∧ decode 0x0F0000 = .reserved 0x0F ∧
    (ran [.cfgWr 3]).rtu = (ran [.cfgWr 2]).rtu ∧ (ran [.cfgWr 3]).cfg.getLsbD 1 = (ran [.cfgWr 2]).cfg.getLsbD 1 ∧
    (ran [.cfgWr 3]).cfg.getLsbD 0 = (ran [.cfgWr 1]).cfg.getLsbD 0 ∧ (ran [.crcUpd 1]).asc = (ran [.cfgWr 2]).asc ∧
    (ran [.lrcUpd 1]).crc = (ran [.cfgWr 2]).crc ∧ (ran [.crcUpd 1]).lsum = (ran [.cfgWr 2]).lsum ∧
    (ran [.crcUpd 1]).cfg = (ran [.lrcUpd 2]).cfg := by decide

/-- Units that differ, without and with a `CFG.WR` that is no conflict. -/
theorem witness_CommandsToDifferentUnitsCommute :
    ((Instr.crcUpd 1).unit ≠ (Instr.rtuPush 2).unit ∧ cfgConflict State.reset (.crcUpd 1) (.rtuPush 2) = false) ∧
    ((Instr.cfgWr 2).unit ≠ (Instr.rtuPush 2).unit ∧
      cfgConflict (ran (pushes [0x01])) (.cfgWr 2) (.rtuPush 2) = false) ∧
    (Instr.cfgWr 2).unit ≠ Instr.ascCnt.unit ∧ cfgConflict State.reset (.cfgWr 2) .ascCnt = false := by decide

/-- A message with commands to other units between. -/
theorem witness_CrcUnitComputesCrcOfMessage :
    ∃ cs : List Instr, .crcInit ∉ cs ∧ crcBytes cs = [0x02, 0x01] :=
  ⟨[.crcUpd 0x02, .rtuPush 0x55, .crcRd, .crcUpd 0x01, .lrcInit], by decide, by decide⟩

theorem witness_LrcUnitComputesLrcOfMessage :
    ∃ cs : List Instr, .lrcInit ∉ cs ∧ lrcBytes cs = [0x02, 0x01] :=
  ⟨[.lrcUpd 0x02, .crcInit, .lrcUpd 0x01], by decide, by decide⟩

/-- Bytes and registers whose exclusive or agrees. -/
theorem witness_CrcStepBijectiveAndLinear :
    (0x1234 : Half) >>> 8 = (0x1256 : Half) >>> 8 ∧
    (0x1234 : Half).setWidth 8 ^^^ (0x00 : Byte) = (0x1256 : Half).setWidth 8 ^^^ (0x62 : Byte) ∧ 255 < 256 := by decide

/-- DONE and ERROR. -/
theorem witness_RtuPushDroppedAfterEnd :
    (∃ s : State, s.rtu.state = .done) ∧ ∃ s : State, s.rtu.state = .error :=
  ⟨⟨ran (pushes [0x01, 0x81, 0x02, 0xC1, 0x91]), by decide⟩, ran (pushes [0x01, 0x00]), by decide⟩

theorem witness_RtuFirstByteLatchesDirection :
    (∃ s : State, s.Inv ∧ s.rtu.state = .idle) ∧ ∃ s : State, s.rtu.idx ≠ 0 :=
  ⟨⟨ran [.cfgWr 2], ran_inv _, by decide⟩, ran (pushes [0x01]), by decide⟩

/-- The function code at each class's first and last value, and the byte count of a read response. -/
theorem witness_ResponseLengthClasses :
    (∃ s : State, s.Inv ∧ s.rtu.state = .recv ∧ s.rtu.idx = 1 ∧ s.rtu.dir = .response ∧
      ([0x80, 0xFF, 0x05, 0x06, 0x0F, 0x10] : List Half).map (fun x =>
        partOf (fun t => (t.rtu.lenk, t.rtu.len.toNat)) (exec (.rtuPush x) s)) =
        [some (true, 5), some (true, 5), some (true, 8), some (true, 8), some (true, 8), some (true, 8)] ∧
      ([0x01, 0x04, 0x00, 0x07, 0x0E, 0x11, 0x7F] : List Half).map (fun x =>
        partOf (fun t => (t.rtu.lenk, t.rtu.state)) (exec (.rtuPush x) s)) =
        [some (false, .recv), some (false, .recv), some (false, .error), some (false, .error), some (false, .error),
          some (false, .error), some (false, .error)]) ∧
    ∃ s : State, s.Inv ∧ s.rtu.state = .recv ∧ s.rtu.idx = 2 ∧ s.rtu.dir = .response ∧
      s.memRead .rbuf 1 ∈ ([0x01, 0x02, 0x03, 0x04] : List Byte) ∧
      partOf (fun t => t.rtu.len.toNat) (exec (.rtuPush 0xFF) s) = some 260 ∧
      partOf (fun t => t.rtu.len.toNat) (exec (.rtuPush 0x00) s) = some 5 :=
  ⟨⟨ran (pushes [0x01]), ran_inv _, by decide +kernel⟩, ran (pushes [0x01, 0x04]), ran_inv _, by decide +kernel⟩

theorem witness_RequestLengthClasses :
    (∃ s : State, s.Inv ∧ s.rtu.state = .recv ∧ s.rtu.idx = 1 ∧ s.rtu.dir = .request ∧
      ([0x01, 0x06, 0x0F, 0x10, 0x00, 0x07, 0x0E, 0x11, 0x80, 0xFF] : List Half).map (fun x =>
        partOf (fun t => (t.rtu.lenk, t.rtu.state)) (exec (.rtuPush x) s)) =
        [some (true, .recv), some (true, .recv), some (false, .recv), some (false, .recv), some (false, .error),
          some (false, .error), some (false, .error), some (false, .error), some (false, .error), some (false, .error)]) ∧
    ∃ s : State, s.Inv ∧ s.rtu.state = .recv ∧ s.rtu.idx = 6 ∧ s.rtu.dir = .request ∧
      s.memRead .rbuf 1 ∈ ([0x0F, 0x10] : List Byte) ∧
      partOf (fun t => t.rtu.len.toNat) (exec (.rtuPush 0xFF) s) = some 264 ∧
      partOf (fun t => t.rtu.len.toNat) (exec (.rtuPush 0x00) s) = some 9 :=
  ⟨⟨ran (.cfgWr 2 :: pushes [0x01]), ran_inv _, by decide +kernel⟩,
    ran (.cfgWr 2 :: pushes [0x01, 0x10, 0, 0, 0, 1]), ran_inv _, by decide +kernel⟩

/-- At the function code, in both directions, with a code that is refused and one that is not. -/
theorem witness_UnsupportedCodeStopsParser :
    (∃ s : State, s.Inv ∧ s.rtu.state = .recv ∧ s.rtu.idx = 1 ∧ s.rtu.dir = .request ∧
      partOf (fun t => t.rtu.state) (exec (.rtuPush 0x80) s) = some .error) ∧
    ∃ s : State, s.Inv ∧ s.rtu.state = .recv ∧ s.rtu.idx = 1 ∧ s.rtu.dir = .response ∧
      partOf (fun t => t.rtu.state) (exec (.rtuPush 0x7F) s) = some .error ∧
      partOf (fun t => t.rtu.state) (exec (.rtuPush 0x80) s) = some .recv :=
  ⟨⟨ran (.cfgWr 2 :: pushes [0x01]), ran_inv _, by decide⟩, ran (pushes [0x01]), ran_inv _, by decide⟩

/-- Length unknown, settled by this byte, and known. -/
theorem witness_LengthInferredOnce :
    (∃ s : State, s.Inv ∧ s.rtu.accepting = true ∧ s.rtu.lenk = false ∧
      partOf (fun t => t.rtu.lenk) (exec (.rtuPush 0x05) s) = some true) ∧
    ∃ s : State, s.Inv ∧ s.rtu.accepting = true ∧ s.rtu.lenk = true :=
  ⟨⟨ran (pushes [0x01]), ran_inv _, by decide⟩, ran (pushes [0x01, 0x05]), ran_inv _, by decide⟩

/-- A byte that settles the length, and the first checksum byte. -/
theorem witness_CrcAccumulatesFrameOnly :
    (∃ s : State, s.Inv ∧ s.rtu.accepting = true ∧ s.rtu.lenk = false ∧
      partOf (fun t => (t.rtu.state, t.rtu.lenk)) (exec (.rtuPush 0x85) s) = some (.recv, true)) ∧
    ∃ s : State, s.Inv ∧ s.rtu.accepting = true ∧
      partOf (fun t => (t.rtu.lenk, decide (t.rtu.len.toNat ≤ t.rtu.idx.toNat + 2))) (exec (.rtuPush 0xC1) s) =
        some (true, true) :=
  ⟨⟨ran (pushes [0x01]), ran_inv _, by decide⟩, ran (pushes [0x01, 0x81, 0x02]), ran_inv _, by decide⟩

/-- The last byte, right and wrong. -/
theorem witness_LastByteJudgesCrc :
    ∃ s : State, s.Inv ∧ s.rtu.accepting = true ∧ s.rtu.lenk = true ∧ s.rtu.idx.toNat + 1 = s.rtu.len.toNat ∧
      partOf (fun t => t.rtu.crcok) (exec (.rtuPush 0x91) s) = some true ∧
      partOf (fun t => t.rtu.crcok) (exec (.rtuPush 0x90) s) = some false :=
  ⟨ran (pushes [0x01, 0x81, 0x02, 0xC1]), ran_inv _, by decide +kernel⟩

/-- A push that stores, a pair that stores, and a reset. -/
theorem witness_BuffersWrittenOnlyByPushes :
    (∃ s : State, s.Inv ∧ s.rtu.accepting = true ∧ s.rtu.idx.toNat = 1) ∧
    (∃ s : State, s.Inv ∧ s.asc.storesPair 0x46 = true ∧ s.asc.cnt.toNat = 0 ∧ s.asc.pairByte 0x46 = 0x1F) ∧
    ∃ (s : State) (v : Bool) (w : Cmd) (rest : List PortSample),
      s.inputs = { rst := true, cmdValid := v, cmd := w } :: rest :=
  ⟨⟨ran (pushes [0x01]), ran_inv _, by decide⟩, ⟨ran (chars [0x3A, 0x31]), ran_inv _, by decide⟩,
    { State.reset with inputs := [⟨true, false, 0⟩] }, _, _, _, rfl⟩

/-- An accepted push away from indices 0 and 1, and a dropped one. -/
theorem witness_RtuPushFrame :
    (∃ s t : State, s.Inv ∧ exec (.rtuPush 0x04) s = .next t ∧ s.rtu.idx.toNat = 2 ∧ s.rtu.accepting = true) ∧
    ∃ s t : State, s.Inv ∧ exec (.rtuPush 0x04) s = .next t ∧ s.rtu.accepting = false :=
  ⟨⟨ran (pushes [0x01, 0x03]), _, ran_inv _, rfl, by decide⟩, ran (pushes [0x01, 0x00]), _, ran_inv _, rfl, by decide⟩

/-- Each control state. -/
theorem witness_RtuControlTransitions :
    (∃ s : State, s.Inv ∧ s.rtu.state = .idle) ∧ (∃ s : State, s.Inv ∧ s.rtu.state = .recv) ∧
    (∃ s : State, s.Inv ∧ s.rtu.state = .done) ∧ ∃ s : State, s.Inv ∧ s.rtu.state = .error :=
  ⟨⟨State.reset, ran_inv [], rfl⟩, ⟨ran (pushes [0x01]), ran_inv _, by decide⟩,
    ⟨ran (pushes [0x01, 0x81, 0x02, 0xC1, 0x91]), ran_inv _, by decide⟩, ran (pushes [0x01, 0x00]), ran_inv _, by decide⟩

/-- (a) an unsupported code and a byte after it; (b) a part of a frame; (c) a frame and a byte after it. -/
theorem witness_RtuWholeFrame :
    ∃ (s : State) (d : Dir), s.Inv ∧ s.rtu.state = .idle ∧ d = (if s.cfg.getLsbD 1 then .request else .response) ∧
      (.rtuClr ∉ (pushes [0x07, 0x55] ++ [.crcInit]) ∧ rtuBytes (pushes [0x07, 0x55] ++ [.crcInit]) = [0x07, 0x55] ∧
        rtuLength d 0x07 0x55 0x00 = none) ∧
      (rtuLength d 0x81 0x02 0x00 = some 5 ∧ ([0x01, 0x81, 0x02, 0xC1, 0x91] : List Byte).length = 5 ∧
        rtuBytes (.cfgWr 2 :: pushes [0x81]) = [0x81]) ∧
      rtuBytes (pushes [0x81, 0x02, 0xC1, 0x91, 0x55]) = [0x81, 0x02, 0xC1, 0x91] ++ [0x55] :=
  ⟨State.reset, .response, ran_inv [], by decide⟩

theorem witness_WireRoundTrip :
    (∃ (s : State) (d : Dir) (frame : List Byte), s.Inv ∧ s.rtu.state = .idle ∧
      d = (if s.cfg.getLsbD 1 then .request else .response) ∧ wellShaped d (rtuEncode frame) = true) ∧
    (∃ (s : State) (d : Dir) (frame : List Byte), s.Inv ∧ s.rtu.state = .idle ∧
      d = (if s.cfg.getLsbD 1 then .request else .response) ∧ wellShaped d (rtuEncode frame) = true ∧ d = .request) ∧
    ∃ (s : State) (frame frame' : List Byte), s.Inv ∧ s.asc.state = .idle ∧ frame.length = 2 ∧ frame'.length = 263 :=
  ⟨⟨State.reset, .response, [0x01, 0x01, 0x01, 0x81], ran_inv [], by decide⟩,
    ⟨ran [.cfgWr 2], .request, [0x02, 0x01, 0x00, 0x01, 0x00, 0x08], ran_inv _, by decide⟩,
    State.reset, [0x01, 0x02], List.replicate 263 0x01, ran_inv [], rfl, rfl, List.length_replicate⟩

/-- Both directions. -/
theorem witness_ExceptionResponseIsNoError :
    (∃ (s : State) (fc : Byte), s.Inv ∧ fc.getLsbD 7 = true ∧ s.cfg.getLsbD 1 = false ∧
      rtuEncode [0x01, fc, 0x02] = [0x01, fc, 0x02, 0xC1, 0x91]) ∧
    ∃ (s : State) (fc : Byte), s.Inv ∧ fc.getLsbD 7 = true ∧ s.cfg.getLsbD 1 = true :=
  ⟨⟨State.reset, 0x81, ran_inv [], by decide +kernel⟩, ran [.cfgWr 2], 0x80, ran_inv _, by decide +kernel⟩

theorem witness_AscPushDroppedAfterEnd : ∃ s : State, s.asc.state = .done :=
  ⟨ran (chars [0x0D, 0x0A]), by decide⟩

/-- Each control state. -/
theorem witness_AscControlTransitions :
    State.reset.asc.state = .idle ∧ (ran (chars [0x3A])).asc.state = .line ∧ (ran (chars [0x0D])).asc.state = .cr ∧
    (ran (chars [0x0D, 0x0A])).asc.state = .done := by decide

/-- A first character; a started line; a line that ends with no data character. -/
theorem witness_AscFirstCharacterMustBeColon :
    (∃ s : State, s.Inv ∧ s.asc.state = .idle ∧ s.asc.started = false ∧ (0x30 : Half).setWidth 8 ≠ (0x0D : Byte)) ∧
    (∃ s : State, s.asc.started = true ∧ s.asc.sof = true) ∧
    ∃ s t : State, s.asc.state = .cr ∧ s.asc.started = false ∧ exec (.ascPush 0x0A) s = .next t :=
  ⟨⟨State.reset, ran_inv [], by decide⟩, ⟨ran (chars [0x3A]), by decide⟩, ran (chars [0x0D]), _, by decide, by decide, rfl⟩

/-- The characters beside the hex digits (`/`, `:`, `@`, `G`, `a`, LF), and a pending CR. -/
theorem witness_AscNonHexIsFlaggedAndSkipped :
    (∃ s : State, s.asc.state = .line ∧ s.asc.started = true ∧
      ∀ c ∈ ([0x2F, 0x3A, 0x40, 0x47, 0x61, 0x0A] : List Byte), c ≠ 0x0D ∧ ¬(0x30 ≤ c.toNat ∧ c.toNat ≤ 0x39) ∧
        ¬(0x41 ≤ c.toNat ∧ c.toNat ≤ 0x46)) ∧
    ∃ s : State, s.asc.state = .cr ∧ s.asc.started = true :=
  ⟨⟨ran (chars [0x3A]), by decide⟩, ran (chars [0x3A, 0x0D]), by decide⟩

/-- `0`, `9`, `A`, `F`; a high nibble awaited, a low nibble awaited with room, and without. -/
theorem witness_AscHexPairs :
    (∃ s : State, s.asc.state = .line ∧ s.asc.started = true ∧ s.asc.phase = false) ∧
    (∃ s : State, s.asc.state = .line ∧ s.asc.started = true ∧ s.asc.phase = true ∧ s.asc.cnt.toNat ≠ 264 ∧
      (0x1F : Byte).toNat = 16 * s.asc.hi.toNat + 15) ∧
    (∃ s : State, s.asc.state = .line ∧ s.asc.started = true ∧ s.asc.phase = true ∧ s.asc.cnt.toNat = 264) ∧
    hexVal 0x30 = some 0 ∧ hexVal 0x39 = some 9 ∧ hexVal 0x41 = some 10 ∧ hexVal 0x46 = some 15 :=
  ⟨⟨ran (chars [0x3A]), by decide⟩, ⟨ran (chars [0x3A, 0x31]), by decide⟩,
    ⟨{ State.reset with asc := { AscDetector.reset with state := .line, started := true, phase := true, cnt := 264 } },
      by decide⟩, by decide⟩

theorem witness_AscEndOfLineJudges : ∃ s : State, s.Inv ∧ s.asc.state = .cr ∧ (0x0A : Half).setWidth 8 = (0x0A : Byte) :=
  ⟨ran (chars [0x3A, 0x31, 0x0D]), ran_inv _, by decide⟩

theorem witness_AscPendingCr :
    (∃ s : State, s.asc.state = .idle) ∧ (∃ s : State, s.asc.state = .line) ∧
    (∃ s : State, s.asc.state = .cr ∧ s.asc.started = true) ∧
    (∃ s : State, s.asc.state = .cr ∧ s.asc.started = false) ∧
    .ascClr ∉ chars [0x3A, 0x0D, 0x0D] ∧ noDelimiter (ascBytes (chars [0x3A, 0x0D, 0x0D])) = true ∧
    noDelimiter (ascBytes (chars [0x3A, 0x0D, 0x0D, 0x0A])) = false :=
  ⟨⟨State.reset, rfl⟩, ⟨ran (chars [0x3A]), by decide⟩, ⟨ran (chars [0x3A, 0x0D]), by decide⟩,
    ⟨ran (chars [0x0D]), by decide⟩, by decide⟩

/-- An empty line, and a line that holds a lone CR and ends in one, with other commands between. -/
theorem witness_AscWholeLine :
    ∃ s : State, s.Inv ∧ s.asc.state = .idle ∧
      (.ascClr ∉ chars [0x0D, 0x0A] ∧ ascBytes (chars [0x0D, 0x0A]) = [] ++ [0x0D, 0x0A] ∧
        noDelimiter ([] ++ [0x0D]) = true) ∧
      .ascClr ∉ (chars [0x3A, 0x0D, 0x31, 0x0D] ++ .ascStat :: chars [0x0D, 0x0A]) ∧
      ascBytes (chars [0x3A, 0x0D, 0x31, 0x0D] ++ .ascStat :: chars [0x0D, 0x0A]) =
        [0x3A, 0x0D, 0x31, 0x0D] ++ [0x0D, 0x0A] ∧
      noDelimiter ([0x3A, 0x0D, 0x31, 0x0D] ++ [0x0D]) = true :=
  ⟨State.reset, ran_inv [], by decide⟩

/-- A push that stores, one that does not, and a dropped one. -/
theorem witness_AscPushFrame :
    (∃ s t : State, s.Inv ∧ exec (.ascPush 0x32) s = .next t ∧ s.asc.storesPair 0x32 = true ∧ s.asc.phase = true) ∧
    (∃ s t : State, s.Inv ∧ exec (.ascPush 0x32) s = .next t ∧ s.asc.storesPair 0x32 = false ∧ s.asc.state ≠ .done) ∧
    ∃ s t : State, s.Inv ∧ exec (.ascPush 0x32) s = .next t ∧ s.asc.state = .done :=
  ⟨⟨ran (chars [0x3A, 0x31]), _, ran_inv _, rfl, by decide⟩, ⟨ran (chars [0x3A]), _, ran_inv _, rfl, by decide⟩,
    ran (chars [0x0D, 0x0A]), _, ran_inv _, rfl, by decide⟩

/-- An event without a command, a reserved word, and a parser that accepts index 0. -/
theorem witness_NopAndConfiguration :
    (∃ (s : State) (w : Cmd) (rest : List PortSample),
      s.inputs = { rst := false, cmdValid := false, cmd := w } :: rest) ∧
    decode 0x1A0000 = .reserved 0x1A ∧ State.reset.rtu.accepting = true ∧ State.reset.rtu.idx = 0 ∧
    (ran (pushes [0x01])).rtu.idx ≠ 0 ∧ Instr.rtuLen ≠ .rtuStat ∧ Instr.rtuLen.unit ≠ .cfg :=
  ⟨⟨{ State.reset with inputs := [⟨false, false, 0⟩] }, _, _, rfl⟩, by decide⟩

/-- Rows T8 and A3 of the vectors: a wrong CRC, a wrong LRC. -/
theorem witness_CheckFrameDecidesOnWrongChecksum :
    (∃ (s : State) (frame : List Byte) (x y : Byte), s.Inv ∧
      wellShaped (if s.cfg.getLsbD 1 then .request else .response) (frame ++ [x, y]) = true ∧
      ¬(x = (crc16 frame).setWidth 8 ∧ y = (crc16 frame >>> 8).setWidth 8)) ∧
    ∃ (s : State) (frame : List Byte) (x : Byte), s.Inv ∧ 2 ≤ frame.length ∧ frame.length ≤ 263 ∧ x ≠ lrc frame :=
  ⟨⟨State.reset, [0x01, 0x01, 0x01, 0x81], 0x91, 0xE9, ran_inv [], by decide +kernel⟩,
    State.reset, [0x02, 0x01, 0x00, 0x01, 0x00, 0x08], 0xF5, ran_inv [], by decide +kernel⟩

/-- Each cause. -/
theorem witness_CauseCodes :
    (∃ s : State, s.Inv ∧ s.rtu.state = .error) ∧
    (∃ s : State, s.Inv ∧ s.rtu.state = .done ∧ s.rtu.crcok = false ∧ s.cfg.getLsbD 0 = true) ∧
    (∃ s : State, s.Inv ∧ s.asc.state = .done ∧ s.asc.flags ≠ 0) ∧
    ∃ s : State, s.Inv ∧ s.asc.state = .done ∧ s.asc.flags = 0 ∧ s.asc.lrcok = false ∧ s.cfg.getLsbD 0 = true :=
  ⟨⟨ran (pushes [0x01, 0x00]), ran_inv _, by decide +kernel⟩,
    ⟨ran (pushes [0x01, 0x81, 0x02, 0xC1, 0x90]), ran_inv _, by decide +kernel⟩, ⟨ran (chars [0x0D, 0x0A]), ran_inv _, by decide +kernel⟩,
    ran (chars [0x3A, 0x30, 0x31, 0x30, 0x32, 0x30, 0x33, 0x0D, 0x0A]), ran_inv _, by decide +kernel⟩

end Sys2Proof.Tests
end

section
/-! The invariant of the block over one `clk` event and over a list of port samples (10_state.md rule R49). -/

namespace Sys2Proof.Machine

/-! ### One step -/

theorem State.Inv.setInputs {s : State} (h : s.Inv) (q : List PortSample) : (s.setInputs q).Inv := ⟨h.rtu, h.asc⟩

theorem State.Inv.respond {s : State} (h : s.Inv) (v : Half) : (s.respond v).Inv := ⟨h.rtu, h.asc⟩

theorem State.Inv.resetEvent {s : State} (h : s.Inv) : s.resetEvent.Inv :=
  ⟨RtuParser.inv_clear h.rtu.bufWf, AscDetector.inv_clear h.asc.bufWf⟩

/-- Reset is a clear of both units with empty buffers. -/
theorem State.inv_reset : State.reset.Inv :=
  ⟨RtuParser.inv_clear (r := RtuParser.reset) Memory.wf_nil,
    AscDetector.inv_clear (a := AscDetector.reset) Memory.wf_nil⟩

/-- Settles O11, by the laws of the two clears. -/
theorem invariantHoldsAtReset : Obligations.InvariantHoldsAtReset := State.inv_reset

/-- Settles O12, by the three things a step can do: reset, apply one command, or only respond. -/
theorem stepKeepsInvariant : Obligations.StepKeepsInvariant := by
  intro s t hs ht
  have hq := hs.setInputs s.inputs.tail
  rcases step_cases s with e | ⟨i, e⟩ | e <;> obtain rfl := Host.Outcome.next.inj (e.symm.trans ht)
  · exact hq.resetEvent
  · exact hq.after i
  · exact hq.respond 0

/-! ### The history of item (vi) -/

/-- The history of samples is taken one sample at a time, as a run takes them. -/
theorem pushedSinceClear_cons (was : Bool) (p : PortSample) (rest : List PortSample) :
    pushedSinceClear was (p :: rest) = pushedSinceClear (pushedSinceClear was [p]) rest := by
  simp only [pushedSinceClear]
  split_ifs
  · rfl
  · split <;> rfl
  · rfl

/-- `a_state` is IDLE exactly when nothing has been pushed since the last clear, `was` saying whether something has. -/
def State.tracksPushes (s : State) (was : Bool) : Prop := s.asc.state = .idle ↔ was = false

/-- A clear forgets the pushes before it, a push is one more, every other command leaves the detector. -/
theorem State.tracksPushes.after {s : State} {was : Bool} (h : s.tracksPushes was) {w : Cmd} {i : Instr}
    (hd : decode w = .instr i) : (s.after i).tracksPushes (pushedSinceClear was [commandSample w]) := by
  simp only [State.tracksPushes, State.after_asc, pushedSinceClear, commandSample, hd]
  cases i with
  | ascClr => simp [AscDetector.clear, AscDetector.reset]
  | ascPush x => simp [AscDetector.push_state_ne_idle]
  | _ => exact h

/-- A `clk` event takes no later sample and keeps the history of pushes. -/
theorem clkEvent_tracksPushes (p : PortSample) {s : State} {was : Bool} (h : s.tracksPushes was) :
    ∃ t, clkEvent p s = .next t ∧ t.inputs = s.inputs ∧ t.tracksPushes (pushedSinceClear was [p]) := by
  obtain ⟨rst, valid, w⟩ := p
  cases rst with
  | true => exact ⟨s.resetEvent, rfl, rfl, iff_of_true rfl rfl⟩
  | false =>
    cases valid with
    | false => exact ⟨s.respond 0, rfl, rfl, h⟩
    | true =>
      cases hd : decode w with
      | instr i =>
        exact ⟨s.after i, (applyCommand_instr hd s).trans (exec_eq_after i s), s.after_inputs i, h.after hd⟩
      | reserved op =>
        have hsame : pushedSinceClear was [⟨false, true, w⟩] = was := by simp [pushedSinceClear, hd]
        exact ⟨s.respond 0, applyCommand_reserved hd s, rfl, by rw [hsame]; exact h⟩

/-! ### Runs of port samples -/

/-- A run takes every sample, and keeps the invariant and the history of pushes. -/
theorem runSteps_keeps (q : List PortSample) {s : State} {was : Bool} (hq : s.inputs = q) (hs : s.Inv)
    (hw : s.tracksPushes was) :
    ∃ t, runSteps q.length s = .next t ∧ t.Inv ∧ t.tracksPushes (pushedSinceClear was q) := by
  induction q generalizing s was with
  | nil => exact ⟨s, rfl, hs, hw⟩
  | cons p rest ih =>
    obtain ⟨u, hu, hin, hwu⟩ := clkEvent_tracksPushes p (s := s.setInputs rest) hw
    have hstep : step s = .next u := (step_cons hq).trans hu
    obtain ⟨t, ht, htInv, hwt⟩ := ih hin (stepKeepsInvariant s u hs hstep) hwu
    refine ⟨t, ?_, htInv, pushedSinceClear_cons was p rest ▸ hwt⟩
    simpa only [List.length_cons, runSteps, hstep] using ht

/-- Settles O13: every item is a field of the invariant, but for the history of item (vi), which the run keeps. -/
theorem reachableStatesKeepRegisterRelations : Obligations.ReachableStatesKeepRegisterRelations := by
  intro q
  obtain ⟨t, ht, hinv, hw⟩ := runSteps_keeps q (s := State.reset.setInputs q) (was := false) rfl
    (State.inv_reset.setInputs q) (iff_of_true rfl rfl)
  obtain ⟨hr, ha⟩ := hinv
  have hopen : t.asc.state ≠ .done → t.asc.flag .odd = false ∧ t.asc.flag .short = false := fun hs =>
    ⟨(ha.isOpen hs).odd, (ha.isOpen hs).short⟩
  exact ⟨t, ht, ⟨hr.idxBound, ha.cntBound⟩, hr.unknown, hr.known, hr.idleIff, hr.doneIff, hr.errorHolds, hr.crcokDone,
    hr.excHolds, hr.errIff, hr.ovrEnd, ha.ovrDone, hw, ha.idleClear, ha.lrcokDone, hopen, ha.sumCovers, hr.crcCovers⟩

end Sys2Proof.Machine
end

section
/-! Which command writes a register, and on what a command's effect and response depend (10_state.md rule R23). -/

namespace Sys2Proof.Machine

variable {i : Instr} {s s' : State}

/-! ### The writers of each register group -/

theorem State.crc_writer (h : (s.after i).crc ≠ s.crc) : i = .crcInit ∨ ∃ x, i = .crcUpd x := by
  rw [State.after_crc] at h
  cases i with
  | crcInit => exact .inl rfl
  | crcUpd x => exact .inr ⟨x, rfl⟩
  | _ => exact absurd rfl h

theorem State.lsum_writer (h : (s.after i).lsum ≠ s.lsum) : i = .lrcInit ∨ ∃ x, i = .lrcUpd x := by
  rw [State.after_lsum] at h
  cases i with
  | lrcInit => exact .inl rfl
  | lrcUpd x => exact .inr ⟨x, rfl⟩
  | _ => exact absurd rfl h

theorem State.cfg_writer (h : (s.after i).cfg ≠ s.cfg) : ∃ x, i = .cfgWr x := by
  rw [State.after_cfg] at h
  cases i with
  | cfgWr x => exact ⟨x, rfl⟩
  | _ => exact absurd rfl h

theorem State.rtu_writer (h : (s.after i).rtu ≠ s.rtu) : i = .rtuClr ∨ ∃ x, i = .rtuPush x := by
  rw [State.after_rtu] at h
  cases i with
  | rtuClr => exact .inl rfl
  | rtuPush x => exact .inr ⟨x, rfl⟩
  | _ => exact absurd rfl h

theorem State.asc_writer (h : (s.after i).asc ≠ s.asc) : i = .ascClr ∨ ∃ x, i = .ascPush x := by
  rw [State.after_asc] at h
  cases i with
  | ascClr => exact .inl rfl
  | ascPush x => exact .inr ⟨x, rfl⟩
  | _ => exact absurd rfl h

/-! ### What a unit's effects and responses depend on -/

theorem State.after_rsp_congr_crc (hu : i.unit = .crc) (h : s.crc = s'.crc) : (s.after i).rsp = (s'.after i).rsp := by
  rw [State.after_rsp, State.after_rsp]
  cases i with
  | crcRd => exact h
  | crcInit | crcUpd => rfl
  | _ => simp [Instr.unit] at hu

theorem State.after_rsp_congr_lrc (hu : i.unit = .lrc) (h : s.lsum = s'.lsum) :
    (s.after i).rsp = (s'.after i).rsp := by
  rw [State.after_rsp, State.after_rsp]
  cases i with
  | lrcRd => rw [h]
  | lrcInit | lrcUpd => rfl
  | _ => simp [Instr.unit] at hu

/-- The RTU parser's responses depend on the parser alone, `RTU.STAT` on `CHECK_FRAME` too. -/
theorem State.after_rsp_congr_rtu (hu : i.unit = .rtu) (h : s.rtu = s'.rtu)
    (hc : i = .rtuStat → s.checkFrame = s'.checkFrame) : (s.after i).rsp = (s'.after i).rsp := by
  rw [State.after_rsp, State.after_rsp]
  cases i with
  | rtuStat => rw [h, hc rfl]
  | rtuClr | rtuPush | rtuRdb | rtuLen | rtuCnt | rtuCrc => simp only [h]
  | _ => simp [Instr.unit] at hu

/-- The ASCII detector's responses depend on the detector alone, `ASC.STAT` on `CHECK_FRAME` too. -/
theorem State.after_rsp_congr_asc (hu : i.unit = .asc) (h : s.asc = s'.asc)
    (hc : i = .ascStat → s.checkFrame = s'.checkFrame) : (s.after i).rsp = (s'.after i).rsp := by
  rw [State.after_rsp, State.after_rsp]
  cases i with
  | ascStat => rw [h, hc rfl]
  | ascClr | ascPush | ascRdb | ascCnt | ascSum => simp only [h]
  | _ => simp [Instr.unit] at hu

/-- The parser after a command depends on the parser, and on `RTU_DIR` only where the push at index 0 latches it
(rule R160). -/
theorem State.after_rtu_congr_latch (h : s.rtu = s'.rtu)
    (hd : (∃ x, i = .rtuPush x) → s.rtu.idx = 0 → s.rtuDir = s'.rtuDir) : (s.after i).rtu = (s'.after i).rtu := by
  rw [State.after_rtu, State.after_rtu]
  cases i with
  | rtuPush x =>
    simp only [← h]
    by_cases h0 : s.rtu.idx = 0
    · rw [hd ⟨x, rfl⟩ h0]
    · exact RtuParser.push_dir h0 _ _
  | _ => simp only [h]

/-- Settles O14, register by register for the writers and unit by unit for the dependences. -/
theorem commandsTouchOnlyTheirUnit : Obligations.CommandsTouchOnlyTheirUnit := by
  refine ⟨fun i s t h => ?_, fun w op s h => applyCommand_reserved h s, fun i s s' t t' h h' => ?_⟩
  · obtain rfl := exec_next_iff.mp h
    exact ⟨State.crc_writer, State.lsum_writer, State.cfg_writer, State.rtu_writer, State.asc_writer, s.after_inputs i⟩
  · obtain rfl := exec_next_iff.mp h
    obtain rfl := exec_next_iff.mp h'
    refine ⟨?nop, ?crcInit, ?crc, ?lrcInit, ?lrc, ?rtuClr, ?rtu, ?ascClr, ?asc, ?cfgWr, ?cfgRd⟩
    case nop => rintro rfl; rfl
    case crcInit => rintro rfl; exact ⟨rfl, rfl⟩
    case crc => exact fun hu hc => ⟨State.after_crc_congr i hc, State.after_rsp_congr_crc hu hc⟩
    case lrcInit => rintro rfl; exact ⟨rfl, rfl⟩
    case lrc => exact fun hu hl => ⟨State.after_lsum_congr i hl, State.after_rsp_congr_lrc hu hl⟩
    case rtuClr => rintro rfl; exact ⟨rfl, rfl⟩
    case rtu =>
      exact fun hu hr hc hd =>
        ⟨State.after_rtu_congr_latch hr fun hx h0 => congrArg dirOfBit (hd hx h0), State.after_rsp_congr_rtu hu hr hc⟩
    case ascClr => rintro rfl; exact ⟨rfl, rfl⟩
    case asc => exact fun hu ha hc => ⟨State.after_asc_congr i ha, State.after_rsp_congr_asc hu ha hc⟩
    case cfgWr => rintro ⟨x, rfl⟩; exact ⟨rfl, rfl⟩
    case cfgRd => rintro rfl hc; exact congrArg (BitVec.setWidth 16) hc

end Sys2Proof.Machine
end

section
/-! What `RTU.PUSH` and `ASC.PUSH` change and leave unchanged (42_rtu_parser.md R158,
43_ascii_detector.md R193, R194). -/

namespace Sys2Proof.Machine

/-! ### The RTU parser -/

variable {r : RtuParser} {dir : Dir} {b : Byte}

theorem RtuParser.ended_of_not_accepting (h : r.accepting = false) : r.state = .done ∨ r.state = .error := by
  cases hs : r.state <;> simp_all [RtuParser.accepting]

theorem RtuParser.open_of_accepting (h : r.accepting = true) : r.state = .idle ∨ r.state = .recv := by
  simpa [RtuParser.accepting] using h

/-- Inference writes `r_len` only together with `r_lenk`. -/
theorem RtuParser.infer_len {q : RtuParser} {i : Idx} :
    (q.infer i b).lenk = true ∨ (q.infer i b).lenk = q.lenk ∧ (q.infer i b).len = q.len := by
  unfold RtuParser.infer RtuParser.inferAtCode
  split_ifs
  · split <;> simp [RtuParser.setLen]
  all_goals simp [RtuParser.setLen]

/-- Folding and completion leave the length that inference gives. -/
theorem RtuParser.advance_len {q : RtuParser} {i : Idx} :
    (q.advance i b).len = (q.infer i b).len ∧ (q.advance i b).lenk = (q.infer i b).lenk := by
  simp only [RtuParser.advance]
  rw [RtuParser.complete_frame, RtuParser.foldCrc_frame]
  exact ⟨rfl, rfl⟩

/-- An accepted byte changes `r_len` only with `r_lenk`: a byte that comes when the length is known settles none. -/
theorem RtuParser.Inv.accept_len (h : r.Inv) (hk : (r.accept dir b).lenk = r.lenk) :
    (r.accept dir b).len = r.len := by
  by_cases hu : r.idx = 1 ∧ lenClass (r.store dir b).dir b = .unsupported
  · simp only [RtuParser.accept]
    rw [if_pos hu]; rfl
  · rw [RtuParser.accept_advance hu] at hk ⊢
    rw [RtuParser.advance_len.2] at hk
    rw [RtuParser.advance_len.1]
    rcases RtuParser.infer_len (q := r.store dir b) (i := r.idx) (b := b) with hknown | ⟨-, hlen⟩
    · have hlenk : r.lenk = true := hk.symm.trans hknown
      have hpos := (h.inferred hlenk).2
      rw [RtuParser.infer_settlesNothing h.bufWf (ne_zero_of_toNat_pos (by omega)) (h.settlesNothing hlenk)]
      rfl
    · exact hlen

/-- Within the invariant the 9-bit index does not wrap. -/
theorem RtuParser.Inv.toNat_accept_idx (h : r.Inv) : (r.accept dir b).idx.toNat = r.idx.toNat + 1 := by
  obtain ⟨-, -, -, hidx, -⟩ := RtuParser.accept_frame (r := r) (dir := dir) (b := b)
  have hbound := h.idxBound
  rw [hidx, toNat_succ (by simp only [Config.bufBytes] at hbound; omega)]

/-- Settles O36: a dropped push sets `r_ovr` alone; an accepted one is `RtuParser.accept_frame`. -/
theorem rtuPushFrame : Obligations.RtuPushFrame := by
  intro x s t hinv ht
  obtain rfl := Host.Outcome.next.inj ht
  refine ⟨rfl, rfl, rfl, rfl, rfl, rfl, ?_⟩
  simp only [State.memRead, State.respond_rtu, State.setRtu_rtu]
  generalize operandByte x = b
  cases hacc : s.rtu.accepting with
  | false =>
    rw [RtuParser.push_dropped (RtuParser.ended_of_not_accepting hacc)]
    simp
  | true =>
    rw [RtuParser.push_accept (RtuParser.open_of_accepting hacc)]
    obtain ⟨hdir, hbuf, hovr, -, herr, hcode, hcrcok⟩ :=
      RtuParser.accept_frame (r := s.rtu) (dir := s.rtuDir) (b := b)
    refine ⟨fun h0 => by rw [hdir, if_neg h0], hcode, herr, fun _ => ⟨hovr, hinv.rtu.toNat_accept_idx⟩, nofun, hcrcok,
      hinv.rtu.accept_len, fun a ha => ?_⟩
    rw [hbuf, Memory.read_write_other hinv.rtu.bufWf (ha rfl)]

/-! ### The ASCII detector -/

variable {a : AscDetector} {c : Byte}

/-- With no CR pending a push stores a pair where its data character completes one. -/
theorem AscDetector.storesPair_take (hs : a.state = .idle ∨ a.state = .line) :
    a.storesPair c = a.completesPair c := by
  rcases hs with hs | hs <;> simp [AscDetector.storesPair, AscDetector.completesPair, hs]

/-- A pending CR that is consumed counts as the first data character of the line. -/
theorem AscDetector.storesPair_pending (hs : a.state = .cr) : a.storesPair c = (a.data charCr).completesPair c := by
  rw [AscDetector.data_cr]
  simp [AscDetector.storesPair, AscDetector.completesPair, hs]

theorem AscDetector.data_cr_keeps : (a.data charCr).phase = a.phase ∧ (a.data charCr).hi = a.hi ∧
    (a.data charCr).cnt = a.cnt ∧ (a.data charCr).sum = a.sum ∧ (a.data charCr).buf = a.buf := by
  simp [AscDetector.data_cr]

/-- What handling the pushed character leaves of an unfinished line, a CR that was pending consumed before it or not. -/
structure AscDetector.KeptBy (a a' : AscDetector) (c : Byte) : Prop where
  ovr    : a'.ovr = a.ovr
  judged : a'.state ≠ .done →
             a'.lrcok = a.lrcok ∧ a'.flag .odd = a.flag .odd ∧ a'.flag .short = a.flag .short
  hi     : a.phase = true ∨ hexVal c = none → a'.hi = a.hi
  flags  : ∀ f, a.flag f = true → a'.flag f = true
  noPair : a.storesPair c = false → a'.cnt = a.cnt ∧ a'.sum = a.sum ∧ a'.buf = a.buf
  pair   : a.storesPair c = true → a'.buf = a.buf.write a.cnt.toNat (a.pairByte c)

theorem AscDetector.keptBy_take (hs : a.state = .idle ∨ a.state = .line) : a.KeptBy (a.take c) c := by
  obtain ⟨hlrcok, hovr, hodd, hshort, hflags, hhi, hno, hpair⟩ := a.take_frame c
  rw [← AscDetector.storesPair_take hs] at hno hpair
  exact ⟨hovr, fun _ => ⟨hlrcok, hodd, hshort⟩, hhi, hflags, hno, hpair⟩

theorem AscDetector.keptBy_pending (hs : a.state = .cr) : a.KeptBy ((a.data charCr).take c) c := by
  obtain ⟨hlrcok, hovr, hodd, hshort, hflags, hhi, hno, hpair⟩ := (a.data charCr).take_frame c
  obtain ⟨-, dlrcok, dovr, -⟩ := AscDetector.data_keeps (a := a) (c := charCr)
  obtain ⟨dodd, dshort, dflags, -⟩ := a.data_frame charCr
  obtain ⟨dphase, dhi, dcnt, dsum, dbuf⟩ := AscDetector.data_cr_keeps (a := a)
  rw [← AscDetector.storesPair_pending hs] at hno hpair
  rw [dphase, dhi] at hhi
  rw [dcnt, dsum, dbuf] at hno
  rw [AscDetector.pairByte, dhi, dcnt, dbuf] at hpair
  exact ⟨hovr.trans dovr, fun _ => ⟨hlrcok.trans dlrcok, hodd.trans dodd, hshort.trans dshort⟩, hhi,
    fun f hf => hflags f (dflags f hf), hno, hpair⟩

/-- The end delimiter stores no pair and clears no flag (rule R200). -/
theorem AscDetector.keptBy_endLine : a.KeptBy a.endLine charLf where
  ovr := AscDetector.endLine_ovr
  judged h := absurd AscDetector.endLine_state h
  hi _ := AscDetector.endLine_hi
  flags f hf := by simp [AscDetector.endLine_flag, hf]
  noPair _ := ⟨AscDetector.endLine_cnt, AscDetector.endLine_sum, AscDetector.endLine_buf⟩
  pair h := by simp [AscDetector.storesPair] at h

/-- What a push leaves of an unfinished line (rules R193, R194). -/
theorem AscDetector.keptBy_push (hs : a.state ≠ .done) : a.KeptBy (a.push c) c := by
  cases hst : a.state with
  | done => exact absurd hst hs
  | idle => rw [AscDetector.push_take (.inl hst)]; exact AscDetector.keptBy_take (.inl hst)
  | line => rw [AscDetector.push_take (.inr hst)]; exact AscDetector.keptBy_take (.inr hst)
  | cr =>
    by_cases hc : c = charLf
    · subst hc; rw [AscDetector.push_end hst]; exact AscDetector.keptBy_endLine
    · rw [AscDetector.push_pending hst hc]; exact AscDetector.keptBy_pending hst

/-- Settles O54: a dropped push sets `a_ovr` alone; any other is `AscDetector.keptBy_push`. -/
theorem ascPushFrame : Obligations.AscPushFrame := by
  intro x s t c hc hinv ht
  obtain rfl := Host.Outcome.next.inj ht
  have hop : operandByte x = c := hc.symm
  refine ⟨rfl, rfl, rfl, rfl, rfl, rfl, ?_⟩
  simp only [State.memRead, State.respond_asc, State.setAsc_asc, hop]
  by_cases hs : s.asc.state = .done
  · rw [AscDetector.push_dropped hs]
    exact ⟨fun _ => rfl, fun h => absurd hs h, fun _ => ⟨rfl, rfl, rfl⟩, fun _ => rfl, fun _ hf => hf,
      fun _ => ⟨rfl, rfl⟩, fun _ _ => rfl⟩
  · obtain ⟨hovr, hjudged, hhi, hflags, hno, hpair⟩ := AscDetector.keptBy_push (c := c) hs
    refine ⟨fun h => absurd h hs, fun _ => hovr, hjudged, hhi, hflags,
      fun h => ⟨(hno h).1, (hno h).2.1⟩, fun i hi => ?_⟩
    cases hst : s.asc.storesPair c with
    | false => rw [(hno hst).2.2]
    | true => rw [hpair hst, Memory.read_write_other hinv.asc.bufWf (hi hst)]

end Sys2Proof.Machine
end

section
/-! Steps with and without a command, the read views, the status words and the level outputs (10_state.md R41 to R45). -/

namespace Sys2Proof.Machine

/-! ### Steps -/

/-- A table word that the decoder accepts is the 24-bit word of its low `nbits` bits. -/
theorem decode_of_decodeTableWord {nbits w : Nat} {i : Instr} (h : decodeTableWord nbits w = some i) :
    decode (BitVec.ofNat 24 (w % 2 ^ nbits)) = .instr i := by
  unfold decodeTableWord at h
  split at h
  · next j hj => rw [hj, Option.some.inj h]
  · cases h

/-- Settles O1: `withFetchWord` puts the word in front of the samples already waiting, so that one step takes it. -/
theorem stepAppliesDecodedCommand : Obligations.StepAppliesDecodedCommand := by
  refine ⟨fun s w rest i hq hd => ?_, fun s nbits w i hd => ?_⟩
  · rw [step_command hq, applyCommand_instr hd]; rfl
  · have hq : (s.withFetchWord nbits w).inputs = commandSample (BitVec.ofNat 24 (w % 2 ^ nbits)) :: s.inputs := rfl
    rw [step_command hq, applyCommand_instr (decode_of_decodeTableWord hd)]; rfl

/-- Settles O3, by the two steps that only respond. -/
theorem noCommandChangesNothing : Obligations.NoCommandChangesNothing :=
  ⟨fun _ _ _ hq => step_idle hq, fun _ hq => step_nil hq⟩

/-! ### The read views -/

/-- The LRC as rule R143 writes it. -/
theorem toNat_negSum (v : Byte) : (negSum v).toNat = (0x100 - v.toNat) &&& 0xFF := by
  rw [show (0xFF : Nat) = 2 ^ 8 - 1 from rfl, Nat.and_two_pow_sub_one_eq_mod]
  simp [negSum]

/-- Settles O16: each read only responds, and its word is the register, zero-extended where it is narrower. -/
theorem readViewsChangeNothing : Obligations.ReadViewsChangeNothing := by
  intro s
  rw [← toNat_negSum]
  simp only [← zext16_eq_ofNat]
  exact ⟨rfl, rfl, rfl, rfl, rfl, rfl, rfl, rfl⟩

/-! ### The status words -/

theorem Dir.bit_eq (d : Dir) : d.bit = decide (d = .request) := by cases d <;> rfl

/-- Settles O38, by the fields of `RTU_STAT`. -/
theorem rtuStatusWord : Obligations.RtuStatusWord := by
  refine ⟨codedAs_of_opcode (i := .rtuStat) rfl (fun _ => rfl) (by decide), fun s => ⟨_, rfl, ?_⟩⟩
  obtain ⟨hstate, hlenk, hdir, hcrcok, hframe, hovr, hexc, herr, hzero⟩ := s.rtu.stat_fields s.checkFrame
  refine ⟨?_, hlenk, hdir.trans s.rtu.dir.bit_eq, hcrcok, hframe, hovr, hexc, ?_, hzero⟩
  · rw [hstate]; cases s.rtu.state <;> rfl
  · rw [herr, RtuParser.errCode, apply_ite BitVec.toNat, apply_ite BitVec.toNat]; rfl

/-- Settles O51, by the fields of `ASC_STAT`. -/
theorem ascStatusWord : Obligations.AscStatusWord := by
  refine ⟨codedAs_of_opcode (i := .ascStat) rfl (fun _ => rfl) (by decide), fun s => ⟨_, rfl, ?_⟩⟩
  obtain ⟨hstate, hsof, heof, hlrcok, hframe, hovr, hzero, herr, hflags⟩ := s.asc.stat_fields s.checkFrame
  refine ⟨?_, hsof, heof, hlrcok, hframe, hovr, hzero, ?_, hflags⟩
  · rw [hstate]; cases s.asc.state <;> rfl
  · rw [herr, AscDetector.errCode, apply_ite BitVec.toNat, apply_ite BitVec.toNat, apply_ite BitVec.toNat]; rfl

/-! ### The level outputs -/

theorem bne_zero_eq_decide_toNat {n : Nat} (x : BitVec n) : (x != 0) = decide (x.toNat ≠ 0) := by
  rw [Bool.eq_iff_iff]; simp [BitVec.toNat_eq]

/-- Settles O59: each output is a register or a field of the word the status read answers. -/
theorem levelOutputsMirrorStatus : Obligations.LevelOutputsMirrorStatus := by
  intro s
  obtain ⟨-, -, -, -, rframe, -, -, rerr, -⟩ := s.rtu.stat_fields s.checkFrame
  obtain ⟨-, asof, aeof, -, aframe, -, -, aerr, -⟩ := s.asc.stat_fields s.checkFrame
  refine ⟨_, _, rfl, rfl, rfl, toNat_negSum s.lsum, rfl, ?_, rframe.symm, rfl, asof.symm, aeof.symm, ?_, aframe.symm⟩
  · exact (bne_zero_eq_decide_toNat _).trans (by rw [← rerr]; rfl)
  · exact (bne_zero_eq_decide_toNat _).trans (by rw [← aerr]; rfl)

end Sys2Proof.Machine
end

section
/-! Who writes the frame buffers, and which adjacent commands may be swapped (20_memory.md R61, R72). -/

namespace Sys2Proof.Machine

/-! ### The bytes a push writes -/

/-- What `RTU.PUSH` leaves in `RBUF`: the pushed byte at `r_idx` where it is accepted, every other byte as it was. -/
theorem RtuParser.Inv.read_push {r : RtuParser} (h : r.Inv) (dir : Dir) (b : Byte) (k : Nat) :
    (r.push dir b).buf.read k = if r.accepting = true ∧ k = r.idx.toNat then b else r.buf.read k := by
  cases hacc : r.accepting with
  | false =>
    rw [RtuParser.push_dropped (RtuParser.ended_of_not_accepting hacc)]
    simp
  | true =>
    obtain ⟨-, hbuf, -⟩ := RtuParser.accept_frame (r := r) (dir := dir) (b := b)
    rw [RtuParser.push_accept (RtuParser.open_of_accepting hacc), hbuf]
    by_cases hk : k = r.idx.toNat
    · rw [hk, Memory.read_write_self h.bufWf (h.idx_lt hacc), if_pos ⟨rfl, rfl⟩]
    · rw [Memory.read_write_other h.bufWf hk, if_neg fun hc => hk hc.2]

/-- A pair is stored only where `ABUF` has room. -/
theorem AscDetector.Inv.cnt_lt {a : AscDetector} (h : a.Inv) {c : Byte} (hp : a.storesPair c = true) :
    a.cnt.toNat < Config.bufBytes := by
  have hroom : a.cnt.toNat ≠ Config.bufBytes := by
    simp only [AscDetector.storesPair, Bool.and_eq_true, decide_eq_true_eq] at hp
    exact hp.2
  exact Nat.lt_of_le_of_ne h.cntBound hroom

theorem AscDetector.storesPair_of_done {a : AscDetector} (hs : a.state = .done) (c : Byte) :
    a.storesPair c = false := by
  simp [AscDetector.storesPair, hs]

/-- What `ASC.PUSH` leaves in `ABUF`: the decoded byte at `a_cnt` where it completes a pair with room, every other byte
as it was. -/
theorem AscDetector.Inv.read_push {a : AscDetector} (h : a.Inv) (c : Byte) (k : Nat) :
    (a.push c).buf.read k = if a.storesPair c = true ∧ k = a.cnt.toNat then a.pairByte c else a.buf.read k := by
  by_cases hs : a.state = .done
  · rw [AscDetector.push_dropped hs, AscDetector.storesPair_of_done hs]
    simp
  · have hkept := AscDetector.keptBy_push (c := c) hs
    cases hp : a.storesPair c with
    | false =>
      obtain ⟨-, -, hbuf⟩ := hkept.noPair hp
      simp [hbuf]
    | true =>
      rw [hkept.pair hp]
      by_cases hk : k = a.cnt.toNat
      · rw [hk, Memory.read_write_self h.bufWf (h.cnt_lt hp), if_pos ⟨rfl, rfl⟩]
      · rw [Memory.read_write_other h.bufWf hk, if_neg fun hc => hk hc.2]

/-- Settles O35: only the two pushes write, each as its `read_push` says; the clears and reset keep the buffers. -/
theorem buffersWrittenOnlyByPushes : Obligations.BuffersWrittenOnlyByPushes := by
  refine ⟨fun i s t hinv ht k => ?_, fun s t v w rest hq ht k => ?_⟩
  · obtain rfl := exec_next_iff.mp ht
    simp only [State.memRead, State.after_rtu, State.after_asc]
    constructor
    · cases i with
      | rtuPush x => exact hinv.rtu.read_push s.rtuDir (operandByte x) k
      | _ => rfl
    · cases i with
      | ascPush x => exact hinv.asc.read_push (operandByte x) k
      | _ => rfl
  · obtain rfl := Host.Outcome.next.inj ((step_reset hq).symm.trans ht)
    exact ⟨rfl, rfl⟩

/-! ### What a command to another unit leaves to the command after it -/

variable {i j : Instr} {s : State}

theorem cfgConflict_comm (s : State) (i j : Instr) : cfgConflict s i j = cfgConflict s j i := by
  cases i <;> cases j <;> rfl

/-- The direction that `cfg` selects reaches a parser through the push that accepts index 0 alone (rule R160). -/
theorem RtuParser.push_dir_of_not_latching {r : RtuParser} (h : (r.accepting && decide (r.idx = 0)) = false)
    (d d' : Dir) (b : Byte) : r.push d b = r.push d' b := by
  by_cases h0 : r.idx = 0
  · have hended := RtuParser.ended_of_not_accepting (r := r) (by simpa [h0] using h)
    rw [RtuParser.push_dropped hended, RtuParser.push_dropped hended]
  · exact RtuParser.push_dir h0 d d'

theorem State.after_rsp_congr_cfg {s s' : State} (hu : i.unit = .cfg) (h : s.cfg = s'.cfg) :
    (s.after i).rsp = (s'.after i).rsp := by
  rw [State.after_rsp, State.after_rsp]
  cases i with
  | cfgRd => rw [h]
  | cfgWr => rfl
  | _ => simp [Instr.unit] at hu

/-- Before a status read only a conflicting command writes `cfg`. -/
theorem State.checkFrame_after (hc : cfgConflict s i j = false) (hj : j = .rtuStat ∨ j = .ascStat) :
    (s.after i).checkFrame = s.checkFrame := by
  by_contra hne
  obtain ⟨x, rfl⟩ := State.cfg_writer fun hcfg => hne (congrArg (·.getLsbD 0) hcfg)
  rcases hj with rfl | rfl <;> simp [cfgConflict] at hc

/-- A command to another unit that does not conflict leaves what `j` does to the parser. -/
theorem State.after_after_rtu (hi : i.unit ≠ .rtu) (hc : cfgConflict s i j = false) :
    ((s.after i).after j).rtu = (s.after j).rtu := by
  rw [State.after_rtu _ j, State.after_rtu s j, State.after_rtu_other s hi]
  cases j with
  | rtuPush x =>
    by_cases hcfg : (s.after i).cfg = s.cfg
    · rw [State.rtuDir, hcfg, ← State.rtuDir]
    · obtain ⟨y, rfl⟩ := State.cfg_writer hcfg
      exact RtuParser.push_dir_of_not_latching hc _ _ _
  | _ => rfl

/-- A command to another unit that does not conflict leaves the response of `j`. -/
theorem State.after_after_rsp (hu : i.unit ≠ j.unit) (hc : cfgConflict s i j = false) :
    ((s.after i).after j).rsp = (s.after j).rsp := by
  cases hj : j.unit <;> rw [hj] at hu
  case none =>
    cases j with
    | nop => rfl
    | _ => simp [Instr.unit] at hj
  case crc => exact State.after_rsp_congr_crc hj (s.after_crc_other hu)
  case lrc => exact State.after_rsp_congr_lrc hj (s.after_lsum_other hu)
  case rtu =>
    exact State.after_rsp_congr_rtu hj (s.after_rtu_other hu) fun hstat => State.checkFrame_after hc (.inl hstat)
  case asc =>
    exact State.after_rsp_congr_asc hj (s.after_asc_other hu) fun hstat => State.checkFrame_after hc (.inr hstat)
  case cfg => exact State.after_rsp_congr_cfg hj (s.after_cfg_other hu)

/-! ### Swapping two commands -/

/-- A register of unit `u` does not see the order of two commands to different units: one of the two leaves it, and
where the one before leaves what the other does to it, so does the one after. -/
theorem State.after_after_swap {α : Type} {f : State → α} {u : BlockUnit} (hu : i.unit ≠ j.unit)
    (hkeep : ∀ (t : State) {k : Instr}, k.unit ≠ u → f (t.after k) = f t)
    (hi : i.unit ≠ u → f ((s.after i).after j) = f (s.after j))
    (hj : j.unit ≠ u → f ((s.after j).after i) = f (s.after i)) :
    f ((s.after i).after j) = f ((s.after j).after i) := by
  by_cases h : i.unit = u
  · have hju : j.unit ≠ u := fun e => hu (h.trans e.symm)
    rw [hj hju, hkeep _ hju]
  · rw [hi h, hkeep _ h]

/-- Both orders of two commands to different units that do not conflict give one state but for the response. -/
theorem State.eraseRsp_after_after (hu : i.unit ≠ j.unit) (hc : cfgConflict s i j = false) :
    ((s.after i).after j).eraseRsp = ((s.after j).after i).eraseRsp := by
  have hc' : cfgConflict s j i = false := (cfgConflict_comm s j i).trans hc
  refine State.ext_fields ?crc ?lsum ?cfg ?rtu ?asc rfl ?inputs
  case crc =>
    exact State.after_after_swap (f := State.crc) hu State.after_crc_other
      (fun h => State.after_crc_congr j (s.after_crc_other h)) (fun h => State.after_crc_congr i (s.after_crc_other h))
  case lsum =>
    exact State.after_after_swap (f := State.lsum) hu State.after_lsum_other
      (fun h => State.after_lsum_congr j (s.after_lsum_other h))
      (fun h => State.after_lsum_congr i (s.after_lsum_other h))
  case cfg =>
    exact State.after_after_swap (f := State.cfg) hu State.after_cfg_other
      (fun h => State.after_cfg_congr j (s.after_cfg_other h)) (fun h => State.after_cfg_congr i (s.after_cfg_other h))
  case rtu =>
    exact State.after_after_swap (f := State.rtu) hu State.after_rtu_other
      (fun h => State.after_after_rtu h hc) (fun h => State.after_after_rtu h hc')
  case asc =>
    exact State.after_after_swap (f := State.asc) hu State.after_asc_other
      (fun h => State.after_asc_congr j (s.after_asc_other h)) (fun h => State.after_asc_congr i (s.after_asc_other h))
  case inputs =>
    change ((s.after i).after j).inputs = ((s.after j).after i).inputs
    simp only [State.after_inputs]

/-! ### The three excluded pairs -/

/-- A run from reset to a finished RTU frame with a wrong CRC (row T2 of the vectors, its last byte off by one). -/
def wrongCrcFrame : State := (rtuFrame [0x01, 0x81, 0x02, 0xC1, 0x90]).foldl State.after State.reset

/-- A run from reset to a finished ASCII line with a wrong LRC: `:010203`, CR, LF. -/
def wrongLrcLine : State :=
  (ascFrame [0x3A, 0x30, 0x31, 0x30, 0x32, 0x30, 0x33, 0x0D, 0x0A]).foldl State.after State.reset

/-- Clearing `CHECK_FRAME` before the read turns the CHECKSUM cause into FRAME_OK. -/
theorem rtuStat_after_cfgWr_ne :
    ((wrongCrcFrame.after (.cfgWr 0)).after .rtuStat).rsp ≠ (wrongCrcFrame.after .rtuStat).rsp := by
  decide +kernel

theorem ascStat_after_cfgWr_ne :
    ((wrongLrcLine.after (.cfgWr 0)).after .ascStat).rsp ≠ (wrongLrcLine.after .ascStat).rsp := by
  decide

/-- Setting `RTU_DIR` before the push at index 0 latches the request direction. -/
theorem rtuPush_after_cfgWr_ne :
    ((State.reset.after (.cfgWr 2)).after (.rtuPush 0)).rtu ≠ ((State.reset.after (.rtuPush 0)).after (.cfgWr 2)).rtu := by
  decide

/-- Settles O15: `State.eraseRsp_after_after` for the states, `State.after_after_rsp` for each response; for the
excluded pairs a frame and a line with a wrong checksum, and the parser at reset. -/
theorem commandsToDifferentUnitsCommute : Obligations.CommandsToDifferentUnitsCommute := by
  refine ⟨fun i j s hu hc => ?_, ?_, ?_, ?_⟩
  · have hc' : cfgConflict s j i = false := (cfgConflict_comm s j i).trans hc
    exact ⟨_, _, _, _, exec_eq_after i s, exec_eq_after j _, exec_eq_after j s, exec_eq_after i _,
      State.eraseRsp_after_after hu hc, (State.after_after_rsp hu.symm hc').symm, State.after_after_rsp hu hc⟩
  · exact ⟨0, wrongCrcFrame, _, _, _, _, exec_eq_after _ _, exec_eq_after _ _, exec_eq_after _ _, exec_eq_after _ _,
      rtuStat_after_cfgWr_ne⟩
  · exact ⟨0, wrongLrcLine, _, _, _, _, exec_eq_after _ _, exec_eq_after _ _, exec_eq_after _ _, exec_eq_after _ _,
      ascStat_after_cfgWr_ne⟩
  · exact ⟨2, 0, State.reset, _, _, _, _, rfl, exec_eq_after _ _, exec_eq_after _ _, exec_eq_after _ _,
      exec_eq_after _ _, rtuPush_after_cfgWr_ne⟩

end Sys2Proof.Machine
end

section
/-! The command word: what the decoder makes of it, what the encoder gives back, and the bits nothing reads
(30_encoding.md R80 to R86). -/

namespace Sys2Proof

/-! ### Encoding what was decoded -/

/-- A canonical command is read back from its word. -/
theorem decode_encode {i : Instr} (h : i.wf = true) : decode (encode i) = .instr i := by
  obtain ⟨-, -, hdecode⟩ := Laws.Fields.of i
  rw [hdecode, Instr.withOperand_self h]

/-- The word of a decoded command keeps the code and, of the operand, the bits its format uses. -/
theorem encode_of_decode {w : Cmd} {i : Instr} (h : decode w = .instr i) :
    encode i = opField w ++ usedOperand i.format (operandField w) := by
  obtain ⟨hcode, hoperand, -⟩ := decode_instr h
  rw [encode, hcode, hoperand]

theorem getLsbD_opField (w : Cmd) {k : Nat} (hk : k < 8) : (opField w).getLsbD k = w.getLsbD (16 + k) := by
  simp [opField, hk]

theorem getLsbD_operandField (w : Cmd) {k : Nat} (hk : k < 16) : (operandField w).getLsbD k = w.getLsbD k := by
  simp [operandField, hk]

/-- Settles O7: `decode_encode` one way; the other way the word is its code, whole, and its operand, cut to the
format's field. -/
theorem decodeEncodeRoundTrip : Obligations.DecodeEncodeRoundTrip := by
  refine ⟨fun i hwf => decode_encode hwf, fun w i hd => ?_⟩
  obtain ⟨-, -, hwf⟩ := decode_instr hd
  refine ⟨hwf, fun k hk => ?_⟩
  rw [encode_of_decode hd, BitVec.getLsbD_append]
  by_cases h16 : k < 16
  · rw [if_pos h16, getLsbD_usedOperand, getLsbD_operandField w h16]
    congr 1
    cases i.format <;> simp [Nat.not_le.mpr h16]
  · rw [if_neg h16, getLsbD_opField w (by omega), show 16 + (k - 16) = k by omega]
    simp [Nat.not_lt.mp h16]

/-! ### Reserved codes -/

/-- A word whose code is in no row is reserved. -/
theorem decode_of_not_mem {w : Cmd} (h : w.toNat / 2 ^ 16 ∉ opRows.map (fun r => r.op.toNat)) :
    decode w = .reserved (opField w) := by
  rcases decode_cases w with ⟨r, hr, hop, -⟩ | ⟨-, hd⟩
  · refine absurd (List.mem_map.mpr ⟨r, hr, ?_⟩) h
    rw [hop, toNat_opField]
  · exact hd

end Sys2Proof

namespace Sys2Proof.Machine

/-- Settles O5: the reserved codes stand in no row, so the step only responds, as `NOP` does. -/
theorem reservedCodesActAsNop : Obligations.ReservedCodesActAsNop := by
  intro s w rest hq hcode
  have hd : decode w = .reserved (opField w) := by
    refine decode_of_not_mem ?_
    rw [opRows_ops]
    simp only [List.cons_append, List.nil_append, List.mem_cons, List.not_mem_nil, or_false]
    omega
  rw [step_command hq, applyCommand_reserved hd]
  exact ⟨rfl, rfl⟩

/-! ### The table of codes (rule R83) -/

/-- The command of each row of the table, on operand 0. -/
def tableCommands : List Instr := opRows.map fun r => r.build 0

/-- What rule R83's table prints of a command: code, mnemonic, format, unit. -/
def tableRow (i : Instr) : Nat × String × Format × BlockUnit := (i.opcode.toNat, i.mnemonic, i.format, i.unit)

/-- The printed codes are the decoder's. -/
theorem tableRow_codes : (tableCommands.map tableRow).map (·.1) = opRows.map (fun r => r.op.toNat) := rfl

/-- A row prints of a command what it prints of the same command on another operand. -/
theorem tableRow_withOperand (i : Instr) (x : Half) : tableRow (i.withOperand x) = tableRow i := by
  cases i <;> rfl

/-- `op[4:3]` of a unit's commands (rule R83); `NOP` addresses none. -/
def unitGroup : BlockUnit → Option Nat
  | .none => none
  | .crc => some 0
  | .lrc => some 0
  | .rtu => some 1
  | .asc => some 2
  | .cfg => some 3

theorem opcode_of_unitGroup {i : Instr} {g : Nat} (h : unitGroup i.unit = some g) : i.opcode.toNat / 2 ^ 3 % 4 = g := by
  cases i <;> cases h <;> simp only [Instr.opcode] <;> rfl

/-- Settles O6: the table is `tableRow` of the decoder's rows, so a printed code is some command's, a code not printed
is in no row, and the group is read off the code. -/
theorem commandCodeTable : Obligations.CommandCodeTable := by
  unfold Obligations.CommandCodeTable
  intro table group w
  have htable : table = tableCommands.map tableRow := rfl
  refine ⟨fun row hrow hcode => ?_, fun hcode => ?_, fun i hd g hg => ?_⟩
  · obtain ⟨i, -, rfl⟩ := List.mem_map.mp (htable ▸ hrow)
    have hop : opField w = i.opcode := BitVec.eq_of_toNat_eq ((toNat_opField w).trans hcode)
    have hprint := tableRow_withOperand i (operandField w)
    simp only [tableRow, Prod.mk.injEq] at hprint
    exact ⟨_, decode_of_opcode hop, hprint.2⟩
  · refine ⟨_, decode_of_not_mem ?_, toNat_opField w⟩
    rw [← tableRow_codes, ← htable, List.mem_map]
    rintro ⟨row, hrow, heq⟩
    exact hcode row hrow heq.symm
  · obtain ⟨hop, -, -⟩ := decode_instr hd
    have hcode : i.opcode.toNat = w.toNat / 2 ^ 16 := by rw [hop, toNat_opField]
    rw [← opcode_of_unitGroup hg, hcode, Nat.div_div_eq_div_mul, ← Nat.pow_add]

/-! ### Ignored operand bits (rule R82) -/

theorem usedOperand_congr {f : Format} {x y : Half} (hb : f = .b → x.toNat % 2 ^ 8 = y.toNat % 2 ^ 8)
    (hi : f = .i → x.toNat % 2 ^ 9 = y.toNat % 2 ^ 9) (hw : f = .w → x.toNat % 2 ^ 2 = y.toNat % 2 ^ 2) :
    usedOperand f x = usedOperand f y := by
  rw [usedOperand_eq, usedOperand_eq]
  cases f with
  | n => simp [Nat.mod_one]
  | b => simp only [hb rfl]
  | i => simp only [hi rfl]
  | w => simp only [hw rfl]

/-- The low bits of a word are those of its operand. -/
theorem toNat_operandField_mod (w : Cmd) {n : Nat} (hn : n ≤ 16) :
    (operandField w).toNat % 2 ^ n = w.toNat % 2 ^ n := by
  rw [toNat_operandField, Nat.mod_mod_of_dvd _ (Nat.pow_dvd_pow 2 hn)]

/-- Two words with one code and the same used operand decode alike. -/
theorem decode_congr {w w' : Cmd} {i : Instr} (hd : decode w = .instr i) (hcode : opField w' = opField w)
    (hused : usedOperand i.format (operandField w') = usedOperand i.format (operandField w)) :
    decode w' = .instr i := by
  obtain ⟨hop, -, -⟩ := decode_instr hd
  have hself : i.withOperand (operandField w) = i :=
    Decoded.instr.inj ((decode_of_opcode hop.symm).symm.trans hd)
  rw [decode_of_opcode (hcode.trans hop.symm), ← Instr.withOperand_used, hused, Instr.withOperand_used, hself]

theorem setWidth_congr {x y : Half} {n : Nat} (h : x.toNat % 2 ^ n = y.toNat % 2 ^ n) :
    x.setWidth n = y.setWidth n :=
  BitVec.eq_of_toNat_eq (by simpa only [BitVec.toNat_setWidth] using h)

theorem getLsbD_codeMask : ∀ k, k < 24 → (0xFF0000 : Cmd).getLsbD k = decide (16 ≤ k) := by decide

/-- A word under the mask of the code field. -/
theorem and_codeMask (w : Cmd) : w &&& (0xFF0000 : Cmd) = ((opField w).setWidth 24 : Cmd) <<< 16 := by
  refine BitVec.eq_of_getLsbD_eq fun k hk => ?_
  rw [BitVec.getLsbD_and, getLsbD_codeMask k hk, BitVec.getLsbD_shiftLeft, BitVec.getLsbD_setWidth]
  by_cases h16 : k < 16
  · simp [h16, Nat.not_le.mpr h16]
  · rw [getLsbD_opField w (by omega), show 16 + (k - 16) = k by omega]
    simp [h16, hk, Nat.not_lt.mp h16, show k - 16 < 24 by omega]

/-- Settles O8: `decode_congr` for words; each meaning reads the operand through its format's field alone. -/
theorem ignoredOperandBits : Obligations.IgnoredOperandBits := by
  refine ⟨fun w w' i s hd hcode hb hi hw => ?_, fun x y s h => ?_, fun x y s h => ?_, fun x y s h => ?_,
    fun w i hd => ?_⟩
  · have hop : opField w' = opField w :=
      BitVec.eq_of_toNat_eq (by rw [toNat_opField, toNat_opField, hcode])
    have hused : usedOperand i.format (operandField w') = usedOperand i.format (operandField w) := by
      refine usedOperand_congr ?_ ?_ ?_ <;> intro hf <;>
        rw [toNat_operandField_mod _ (by decide), toNat_operandField_mod _ (by decide)]
      · exact (hb hf).symm
      · exact (hi hf).symm
      · exact (hw hf).symm
    have hd' := decode_congr hd hop hused
    exact ⟨hd', by rw [applyCommand_instr hd, applyCommand_instr hd']⟩
  · have hbyte : operandByte x = operandByte y := setWidth_congr h
    simp only [exec, execCrcUpd, execLrcUpd, execRtuPush, execAscPush, hbyte, and_self]
  · have hindex : operandIndex x = operandIndex y := setWidth_congr h
    simp only [exec, execRtuRdb, execAscRdb, hindex, and_self]
  · have hcfg : operandCfg x = operandCfg y := setWidth_congr h
    simp only [exec, execCfgWr, hcfg]
  · obtain ⟨hop, -, -⟩ := decode_instr hd
    rw [hop, and_codeMask]

/-! ### Examples (rule R85) -/

/-- Settles O9: the decoder computes each word; `CFG.WR` 0xFFFD decodes to `CFG.WR` 0x0001. -/
theorem exampleWordsDecode : Obligations.ExampleWordsDecode := by
  have hcfg : decode 0x18FFFD = .instr (.cfgWr 0x0001) := by decide
  exact ⟨by decide, by decide, by decide, by decide, by decide, by decide, applyCommand_instr hcfg, by decide,
    by decide, by decide⟩

end Sys2Proof.Machine
end

section
/-! The length classes at the bytes that settle them (30_encoding.md R97, R98), and the round trips over both
transports (R111). -/

namespace Sys2Proof.Machine

/-! ### The classes as sets of codes -/

theorem getLsbD_seven_iff (b : Byte) : b.getLsbD 7 = true ↔ 0x80 ≤ b.toNat := by
  have := b.isLt
  rw [getLsbD_eq_decide, decide_eq_true_eq]
  omega

/-- Rule R97's classes. -/
theorem responseClass_eq (b : Byte) :
    responseClass b =
      if 0x80 ≤ b.toNat then .exc
      else if b ∈ ([0x01, 0x02, 0x03, 0x04] : List Byte) then .rdRsp
      else if b ∈ ([0x05, 0x06, 0x0F, 0x10] : List Byte) then .wrRsp
      else .unsupported := by
  simp only [responseClass, getLsbD_seven_iff, List.mem_cons, List.not_mem_nil, or_false]

/-- Rule R98's classes. -/
theorem requestClass_eq (b : Byte) :
    requestClass b =
      if b ∈ ([0x01, 0x02, 0x03, 0x04, 0x05, 0x06] : List Byte) then .fixReq
      else if b ∈ ([0x0F, 0x10] : List Byte) then .bulkReq
      else .unsupported := by
  simp only [requestClass, List.mem_cons, List.not_mem_nil, or_false]

/-- The codes of class RD_RSP (rule R97). -/
theorem responseClass_of_read {b : Byte} (h : b ∈ ([0x01, 0x02, 0x03, 0x04] : List Byte)) :
    responseClass b = .rdRsp := by
  simp only [List.mem_cons, List.not_mem_nil, or_false] at h
  rcases h with rfl | rfl | rfl | rfl <;> rfl

/-- The codes of class BULK_REQ (rule R98). -/
theorem requestClass_of_bulk {b : Byte} (h : b ∈ ([0x0F, 0x10] : List Byte)) : requestClass b = .bulkReq := by
  simp only [List.mem_cons, List.not_mem_nil, or_false] at h
  rcases h with rfl | rfl <;> rfl

/-! ### The bytes that settle a length -/

theorem State.after_rtuPush_rtu (s : State) (x : Half) :
    (s.after (.rtuPush x)).rtu = s.rtu.push s.rtuDir (x.setWidth 8) :=
  State.after_rtu s _

/-- An exception response is known by its length, so before a length is known there is none. -/
theorem RtuParser.Inv.exc_of_unknown {r : RtuParser} (h : r.Inv) (hk : r.lenk = false) : r.exc = false := by
  by_contra hx
  obtain ⟨-, hlen⟩ := h.excHolds (by simpa using hx)
  rw [(h.unknown hk).1] at hlen
  exact absurd hlen (by decide)

/-- Settles O29: one law of the push per class of the function code, and the law of the byte count. -/
theorem responseLengthClasses : Obligations.ResponseLengthClasses := by
  refine ⟨fun x s b hb hinv hs hi hdir => ⟨_, exec_eq_after _ _, ?_⟩, fun x s hinv hs hi hdir hcode =>
    ⟨_, exec_eq_after _ _, ?_⟩⟩
  · have hk := hinv.rtu.lenk_of_lt (by rw [hi]; decide)
    have hexc := hinv.rtu.exc_of_unknown hk
    have hclass : lenClass s.rtu.dir b = responseClass b := by rw [hdir]; rfl
    rw [responseClass_eq] at hclass
    rw [State.after_rtuPush_rtu, ← hb]
    split_ifs at hclass ⊢
    · rw [RtuParser.push_exception (.inr hs) hi hclass]; exact ⟨rfl, rfl, rfl, rfl⟩
    · rw [RtuParser.push_counted (.inr hs) hi hk (.inl hclass)]; exact ⟨hk, hexc, rfl⟩
    · rw [RtuParser.push_fixed (.inr hs) hi (.inl hclass)]; exact ⟨rfl, rfl, hexc, rfl⟩
    · rw [RtuParser.push_unsupported (.inr hs) hi hclass]; exact ⟨hk, hexc, rfl⟩
  · have hclass : lenClass s.rtu.dir (s.rtu.buf.read 1) = .rdRsp := by
      rw [hdir]; exact responseClass_of_read hcode
    rw [State.after_rtuPush_rtu, RtuParser.push_readCount hinv.rtu.bufWf (.inr hs) hi hclass]
    refine ⟨rfl, (toNat_add_zext 5 (by decide) _).trans ?_⟩
    rw [BitVec.toNat_setWidth]

/-- Settles O30, as O29: the fixed and the bulk-write requests, and the bulk byte count. -/
theorem requestLengthClasses : Obligations.RequestLengthClasses := by
  refine ⟨fun x s b hb hinv hs hi hdir => ⟨_, exec_eq_after _ _, ?_⟩, fun x s hinv hs hi hdir hcode =>
    ⟨_, exec_eq_after _ _, ?_⟩⟩
  · have hk := hinv.rtu.lenk_of_lt (by rw [hi]; decide)
    have hexc := hinv.rtu.exc_of_unknown hk
    have hclass : lenClass s.rtu.dir b = requestClass b := by rw [hdir]; rfl
    rw [requestClass_eq] at hclass
    rw [State.after_rtuPush_rtu, ← hb]
    split_ifs at hclass ⊢
    · rw [RtuParser.push_fixed (.inr hs) hi (.inr hclass)]; exact ⟨hexc, rfl, rfl, rfl⟩
    · rw [RtuParser.push_counted (.inr hs) hi hk (.inr hclass)]; exact ⟨hexc, hk, rfl⟩
    · rw [RtuParser.push_unsupported (.inr hs) hi hclass]; exact ⟨hexc, hk, rfl⟩
  · have hclass : lenClass s.rtu.dir (s.rtu.buf.read 1) = .bulkReq := by
      rw [hdir]; exact requestClass_of_bulk hcode
    rw [State.after_rtuPush_rtu, RtuParser.push_bulkCount hinv.rtu.bufWf (.inr hs) hi hclass]
    refine ⟨rfl, (toNat_add_zext 9 (by decide) _).trans ?_⟩
    rw [BitVec.toNat_setWidth]

/-! ### Round trips -/

theorem length_rtuEncode (frame : List Byte) : (rtuEncode frame).length = frame.length + 2 := by
  simp [rtuEncode]

/-- The last two bytes of an encoded frame are the CRC of the bytes before them, low byte first. -/
theorem rtuEncode_tail (frame : List Byte) :
    (rtuEncode frame).take frame.length = frame ∧
      (rtuEncode frame).getD frame.length 0 = crcLow (crc16 frame) ∧
      (rtuEncode frame).getD (frame.length + 1) 0 = crcHigh (crc16 frame) := by
  simp [rtuEncode, List.getD]

/-- A well-shaped ADU's length is the one its bytes give (rule R100). -/
theorem rtuLength_of_wellShaped {d : Dir} {adu : List Byte} (h : wellShaped d adu = true) :
    rtuLength d (adu.getD 1 0) (adu.getD 2 0) (adu.getD 6 0) = some adu.length := by
  simp only [wellShaped, Bool.and_eq_true, beq_iff_eq] at h
  exact h.2

/-- A parser that has been given a well-shaped encoded frame holds it and has found its CRC right. -/
theorem Fed.encodedFrame {d : Dir} {r : RtuParser} {frame : List Byte} (h : Fed d r (rtuEncode frame))
    (hshape : wellShaped d (rtuEncode frame) = true) :
    r.state = .done ∧ r.crcok = true ∧ r.len.toNat = (rtuEncode frame).length ∧
      r.buf.bytes frame.length = frame := by
  obtain ⟨hdone, hlen, -, hbytes, hcrc, hcrcok, -⟩ :=
    h.whole (more := []) (rtuLength_of_wellShaped hshape) (List.append_nil _).symm
  obtain ⟨htake, hlow, hhigh⟩ := rtuEncode_tail frame
  rw [length_rtuEncode] at hcrc hcrcok
  rw [Nat.add_sub_cancel, htake] at hcrc
  refine ⟨hdone, hcrcok.mpr ?_, hlen, ?_⟩
  · rw [hcrc, ← crcLow_eq, ← crcHigh_eq]
    exact ⟨hlow, hhigh⟩
  · rw [length_rtuEncode, Memory.bytes_succ, Memory.bytes_succ, List.append_assoc] at hbytes
    exact (List.append_inj' hbytes rfl).1

/-- `ascii_encode` is the hex line of the frame and its LRC (rule R110). -/
theorem asciiEncode_eq (frame : List Byte) :
    asciiEncode frame = [0x3A] ++ (frame ++ [lrc frame]).flatMap hexPair ++ [0x0D, 0x0A] := by
  simp [asciiEncode, charColon, charCr, charLf]

/-- A frame and its LRC sum to 0 (rule R146). -/
theorem byteSum_append_lrc (frame : List Byte) : byteSum (frame ++ [lrc frame]) = 0#8 := by
  rw [byteSum_append_one]
  exact (lrc_eq_iff frame _).mp rfl

/-- A cleared detector that is given an encoded frame holds it and has found its LRC right. -/
theorem AscDetector.foldl_push_asciiEncode {a : AscDetector} (h : a.Inv) (hs : a.state = .idle) {frame : List Byte}
    (hmin : 2 ≤ frame.length) (hmax : frame.length ≤ 263) :
    ∃ t, (asciiEncode frame).foldl AscDetector.push a = t ∧ t.state = .done ∧ t.flags = 0 ∧ t.lrcok = true ∧
      t.cnt.toNat = frame.length + 1 ∧ t.buf.bytes frame.length = frame := by
  have hlength : (frame ++ [lrc frame]).length = frame.length + 1 := by simp
  obtain ⟨t, ht, hdone, hflags, -, hcnt, hbytes, hlrcok⟩ :=
    hexLine_result h hs (frame ++ [lrc frame]) (by omega) (by omega)
  rw [hlength] at hcnt hbytes
  rw [Memory.bytes_succ] at hbytes
  obtain ⟨hframe, -⟩ := List.append_inj' hbytes rfl
  exact ⟨t, by rw [asciiEncode_eq, ht], hdone, hflags, by rw [hlrcok, byteSum_append_lrc]; rfl, hcnt, hframe⟩

/-- Settles O41: a run of pushes feeds the unit the encoded frame, which `Fed.encodedFrame` and
`AscDetector.foldl_push_asciiEncode` are about. -/
theorem wireRoundTrip : Obligations.WireRoundTrip := by
  refine ⟨fun s d frame hinv hs hd hshape => ⟨_, execAll_eq_foldl _ _, ?_⟩,
    fun s frame hinv hs hmin hmax => ⟨_, execAll_eq_foldl _ _, ?_⟩⟩
  · exact (Fed.pushes s d _ hinv.rtu hs hd).encodedFrame hshape
  · obtain ⟨t, ht, hresult⟩ := AscDetector.foldl_push_asciiEncode hinv.asc hs hmin hmax
    rw [foldl_after_asc (by simp), ascBytes_pushes, ht]
    exact hresult

end Sys2Proof.Machine
end

section
/-! The CRC-16 unit: one iteration on numbers, the byte-wide step and its table, the unit's commands and whole
messages (40_crc16.md). -/

namespace Sys2Proof.Machine

/-! ### The loop on numbers (rule R121) -/

/-- One iteration of rule R121's loop, as arithmetic on the register's number. -/
def halveAndFeedBack (n : Nat) : Nat := if n % 2 = 1 then (n / 2) ^^^ 0xA001 else n / 2

theorem toNat_crcShift (c : Half) : (crcShift c).toNat = halveAndFeedBack c.toNat := by
  simp only [crcShift, halveAndFeedBack, getLsbD_eq_decide, Nat.pow_zero, Nat.div_one, decide_eq_true_eq]
  split_ifs <;> simp [Nat.shiftRight_eq_div_pow]

theorem toNat_crcShifts (k : Nat) (c : Half) : (crcShifts k c).toNat = Nat.iterate halveAndFeedBack k c.toNat := by
  induction k generalizing c with
  | zero => rfl
  | succ k ih => rw [crcShifts, ih, toNat_crcShift, Function.iterate_succ_apply]

/-- Settles O19: an iteration on the register is an iteration on its number. -/
theorem crcStepIsTheEightfoldLoop : Obligations.CrcStepIsTheEightfoldLoop := by
  intro c b
  rw [crcStep, toNat_crcShifts, BitVec.toNat_xor, BitVec.toNat_setWidth_of_le (by decide)]
  rfl

/-! ### The table form (rule R128) -/

theorem length_crcTable : crcTable.length = 256 := by
  simp only [crcTable, List.length_append, List.length_cons, List.length_nil]

/-- An entry of the printed table is the eight iterations of its index. -/
theorem getD_crcTable : ∀ b : Byte, crcTable.getD b.toNat 0 = crcShifts 8 (b.setWidth 16) := by decide

/-- The table's index is the exclusive or of the byte and the register's low byte. -/
theorem toNat_crcLow_xor (c : Half) (b : Byte) :
    (crcLow c ^^^ b).toNat = (c ^^^ BitVec.ofNat 16 b.toNat).toNat % 256 := by
  rw [← zext16_eq_ofNat, crcLow_eq, ← BitVec.toNat_setWidth 8]
  simp

/-- Settles O20, by `crcStep_table`: the step is a shift by a byte and a function of the table's index. -/
theorem crcStepTableForm : Obligations.CrcStepTableForm := by
  refine ⟨length_crcTable, fun i hi => ?_, fun c b => ?_⟩
  · have htoNat : (BitVec.ofNat 8 i).toNat = i := Nat.mod_eq_of_lt hi
    rw [← htoNat, getD_crcTable, zext16_eq_ofNat]
  · rw [← toNat_crcLow_xor, getD_crcTable]
    exact crcStep_table c b

/-! ### Bijectivity and linearity (rule R129) -/

theorem crcStep_bijective (b : Byte) : Function.Bijective fun c : Half => crcStep c b := by
  have hfinite : Finite Half := Finite.of_injective BitVec.toFin fun _ _ h => BitVec.eq_of_toFin_eq h
  exact Finite.injective_iff_bijective.mp fun _ _ h => crcStep_injective h

/-- For a fixed high byte, the byte and the low byte matter through their exclusive or alone. -/
theorem crcStep_congr {c d : Half} {a b : Byte} (hhigh : c >>> 8 = d >>> 8)
    (hlow : c.setWidth 8 ^^^ a = d.setWidth 8 ^^^ b) : crcStep c a = crcStep d b := by
  rw [← crcLow_eq, ← crcLow_eq] at hlow
  rw [crcStep_table, crcStep_table, hhigh]
  exact congrArg (fun x : Byte => d >>> 8 ^^^ crcShifts 8 (x.setWidth 16)) hlow

/-- Settles O21: an injective step of a finite register is onto; the rest are the laws of the step. -/
theorem crcStepBijectiveAndLinear : Obligations.CrcStepBijectiveAndLinear :=
  ⟨crcStep_bijective, crcStep_xor, crcStep_zext, fun _ _ _ _ => crcStep_congr⟩

/-! ### The residue law (rule R127) -/

/-- `crc16_residue` with the two bytes of the CRC as truncations. -/
theorem crc16_append_two_eq_zero_iff (m : List Byte) (x y : Byte) :
    crc16 (m ++ [x, y]) = 0x0000 ↔ x = (crc16 m).setWidth 8 ∧ y = (crc16 m >>> 8).setWidth 8 := by
  rw [← crcLow_eq, ← crcHigh_eq]
  exact crc16_residue m x y

/-- Settles O22: the first law is one direction of the second. -/
theorem crcResidueLaw : Obligations.CrcResidueLaw :=
  ⟨fun m => (crc16_append_two_eq_zero_iff m _ _).mpr ⟨rfl, rfl⟩, crc16_append_two_eq_zero_iff⟩

/-! ### A zero byte (rule R123) -/

theorem crcLow_xor (c d : Half) : crcLow (c ^^^ d) = crcLow c ^^^ crcLow d := BitVec.extractLsb'_xor

theorem crcHigh_xor (c d : Half) : crcHigh (c ^^^ d) = crcHigh c ^^^ crcHigh d := BitVec.extractLsb'_xor

theorem crcLow_shiftRight (c : Half) : crcLow (c >>> 8) = crcHigh c := by rw [crcLow_eq, crcHigh_eq]

theorem crcHigh_shiftRight (c : Half) : crcHigh (c >>> 8) = 0#8 := by rw [shift8, crcHigh]; ext k hk; simp

/-- `split_bytes`, in the names of the two bytes. -/
theorem eq_high_low (c : Half) : c = ((crcHigh c).setWidth 16 <<< 8) ^^^ (crcLow c).setWidth 16 := split_bytes c

theorem crcStep_zero_byte (c : Half) : crcStep c 0 = (c >>> 8) ^^^ crcShifts 8 ((crcLow c).setWidth 16) := by
  rw [crcStep_table, crcLow, show (0 : Byte) = 0#8 from rfl, BitVec.xor_zero]

/-- What a fixed register's low byte `l` must satisfy: its high byte is that of the table entry of `l`, and the step
shifts it onto the low byte of that entry. -/
theorem low_eq_zero_or_one_of_fixed : ∀ l : Byte,
    crcHigh (crcShifts 8 (l.setWidth 16)) ^^^ crcLow (crcShifts 8 (l.setWidth 16)) = l → l = 0x00 ∨ l = 0x01 := by
  decide

/-- The step shifts the high byte out, so a fixed register's high byte is the table's, and `low_eq_zero_or_one_of_fixed`
leaves two low bytes. -/
theorem crcStep_zero_byte_eq_self_iff (c : Half) : crcStep c 0x00 = c ↔ c = 0x0000 ∨ c = 0xC001 := by
  constructor
  · intro hfixed
    rw [crcStep_zero_byte] at hfixed
    have hhigh : crcHigh (crcShifts 8 ((crcLow c).setWidth 16)) = crcHigh c := by
      simpa only [crcHigh_xor, crcHigh_shiftRight, BitVec.zero_xor] using congrArg crcHigh hfixed
    have hlow : crcHigh c ^^^ crcLow (crcShifts 8 ((crcLow c).setWidth 16)) = crcLow c := by
      simpa only [crcLow_xor, crcLow_shiftRight] using congrArg crcLow hfixed
    rw [eq_high_low c, ← hhigh]
    rcases low_eq_zero_or_one_of_fixed (crcLow c) (by rwa [hhigh]) with hl | hl <;> rw [hl] <;> decide
  · rintro (rfl | rfl) <;> decide

/-- Settles O18: the effect is the command's own; the fixed points are `crcStep_zero_byte_eq_self_iff`. -/
theorem crcUpdateAddsOneByte : Obligations.CrcUpdateAddsOneByte := by
  refine ⟨codedAs_of_opcode (i := .crcUpd 0) rfl (fun x => ?_) (by decide), fun x s => ?_,
    crcStep_zero_byte_eq_self_iff⟩
  · rw [Instr.withOperand, usedOperand_eq]
  · have hbyte : BitVec.ofNat 8 (x.toNat % 2 ^ 8) = operandByte x :=
      BitVec.eq_of_toNat_eq (by simp [operandByte])
    rw [hbyte]; rfl

/-! ### `CRC.INIT` and `CRC.RD` -/

/-- Settles O17: the codes by `codedAs_of_opcode`; an effect, and a run of two commands, is its meaning computed. -/
theorem crcInitAndRead : Obligations.CrcInitAndRead :=
  ⟨codedAs_of_opcode (i := .crcInit) rfl (fun _ => rfl) (by decide),
    codedAs_of_opcode (i := .crcRd) rfl (fun _ => rfl) (by decide),
    fun _ => rfl, fun _ => rfl, fun _ => rfl, fun _ => rfl, rfl⟩

/-- Settles O23: after `CRC.INIT` only the updates move `crc` (`foldl_after_crc`), and `CRC.RD` answers it. -/
theorem crcUnitComputesCrcOfMessage : Obligations.CrcUnitComputesCrcOfMessage := by
  intro cs s hinit
  have hcrc : (cs.foldl State.after (s.after .crcInit)).crc = crc16 (crcBytes cs) := by
    rw [foldl_after_crc hinit, State.after_crc, crc16]
  exact ⟨_, _, execAll_eq_foldl _ _, hcrc, exec_eq_after _ _, by rw [State.after_rsp]; exact hcrc⟩

end Sys2Proof.Machine
end

section
/-! The LRC unit: the running sum and its negation on numbers, the unit's commands and whole messages (41_lrc.md). -/

namespace Sys2Proof.Machine

/-! ### The commands -/

/-- One addition as rule R142 writes it, of the operand's low byte. -/
theorem sumStep_operandByte (v : Byte) (x : Half) :
    sumStep v (operandByte x) = BitVec.ofNat 8 ((v.toNat + x.toNat % 2 ^ 8) % 256) := by
  rw [sumStep, operandByte, BitVec.toNat_setWidth]

/-- The order of two additions does not matter (rule R142). -/
theorem sumStep_right_comm (v b c : Byte) : sumStep (sumStep v b) c = sumStep (sumStep v c) b := by
  simp only [sumStep_eq_add]
  exact add_right_comm v b c

theorem execAll_lrcUpd_pair (x y : Half) (s : State) :
    execAll [.lrcUpd x, .lrcUpd y] s =
      .next { s with lsum := sumStep (sumStep s.lsum (operandByte x)) (operandByte y), rsp := 0 } := rfl

/-- Settles O24: an effect is the command's meaning, with its number from `sumStep_operandByte` or `toNat_negSum`; two
updates commute because two additions do. -/
theorem lrcCommands : Obligations.LrcCommands := by
  refine ⟨codedAs_of_opcode (i := .lrcInit) rfl (fun _ => rfl) (by decide),
    codedAs_of_opcode (i := .lrcUpd 0) rfl (fun x => ?_) (by decide),
    codedAs_of_opcode (i := .lrcRd) rfl (fun _ => rfl) (by decide),
    fun _ => rfl, fun x s => ?_, fun s => ?_, fun _ => rfl, fun x y s => ?_⟩
  · rw [Instr.withOperand, usedOperand_eq]
  · rw [← sumStep_operandByte]; rfl
  · rw [← toNat_negSum, ← zext16_eq_ofNat]; rfl
  · rw [execAll_lrcUpd_pair, execAll_lrcUpd_pair, sumStep_right_comm]

/-! ### Whole messages -/

/-- The formula of rule R144. -/
theorem toNat_lrc (m : List Byte) : (lrc m).toNat = (0x100 - (m.map BitVec.toNat).sum % 256) % 256 := by
  rw [lrc, negSum_eq_neg, BitVec.toNat_neg, byteSum_toNat]

/-- A byte makes a message's sum 0 exactly when it is the message's LRC (rule R146). -/
theorem lrc_eq_iff_sum_mod (m : List Byte) (x : Byte) :
    lrc m = x ↔ ((m.map BitVec.toNat).sum + x.toNat) % 256 = 0 := by
  rw [lrc_eq_iff, ← byteSum_append_one, ← BitVec.toNat_inj, byteSum_toNat]
  simp

/-- After `LRC.INIT` the updates alone move `lsum`, so it holds the sum of their bytes (rule R145). -/
theorem foldl_after_lrcInit_lsum {cs : List Instr} (h : .lrcInit ∉ cs) (s : State) :
    (cs.foldl State.after (s.after .lrcInit)).lsum = byteSum (lrcBytes cs) := by
  rw [foldl_after_lsum h, State.after_lsum, byteSum]

/-- Settles O25: `lsum` holds the bytes' sum (`foldl_after_lrcInit_lsum`), whose negation `LRC.RD` answers; with the LRC
added the sum is 0 (`byteSum_append_lrc`). -/
theorem lrcUnitComputesLrcOfMessage : Obligations.LrcUnitComputesLrcOfMessage := by
  refine ⟨fun m => ⟨toNat_lrc m, ?_⟩, fun cs s hinit => ?_, fun m => ?_, lrc_eq_iff_sum_mod, fun m s => ?_⟩
  · rw [lrc, negSum_eq_neg]
    exact BitVec.neg_eq_not_add _
  · exact ⟨_, _, execAll_eq_foldl _ _, exec_eq_after _ _, by
      rw [State.after_rsp, List.foldl_cons, foldl_after_lrcInit_lsum hinit, lrc]⟩
  · rw [← byteSum_toNat, byteSum_append_lrc]; rfl
  · have hsum : (((m ++ [lrc m]).map fun b => Instr.lrcUpd (byteOperand b)).foldl State.after
        (s.after .lrcInit)).lsum = 0#8 := by
      rw [foldl_after_lrcInit_lsum (by simp), lrcBytes_updates, byteSum_append_lrc]
    exact ⟨_, _, execAll_eq_foldl _ _, hsum, exec_eq_after _ _, by
      rw [State.after_rsp, List.foldl_cons, hsum]; rfl⟩

end Sys2Proof.Machine
end

section
/-! The RTU parser's commands taken one at a time: clear, the dropped push, the first byte, the control states and the
reads (42_rtu_parser.md R156 to R160, R171 to R174). -/

namespace Sys2Proof.Machine

variable {r : RtuParser} {dir : Dir} {b : Byte}

/-! ### The reads -/

/-- `RTU.RDB` as rule R171 writes it. -/
theorem exec_rtuRdb (x : Half) (s : State) :
    exec (.rtuRdb x) s =
      .next { s with rsp := if x.toNat % 2 ^ 9 < s.rtu.idx.toNat
                            then BitVec.ofNat 16 (s.memRead .rbuf (x.toNat % 2 ^ 9)).toNat else 0x0000 } := by
  change Host.Outcome.next (s.respond ((readBelow s.rtu.buf s.rtu.idx (operandIndex x)).setWidth 16)) = _
  rw [zext16_eq_ofNat, readBelow, operandIndex, BitVec.toNat_setWidth]
  split_ifs <;> rfl

/-- The word of `RTU.LEN` as a sum (rule R172). -/
theorem RtuParser.lenWord_eq_ofNat (r : RtuParser) :
    r.lenWord = BitVec.ofNat 16 ((if r.lenk then 0x8000 else 0) + r.len.toNat) := by
  have hlt := r.len.isLt
  apply BitVec.eq_of_toNat_eq
  rw [RtuParser.toNat_lenWord, BitVec.toNat_ofNat]
  cases r.lenk <;> simp <;> omega

/-- Settles O39: the codes by `codedAs_of_opcode`; each read only responds. -/
theorem rtuReadCommands : Obligations.RtuReadCommands := by
  refine ⟨codedAs_of_opcode (i := .rtuRdb 0) rfl (fun x => ?_) (by decide),
    codedAs_of_opcode (i := .rtuLen) rfl (fun _ => rfl) (by decide),
    codedAs_of_opcode (i := .rtuCnt) rfl (fun _ => rfl) (by decide),
    codedAs_of_opcode (i := .rtuCrc) rfl (fun _ => rfl) (by decide),
    fun s => ⟨fun x => exec_rtuRdb x s, ?_, ?_, rfl⟩⟩
  · rw [Instr.withOperand, usedOperand_eq]
  · rw [← RtuParser.lenWord_eq_ofNat]; rfl
  · rw [← zext16_eq_ofNat]; rfl

/-! ### The clear -/

/-- With the count 0 no byte of `RBUF` can be read (rule R62). -/
theorem exec_rtuRdb_of_empty {s : State} (h : s.rtu.idx = 0) (x : Half) :
    exec (.rtuRdb x) s = .next { s with rsp := 0x0000 } := by
  rw [exec_rtuRdb, if_neg (by rw [h]; exact Nat.not_lt_zero _)]

/-- Settles O26: a cleared parser is its own clear, and its count is 0. -/
theorem rtuClearRestoresParser : Obligations.RtuClearRestoresParser :=
  ⟨codedAs_of_opcode (i := .rtuClr) rfl (fun _ => rfl) (by decide),
    fun _ => ⟨_, rfl, rfl, rfl, exec_rtuRdb_of_empty rfl⟩⟩

/-! ### The push -/

/-- Settles O27, by the law of the dropped push. -/
theorem rtuPushDroppedAfterEnd : Obligations.RtuPushDroppedAfterEnd :=
  fun _ _ hs => exec_rtuPush_of (RtuParser.push_dropped hs)

/-- The first byte of a frame, in a parser whose `r_crc` is still the initial value (rule R160). -/
theorem RtuParser.Inv.push_idle (h : r.Inv) (hs : r.state = .idle) :
    r.push dir b =
      { r with dir := dir, buf := r.buf.write 0 b, crc := crcStep 0xFFFF b, idx := 1, state := .recv } := by
  have hi := h.idleIff.mp hs
  have hcrc : r.crc = 0xFFFF := congrArg RtuParser.crc (h.idle_eq hs)
  rw [RtuParser.push_first (.inl hs) hi (h.lenk_of_lt (by rw [hi]; decide)), hcrc]

/-- Only the push at index 0 latches a direction (rule R160). -/
theorem RtuParser.push_keeps_dir (h : r.idx ≠ 0) : (r.push dir b).dir = r.dir := by
  cases hacc : r.accepting with
  | false => rw [RtuParser.push_dropped (RtuParser.ended_of_not_accepting hacc)]
  | true =>
    obtain ⟨hdir, -⟩ := RtuParser.accept_frame (r := r) (dir := dir) (b := b)
    rw [RtuParser.push_eq_accept hacc, hdir, if_neg h]

/-- Settles O28: the law of the first byte; at any other index `cfg.RTU_DIR` is not looked at. -/
theorem rtuFirstByteLatchesDirection : Obligations.RtuFirstByteLatchesDirection := by
  refine ⟨fun x s hinv hs => exec_rtuPush_of ?_, fun x y s h0 =>
    ⟨_, _, execAll_eq_foldl _ _, exec_eq_after _ _, ?_, ?_⟩⟩
  · rw [hinv.rtu.push_idle hs, State.rtuDir_eq]
    rfl
  · have hrtu : (s.after (.cfgWr y)).rtu = s.rtu := State.after_rtu_other s (by simp [Instr.unit])
    exact State.after_rtu_congr_latch (i := .rtuPush x) hrtu fun _ hi => absurd hi (by rwa [hrtu])
  · exact RtuParser.push_keeps_dir (r := s.rtu) h0

/-! ### The control states (rule R156) -/

theorem RtuParser.complete_state {q : RtuParser} :
    (q.complete b).state =
      if (q.complete b).lenk = true ∧ (q.complete b).idx = (q.complete b).len then .done else q.state := by
  unfold RtuParser.complete
  by_cases hend : q.lenk = true ∧ q.idx = q.len
  · rw [if_pos hend]; exact (if_pos hend).symm
  · rw [if_neg hend]; exact (if_neg hend).symm

/-- Completion is the last thing an accepted byte does, and it starts from RECV. -/
theorem RtuParser.advance_state {q : RtuParser} {i : Idx} :
    (q.advance i b).state =
      if (q.advance i b).lenk = true ∧ (q.advance i b).idx = (q.advance i b).len then .done else .recv :=
  RtuParser.complete_state

theorem RtuParser.accept_state :
    (r.accept dir b).state =
      if r.idx = 1 ∧ lenClass r.dir b = .unsupported then .error
      else if (r.accept dir b).lenk = true ∧ (r.accept dir b).idx = (r.accept dir b).len then .done
      else .recv := by
  have hdir : r.idx = 1 → (r.store dir b).dir = r.dir := fun hi => by
    rw [RtuParser.store_of_ne (by rw [hi]; decide)]
  by_cases hu : r.idx = 1 ∧ lenClass r.dir b = .unsupported
  · rw [if_pos hu, RtuParser.accept, if_pos ⟨hu.1, by rw [hdir hu.1]; exact hu.2⟩]
    rfl
  · rw [if_neg hu, RtuParser.accept_advance fun h => hu ⟨h.1, by rw [← hdir h.1]; exact h.2⟩]
    exact RtuParser.advance_state

/-- Settles O37: only `RTU.CLR` and `RTU.PUSH` write the parser (`State.after_rtu`); the push by the state it meets. -/
theorem rtuControlTransitions : Obligations.RtuControlTransitions := by
  refine ⟨fun i s hinv => ⟨_, exec_eq_after i s, ?_⟩, fun s t v w rest hq ht => ?_⟩
  · cases i with
    | rtuPush x =>
      simp only [State.after_rtuPush_rtu]
      cases hs : s.rtu.state with
      | idle => rw [hinv.rtu.push_idle hs]
      | recv =>
        rw [RtuParser.push_accept (.inr hs)]
        exact RtuParser.accept_state
      | done =>
        rw [RtuParser.push_dropped (.inl hs)]
        exact ⟨by rw [hs], hs⟩
      | error =>
        rw [RtuParser.push_dropped (.inr hs)]
        exact ⟨by rw [hs], hs⟩
    | _ => rfl
  · obtain rfl := Host.Outcome.next.inj ((step_reset hq).symm.trans ht)
    rfl

end Sys2Proof.Machine
end

section
/-! When an accepted byte settles the frame's length, which bytes `r_crc` covers, and how the last byte is judged: what
follows from the invariant before and after the push (42_rtu_parser.md R161 to R166). -/

namespace Sys2Proof.Machine

variable {r : RtuParser} {dir : Dir} {b : Byte}

/-! ### The length (rules R161, R163) -/

/-- In every reachable parser the length is known exactly when the byte that settles it is held. -/
theorem RtuParser.Inv.lenk_iff (h : r.Inv) :
    r.lenk = true ↔ r.heldClass ≠ .unsupported ∧ decidingIndex r.dir (r.buf.read 1) < r.idx.toNat := by
  constructor
  · intro hk
    obtain ⟨hlen, hd⟩ := h.inferred hk
    refine ⟨fun hu => ?_, hd⟩
    rw [RtuParser.heldLength, rtuLength_eq_none.mpr hu] at hlen
    cases hlen
  · rintro ⟨hu, hd⟩
    by_contra hk
    have hunknown : r.lenk = false := by simpa using hk
    have hone := one_le_decidingIndex r.dir (r.buf.read 1)
    cases hs : r.state with
    | idle => rw [h.idleIff.mp hs] at hd; exact Nat.not_lt_zero _ hd
    | done => exact hk (h.doneIff.mp hs).1
    | error => exact hu (h.errorClass hs)
    | recv =>
      rcases h.waiting hs hunknown (by omega) with ⟨hc, hi⟩ | hc <;>
        rw [decidingIndex, show lenClass r.dir (r.buf.read 1) = _ from hc] at hd
      · rw [hi] at hd; exact absurd hd (by decide)
      · exact absurd (h.unknown hunknown).2 (Nat.not_le.mpr hd)

theorem RtuParser.Inv.idx_ne_zero (h : r.Inv) (hk : r.lenk = true) : r.idx ≠ 0 :=
  ne_zero_of_toNat_pos (Nat.zero_lt_of_lt (h.inferred hk).2)

/-- An accepted byte leaves a known length. -/
theorem RtuParser.Inv.push_keeps_len (h : r.Inv) (ha : r.accepting = true) (hk : r.lenk = true) :
    (r.push dir b).lenk = true ∧ (r.push dir b).len = r.len := by
  have hn := h.settlesNothing hk
  rw [RtuParser.push_eq_accept ha, RtuParser.accept_of_ne hn.1, RtuParser.advance_len.1, RtuParser.advance_len.2,
    RtuParser.infer_settlesNothing h.bufWf (h.idx_ne_zero hk) hn]
  exact ⟨hk, rfl⟩

theorem RtuParser.Inv.toNat_push_idx (h : r.Inv) (ha : r.accepting = true) :
    (r.push dir b).idx.toNat = r.idx.toNat + 1 := by
  rw [RtuParser.push_eq_accept ha, h.toNat_accept_idx]

theorem RtuParser.push_buf (ha : r.accepting = true) : (r.push dir b).buf = r.buf.write r.idx.toNat b := by
  obtain ⟨-, hbuf, -⟩ := RtuParser.accept_frame (r := r) (dir := dir) (b := b)
  rw [RtuParser.push_eq_accept ha, hbuf]

/-- From index 2 on a push leaves the function code and the direction it is read in. -/
theorem RtuParser.Inv.push_keeps_code (h : r.Inv) (ha : r.accepting = true) (h2 : 2 ≤ r.idx.toNat) :
    (r.push dir b).dir = r.dir ∧ (r.push dir b).buf.read 1 = r.buf.read 1 := by
  refine ⟨RtuParser.push_keeps_dir (ne_zero_of_toNat_pos (by omega)), ?_⟩
  rw [RtuParser.push_buf ha]
  exact h.kept (by omega)

/-- While the length is unknown the byte that settles it has not come. -/
theorem RtuParser.Inv.idx_le_deciding (h : r.Inv) (ha : r.accepting = true) (hk : r.lenk = false)
    (hu : (r.push dir b).heldClass ≠ .unsupported) :
    r.idx.toNat ≤ decidingIndex (r.push dir b).dir ((r.push dir b).buf.read 1) := by
  by_cases h2 : 2 ≤ r.idx.toNat
  · obtain ⟨hdir, hcode⟩ := h.push_keeps_code (dir := dir) (b := b) ha h2
    rw [RtuParser.heldClass, hdir, hcode] at hu
    rw [hdir, hcode]
    by_contra hlt
    rw [h.lenk_iff.mpr ⟨hu, Nat.not_le.mp hlt⟩] at hk
    cases hk
  · have hone := one_le_decidingIndex (r.push dir b).dir ((r.push dir b).buf.read 1)
    omega

/-- An unknown length becomes known exactly at the deciding byte of a supported function code. -/
theorem RtuParser.Inv.push_lenk_iff (h : r.Inv) (ha : r.accepting = true) (hk : r.lenk = false) :
    (r.push dir b).lenk = true ↔
      r.idx ≠ 0 ∧ (r.push dir b).heldClass ≠ .unsupported ∧
        r.idx.toNat = decidingIndex (r.push dir b).dir ((r.push dir b).buf.read 1) := by
  have hone := one_le_decidingIndex (r.push dir b).dir ((r.push dir b).buf.read 1)
  rw [(h.push dir b).lenk_iff, h.toNat_push_idx ha]
  constructor
  · rintro ⟨hu, hd⟩
    have hle := h.idx_le_deciding ha hk hu
    exact ⟨ne_zero_of_toNat_pos (by omega), hu, by omega⟩
  · rintro ⟨-, hu, hd⟩
    exact ⟨hu, by omega⟩

/-- Settles O32: when the length is settled by `push_keeps_len` and `push_lenk_iff`; its value and bounds by the
invariant after the push. -/
theorem lengthInferredOnce : Obligations.LengthInferredOnce := by
  intro x s hinv ha
  refine ⟨hinv.rtu.idx_lt ha, _, exec_eq_after _ _, ?_⟩
  simp only [State.memRead, State.after_rtuPush_rtu]
  have hafter := hinv.rtu.push s.rtuDir (x.setWidth 8)
  refine ⟨hinv.rtu.push_keeps_len ha, hinv.rtu.push_lenk_iff ha, fun hk => ?_⟩
  obtain ⟨hmin, hmax, -⟩ := hafter.known hk
  exact ⟨(hafter.inferred hk).1, hmin, hmax⟩

/-! ### The running CRC (rule R164) -/

/-- The byte that settles a length is a byte of the message frame. -/
theorem decidingIndex_lt_of_rtuLength {d : Dir} {fc x y : Byte} {n : Nat} (h : rtuLength d fc x y = some n) :
    decidingIndex d fc + 2 < n := by
  unfold rtuLength at h
  unfold decidingIndex
  cases hc : lenClass d fc <;> rw [hc] at h <;> simp at h ⊢ <;> omega

theorem RtuParser.Inv.settled_in_frame (h : r.Inv) (ha : r.accepting = true) (hk : r.lenk = false)
    (hk' : (r.push dir b).lenk = true) : r.idx.toNat + 2 < (r.push dir b).len.toNat := by
  obtain ⟨-, -, hi⟩ := (h.push_lenk_iff ha hk).mp hk'
  rw [hi]
  exact decidingIndex_lt_of_rtuLength ((h.push dir b).inferred hk').1

/-- Up to the checksum bytes `r_crc` covers every byte held. -/
theorem RtuParser.Inv.crc_of_body (h : r.Inv) (hs : r.state ≠ .error)
    (hi : r.lenk = false ∨ r.idx.toNat + 2 ≤ r.len.toNat) : r.crc = crc16 (r.buf.bytes r.idx.toNat) := by
  rw [h.crcCovers, RtuParser.folded, if_neg hs]
  cases hk : r.lenk with
  | false => rfl
  | true =>
    have hle : r.idx.toNat + 2 ≤ r.len.toNat := hi.resolve_left (by simp [hk])
    rw [if_pos rfl, Nat.min_eq_left (by omega)]

/-- From the checksum bytes on `r_crc` covers the message frame. -/
theorem RtuParser.Inv.crc_of_tail (h : r.Inv) (hk : r.lenk = true) (hi : r.len.toNat ≤ r.idx.toNat + 2) :
    r.crc = crc16 (r.buf.bytes (r.len.toNat - 2)) := by
  rw [h.crcCovers, RtuParser.folded, if_pos hk, Nat.min_eq_right (by omega)]

theorem RtuParser.not_error_of_accepting (ha : r.accepting = true) : r.state ≠ .error := fun hs => by
  simp [RtuParser.accepting, hs] at ha

/-- Which accepted bytes are folded: what `r_crc` covers before and after the push differs by the byte or not at all. -/
theorem RtuParser.Inv.push_crc (h : r.Inv) (ha : r.accepting = true) (hs : (r.push dir b).state ≠ .error) :
    (r.push dir b).crc =
      if (r.push dir b).lenk = false ∨ r.idx.toNat + 2 < (r.push dir b).len.toNat then crcStep r.crc b else r.crc := by
  have hafter := h.push dir b
  have hidx := h.toNat_push_idx (dir := dir) (b := b) ha
  have hkept := h.push_keeps_len (dir := dir) (b := b) ha
  split_ifs with hfold
  · have hbefore : r.lenk = false ∨ r.idx.toNat + 2 ≤ r.len.toNat := by
      cases hk : r.lenk with
      | false => exact .inl rfl
      | true =>
        obtain ⟨hk', hlen⟩ := hkept hk
        rw [hk', hlen] at hfold
        exact .inr (hfold.resolve_left (by decide)).le
    rw [hafter.crc_of_body hs (hfold.imp_right fun hlt => by omega), hidx, RtuParser.push_buf ha,
      Memory.bytes_write_at h.bufWf (h.idx_lt ha), crc16_append_one,
      ← h.crc_of_body (RtuParser.not_error_of_accepting ha) hbefore]
  · obtain ⟨hk', hle⟩ := not_or.mp hfold
    rw [Bool.not_eq_false] at hk'
    have hk : r.lenk = true := by
      by_contra hk
      exact hle (h.settled_in_frame ha (by simpa using hk) hk')
    obtain ⟨-, hlen⟩ := hkept hk
    rw [hafter.crc_of_tail hk' (by omega), h.crc_of_tail hk (by rw [← hlen]; omega), RtuParser.push_buf ha, hlen,
      Memory.bytes_write_above h.bufWf (by rw [← hlen]; omega)]

/-- Settles O33: `push_crc` for the folding, `settled_in_frame` for the byte that settles the length. -/
theorem crcAccumulatesFrameOnly : Obligations.CrcAccumulatesFrameOnly := by
  intro x s hinv ha
  refine ⟨_, exec_eq_after _ _, State.after_crc_other s (by simp [Instr.unit]), fun hs => ?_⟩
  simp only [State.after_rtuPush_rtu] at hs ⊢
  exact ⟨hinv.rtu.push_crc ha hs, hinv.rtu.settled_in_frame ha, (hinv.rtu.push _ _).crc_of_tail⟩

/-! ### The last byte (rule R166) -/

theorem Memory.bytes_add_two (m : Memory) (n : Nat) : m.bytes (n + 2) = m.bytes n ++ [m.read n, m.read (n + 1)] := by
  rw [Memory.bytes_succ, Memory.bytes_succ, List.append_assoc]
  rfl

/-- A frame's CRC was found right exactly when the CRC of the whole ADU is 0 (rule R127). -/
theorem RtuParser.Inv.crcok_iff_residue (h : r.Inv) (hs : r.state = .done) :
    r.crcok = true ↔ crc16 (r.buf.bytes r.len.toNat) = 0x0000 := by
  obtain ⟨hk, hi⟩ := h.doneIff.mp hs
  have hcrc := h.crc_of_tail hk (by rw [hi]; omega)
  have hmeans := h.crcokMeans hs
  obtain ⟨n, hn⟩ : ∃ n, r.len.toNat = n + 2 := Nat.exists_eq_add_of_le' (Nat.le_trans (by decide) (h.known hk).1)
  rw [hn] at hcrc hmeans ⊢
  rw [hmeans, Memory.bytes_add_two, crc16_append_two_eq_zero_iff, ← crcLow_eq, ← crcHigh_eq,
    ← show r.crc = crc16 (r.buf.bytes n) from hcrc]
  rfl

/-- Settles O34: `RtuParser.push_last` is the comparison; the residue form is `crcok_iff_residue` after the push. -/
theorem lastByteJudgesCrc : Obligations.LastByteJudgesCrc := by
  intro x s hinv ha hk hi
  have hafter := hinv.rtu.push s.rtuDir (x.setWidth 8)
  refine ⟨_, exec_eq_after _ _, ?_⟩
  rw [State.after_rtuPush_rtu]
  rw [RtuParser.push_last hinv.rtu.bufWf (RtuParser.open_of_accepting ha) (hinv.rtu.idx_ne_zero hk)
    (hinv.rtu.settlesNothing hk) hk hi] at hafter ⊢
  refine ⟨rfl, rfl, ?_, hafter.crcok_iff_residue rfl⟩
  rw [← crcLow_eq, ← crcHigh_eq, Bool.and_eq_true, beq_iff_eq, beq_iff_eq]
  rfl

end Sys2Proof.Machine
end

section
/-! Whole RTU frames: the result of any stream of pushes, and exception responses (42_rtu_parser.md R165, R168,
60_exceptions.md R251). -/

namespace Sys2Proof.Machine

/-- A first push and any commands after it but `RTU.CLR` feed an idle parser their pushed bytes. -/
theorem Fed.stream {s : State} {d : Dir} {x : Half} {cs : List Instr} (hinv : s.Inv) (hs : s.rtu.state = .idle)
    (hd : d = if s.cfg.getLsbD 1 then .request else .response) (hclr : .rtuClr ∉ cs) :
    Fed d ((Instr.rtuPush x :: cs).foldl State.after s).rtu (x.setWidth 8 :: rtuBytes cs) := by
  have hfirst : Fed d (s.after (.rtuPush x)).rtu [x.setWidth 8] := by
    rw [State.after_rtuPush_rtu]
    exact (Fed.start hinv.rtu hs d).push _ _ fun _ => (State.rtuDir_eq s).trans hd.symm
  exact hfirst.run (List.cons_ne_nil _ _) hclr

/-- Settles O40: the parser has been fed the bytes (`Fed.stream`), and `Fed.unsupported`, `Fed.part` and `Fed.whole` are
the three parts. -/
theorem rtuWholeFrame : Obligations.RtuWholeFrame := by
  intro s d x cs hinv hs hd hclr
  have hfed := Fed.stream (x := x) hinv hs hd hclr
  exact ⟨_, execAll_eq_foldl _ _, hfed.unsupported, fun w hw => ⟨hfed.part hw, fun _ hv => hfed.whole hw hv⟩⟩

/-! ### Exception responses -/

/-- `RTU.FRAME` feeds a cleared parser, whatever state it starts in. -/
theorem Fed.rtuFrame {s : State} {d : Dir} (hinv : s.Inv) (hd : d = if s.cfg.getLsbD 1 then .request else .response)
    (m : List Byte) : Fed d ((rtuFrame m).foldl State.after s).rtu m := by
  rw [foldl_rtuFrame, State.after_rtu]
  exact Fed.pushes (s.after .rtuClr) d m (hinv.after _).rtu rfl hd

/-- The status word of an exception response whose CRC is right (rule R251), whatever `CHECK_FRAME` is. -/
theorem RtuParser.stat_of_exception {r : RtuParser} (hs : r.state = .done) (hk : r.lenk = true)
    (hd : r.dir = .response) (hx : r.exc = true) (hc : r.crcok = true) (ho : r.ovr = false) (checkFrame : Bool) :
    r.stat checkFrame = 0x00B6 := by
  simp [RtuParser.stat, RtuParser.errCode, RtuParser.frameOk, RtuState.code, Dir.bit, hs, hk, hd, hx, hc, ho]

/-- In the response direction bit 7 makes the class (rule R97). -/
theorem lenClass_response_of_bit7 {fc : Byte} (h : fc.getLsbD 7 = true) : lenClass .response fc = .exc := by
  simp only [lenClass, responseClass, h, if_true]

/-- In the request direction no class has codes with bit 7 set (rule R98). -/
theorem lenClass_request_of_bit7 {fc : Byte} (h : fc.getLsbD 7 = true) : lenClass .request fc = .unsupported := by
  have hne : ∀ c : Byte, c.getLsbD 7 = false → fc ≠ c := by rintro c hc rfl; rw [h] at hc; cases hc
  simp [lenClass, requestClass, hne]

theorem rtuLength_of_exc {d : Dir} {fc b2 b6 : Byte} (h : lenClass d fc = .exc) : rtuLength d fc b2 b6 = some 5 := by
  rw [rtuLength, h]

/-- Two bytes after a frame make its encoding exactly when they are its CRC, low byte first (rule R109). -/
theorem rtuEncode_eq_append_iff (m : List Byte) (x y : Byte) :
    rtuEncode m = m ++ [x, y] ↔ x = crcLow (crc16 m) ∧ y = crcHigh (crc16 m) := by
  rw [rtuEncode, List.append_cancel_left_eq]
  simp [eq_comm]

/-- A parser in the response direction that has been given five bytes, of which the second has bit 7 set. -/
theorem Fed.exception {r : RtuParser} {sa fc code x y : Byte} (h : Fed .response r [sa, fc, code, x, y])
    (hfc : fc.getLsbD 7 = true) :
    r.state = .done ∧ r.exc = true ∧ r.len = 5 ∧ r.idx = 5 ∧
      (r.crcok = true ↔ rtuEncode [sa, fc, code] = [sa, fc, code, x, y]) ∧
      (∀ checkFrame, r.crcok = true → r.stat checkFrame = 0x00B6) := by
  have hclass := lenClass_response_of_bit7 hfc
  obtain ⟨hs, hlen, hidx, -, hcrc, hcrcok, hovr⟩ :=
    h.whole (w := [sa, fc, code, x, y]) (more := []) (rtuLength_of_exc hclass) (List.append_nil _).symm
  have h2 : 2 ≤ r.idx.toNat := by simp [hidx]
  have hexc : r.exc = true := (h.inv.excIff h2).mpr ((h.heldClass h2).trans hclass)
  refine ⟨hs, hexc, BitVec.eq_of_toNat_eq hlen, BitVec.eq_of_toNat_eq hidx, ?_, fun _ hc => ?_⟩
  · rw [hcrcok, hcrc, ← crcLow_eq, ← crcHigh_eq]
    exact (rtuEncode_eq_append_iff [sa, fc, code] x y).symm
  · exact RtuParser.stat_of_exception hs (h.inv.doneIff.mp hs).1 (h.dir (List.cons_ne_nil _ _)) hexc hc
      (by simpa using hovr) _

/-- `RTU.RDB i` answers the byte `i` of those the parser was given, where it holds that one. -/
theorem Fed.rsp_rtuRdb {s : State} {d : Dir} {v : List Byte} (h : Fed d s.rtu v) {x : Half}
    (hx : x.toNat % 2 ^ 9 < s.rtu.idx.toNat) :
    (s.after (.rtuRdb x)).rsp = (v.getD (x.toNat % 2 ^ 9) 0).setWidth 16 := by
  rw [exec_next_iff.mp (exec_rtuRdb x s), ← h.read hx, zext16_eq_ofNat]
  exact if_pos hx

theorem RtuParser.Inv.stat_of_error {r : RtuParser} (h : r.Inv) (hs : r.state = .error) (checkFrame : Bool) :
    (r.stat checkFrame).toNat / 2 ^ 8 = 3 := by
  obtain ⟨-, -, -, -, -, -, -, hcode, hzero⟩ := r.stat_fields checkFrame
  obtain ⟨-, herr, -⟩ := h.errorHolds hs
  rw [RtuParser.errCode, if_pos hs, herr] at hcode
  change _ = 3 at hcode
  omega

/-- `RTU.FRAME` ends with the status read, so its response is the status word of the state it leaves. -/
theorem rsp_foldl_rtuFrame (m : List Byte) (s : State) :
    ((rtuFrame m).foldl State.after s).rsp =
      ((rtuFrame m).foldl State.after s).rtu.stat ((rtuFrame m).foldl State.after s).checkFrame := by
  rw [foldl_rtuFrame]
  rfl

/-- Settles O42: in the response direction the frame is fed and judged as `Fed.exception` says, and its bytes are read
back; in the request direction the code is unsupported. -/
theorem exceptionResponseIsNoError : Obligations.ExceptionResponseIsNoError := by
  intro s sa fc code hinv hfc
  refine ⟨fun hcfg x y => ?_, fun hcfg => ⟨_, execAll_eq_foldl _ _, ?_⟩⟩
  · have hfed := Fed.rtuFrame (d := .response) hinv (by rw [hcfg]; rfl) [sa, fc, code, x, y]
    obtain ⟨hs, hexc, hlen, hidx, hcrcok, hstat⟩ := hfed.exception hfc
    have hrdb := fun (i : Half) (hi : i.toNat % 2 ^ 9 < 5) => hfed.rsp_rtuRdb (x := i) (by rw [hidx]; exact hi)
    refine ⟨_, _, _, execAll_eq_foldl _ _, hs, hexc, hlen, hcrcok, fun hc => ?_, exec_eq_after _ _,
      hrdb 2 (by decide), exec_eq_after _ _, ?_⟩
    · rw [rsp_foldl_rtuFrame, hstat _ hc]
    · rw [hrdb 1 (by decide)]
      rfl
  · have hfed := Fed.rtuFrame (d := .request) hinv (by rw [hcfg]; rfl) [sa, fc]
    obtain ⟨hs, -⟩ := hfed.unsupported (Nat.le_refl 2) (rtuLength_eq_none.mpr (lenClass_request_of_bit7 hfc))
    exact ⟨hs, by rw [rsp_foldl_rtuFrame, hfed.inv.stat_of_error hs]⟩

end Sys2Proof.Machine
end

section
/-! The ASCII detector's commands taken one at a time: clear, the push by what it meets, the control states and the
reads (43_ascii_detector.md R191 to R201, R206 to R208). -/

namespace Sys2Proof.Machine

variable {a : AscDetector} {c : Byte}

/-! ### The reads -/

/-- `ASC.RDB` as rule R206 writes it. -/
theorem exec_ascRdb (x : Half) (s : State) :
    exec (.ascRdb x) s =
      .next { s with rsp := if x.toNat % 2 ^ 9 < s.asc.cnt.toNat
                            then BitVec.ofNat 16 (s.memRead .abuf (x.toNat % 2 ^ 9)).toNat else 0x0000 } := by
  have hidx : (operandIndex x).toNat = x.toNat % 2 ^ 9 := BitVec.toNat_setWidth 9 x
  rw [exec_eq_after, ← hidx]
  by_cases h : (operandIndex x).toNat < s.asc.cnt.toNat
  · rw [if_pos h, State.memRead, ← readBelow_of_lt h, ← zext16_eq_ofNat]; rfl
  · have hzero : (readBelow s.asc.buf s.asc.cnt (operandIndex x)).setWidth 16 = 0x0000 := by
      rw [readBelow_of_le (Nat.le_of_not_lt h)]; rfl
    rw [if_neg h, ← hzero]; rfl

/-- Settles O52: the codes by `codedAs_of_opcode`; each read only responds. -/
theorem ascReadCommands : Obligations.AscReadCommands := by
  refine ⟨codedAs_of_opcode (i := .ascRdb 0) rfl (fun x => ?_) (by decide),
    codedAs_of_opcode (i := .ascCnt) rfl (fun _ => rfl) (by decide),
    codedAs_of_opcode (i := .ascSum) rfl (fun _ => rfl) (by decide),
    codedAs_of_opcode (i := .ascPush 0) rfl (fun x => ?_) (by decide),
    codedAs_of_opcode (i := .rtuPush 0) rfl (fun x => ?_) (by decide),
    fun s => ⟨fun x => exec_ascRdb x s, ?_, ?_⟩⟩
  iterate 3 rw [Instr.withOperand, usedOperand_eq]
  · rw [← zext16_eq_ofNat]; rfl
  · rw [← zext16_eq_ofNat]; rfl

/-! ### The clear -/

/-- With the count 0 no byte of `ABUF` can be read (rule R62). -/
theorem exec_ascRdb_of_empty {s : State} (h : s.asc.cnt = 0) (x : Half) :
    exec (.ascRdb x) s = .next { s with rsp := 0x0000 } := by
  rw [exec_ascRdb, if_neg (by rw [h]; exact Nat.not_lt_zero _)]

/-- Settles O43: a cleared detector is its own clear, and its count is 0. -/
theorem ascClearRestoresDetector : Obligations.AscClearRestoresDetector :=
  ⟨codedAs_of_opcode (i := .ascClr) rfl (fun _ => rfl) (by decide),
    fun _ => ⟨_, rfl, rfl, rfl, exec_ascRdb_of_empty rfl⟩⟩

/-! ### The control states (rule R191) -/

/-- The control state after a push: no register but the control state decides it. -/
theorem AscDetector.push_state :
    (a.push c).state =
      if a.state = .done ∨ a.state = .cr ∧ c = charLf then .done else if c = charCr then .cr else .line := by
  cases hs : a.state with
  | done => rw [AscDetector.push_dropped hs]; simp [hs]
  | idle => rw [AscDetector.push_take (.inl hs), AscDetector.take_state]; simp
  | line => rw [AscDetector.push_take (.inr hs), AscDetector.take_state]; simp
  | cr =>
    by_cases hc : c = charLf
    · subst hc; rw [AscDetector.push_end hs]; simp
    · rw [AscDetector.push_pending hs hc, AscDetector.take_state]; simp [hc]

/-- Settles O45: only `ASC.CLR` and `ASC.PUSH` write the detector (`State.after_asc`); the push by
`AscDetector.push_state`. -/
theorem ascControlTransitions : Obligations.AscControlTransitions := by
  refine ⟨fun i s => ⟨_, exec_eq_after i s, ?_⟩, fun s t v w rest hq ht => ?_⟩
  · cases i with
    | ascPush x =>
      have hpush : (s.after (.ascPush x)).asc = s.asc.push (x.setWidth 8) := State.after_asc s _
      simp only [hpush]
      cases hs : s.asc.state with
      | idle | line => rw [AscDetector.push_state, hs]; exact if_neg (by simp)
      | cr => rw [AscDetector.push_state, hs]; exact if_congr (by simp [charLf]) rfl rfl
      | done => rw [AscDetector.push_dropped hs]; exact ⟨hs, rfl⟩
    | _ => rfl
  · obtain rfl := Host.Outcome.next.inj ((step_reset hq).symm.trans ht)
    rfl

/-! ### The push -/

/-- Settles O44, by the law of the dropped push. -/
theorem ascPushDroppedAfterEnd : Obligations.AscPushDroppedAfterEnd :=
  fun _ _ hs => exec_ascPush_of (AscDetector.push_dropped hs)

/-- A push with no CR pending, of any character but CR, consumes it. -/
theorem AscDetector.push_data (hs : a.state = .idle ∨ a.state = .line) (hc : c ≠ charCr) :
    a.push c = { a.data c with state := .line } := by
  rw [AscDetector.push_take hs, AscDetector.take_data hc]

/-- Two detectors that a character makes equal make equal states of its push. -/
theorem exec_ascPush_congr {s : State} {x : Half} (h : s.asc.push (operandByte x) = a.push (operandByte x)) :
    exec (.ascPush x) s = exec (.ascPush x) { s with asc := a } :=
  exec_ascPush_of h

/-- LF after a pending CR, as a command. -/
theorem exec_ascPush_end {s : State} {x : Half} (hx : x.setWidth 8 = (0x0A : Byte)) (hs : s.asc.state = .cr) :
    exec (.ascPush x) s = .next { s with asc := s.asc.endLine, rsp := 0 } := by
  have hlf : operandByte x = charLf := hx
  exact exec_ascPush_of (by rw [hlf, AscDetector.push_end hs])

/-! ### The first data character (rule R197) -/

/-- The first data character starts the line and is consumed, whatever it is. -/
theorem AscDetector.push_first (hs : a.state = .idle ∨ a.state = .line) (hst : a.started = false) (hc : c ≠ charCr) :
    a.push c =
      { a with state := .line, started := true
               flags := if c = charColon then a.flags else a.flags ||| 0b00001 } := by
  rw [AscDetector.push_data hs hc]
  by_cases hcolon : c = charColon
  · rw [if_pos hcolon, hcolon, AscDetector.data_colon hst]
  · rw [if_neg hcolon, AscDetector.data_badStart hst hcolon]; rfl

/-- Within the invariant no flag is set before the first data character of a line. -/
theorem AscDetector.Inv.flags_of_not_started (h : a.Inv) (hs : a.state = .idle ∨ a.state = .line)
    (hst : a.started = false) : a.flags = 0 := by
  rcases hs with hs | hs
  · exact congrArg AscDetector.flags (h.idleClear hs)
  · exact absurd (h.lineStarted hs) (by simp [hst])

theorem AscDetector.Inv.push_first_sof (h : a.Inv) (hs : a.state = .idle ∨ a.state = .line) (hst : a.started = false)
    (hc : c ≠ charCr) : (a.push c).sof = decide (c = charColon) := by
  rw [AscDetector.push_first hs hst hc, h.flags_of_not_started hs hst]
  by_cases hcolon : c = charColon <;> simp [AscDetector.sof, AscDetector.flag, AscFlag.bit, hcolon]

/-- No data character but the first sets BADSTART. -/
theorem AscDetector.data_flag_badStart (h : a.started = true) : (a.data c).flag .badStart = a.flag .badStart := by
  cases hv : hexVal c with
  | none => rw [AscDetector.data_nonHex h hv]; simp
  | some n =>
    cases hp : a.phase with
    | false => rw [AscDetector.data_high h hv hp]; rfl
    | true =>
      by_cases hr : a.cnt.toNat = Config.bufBytes
      · rw [AscDetector.data_overflow h hv hp hr, AscDetector.flag_raise]; rfl
      · rw [AscDetector.data_low h hv hp hr]; rfl

theorem AscDetector.data_keeps_sof (h : a.started = true) :
    (a.data c).sof = a.sof ∧ (a.data c).started = true := by
  obtain ⟨-, -, -, hstarted⟩ := AscDetector.data_keeps (a := a) (c := c)
  exact ⟨by rw [AscDetector.sof, AscDetector.sof, hstarted, AscDetector.data_flag_badStart h, h], hstarted⟩

theorem AscDetector.take_keeps_sof (h : a.started = true) :
    (a.take c).sof = a.sof ∧ (a.take c).started = true := by
  by_cases hc : c = charCr
  · subst hc; rw [AscDetector.take_cr]; exact ⟨rfl, h⟩
  · rw [AscDetector.take_data hc]; exact AscDetector.data_keeps_sof h

/-- SOF keeps the value the first data character gave it. -/
theorem AscDetector.push_keeps_sof (h : a.started = true) :
    (a.push c).sof = a.sof ∧ (a.push c).started = true := by
  cases hs : a.state with
  | done => rw [AscDetector.push_dropped hs]; exact ⟨rfl, h⟩
  | idle => rw [AscDetector.push_take (.inl hs)]; exact AscDetector.take_keeps_sof h
  | line => rw [AscDetector.push_take (.inr hs)]; exact AscDetector.take_keeps_sof h
  | cr =>
    by_cases hc : c = charLf
    · subst hc
      rw [AscDetector.push_end hs]
      simp [AscDetector.sof, AscDetector.endLine_flag, h]
    · obtain ⟨hsof, hstarted⟩ := AscDetector.data_keeps_sof (c := charCr) h
      obtain ⟨tsof, tstarted⟩ := AscDetector.take_keeps_sof (c := c) hstarted
      rw [AscDetector.push_pending hs hc]
      exact ⟨tsof.trans hsof, tstarted⟩

/-- Settles O46: the first character by `AscDetector.push_first`, later ones by `AscDetector.push_keeps_sof`, the line
without one by the flags its end sets. -/
theorem ascFirstCharacterMustBeColon : Obligations.AscFirstCharacterMustBeColon := by
  refine ⟨fun x s hs hst hx => ?_, fun x s hst => ⟨_, exec_eq_after _ _, ?_⟩, fun x s t hx hs hst ht => ?_⟩
  · have hpush := AscDetector.push_first (c := operandByte x) hs hst hx
    exact ⟨_, rfl, exec_ascPush_of hpush, fun hinv =>
      (congrArg AscDetector.sof hpush).symm.trans (hinv.asc.push_first_sof hs hst hx)⟩
  · rw [State.after_asc]; exact AscDetector.push_keeps_sof hst
  · obtain rfl := Host.Outcome.next.inj ((exec_ascPush_end hx hs).symm.trans ht)
    simp [AscDetector.endLine_flag, hst]

/-! ### The pending CR (rules R196, R198) -/

/-- A pending CR that no LF follows is one more data character before the new one. -/
theorem AscDetector.push_pending_eq_push (hs : a.state = .cr) (hc : c ≠ charLf) :
    a.push c = ({ a.data charCr with state := .line } : AscDetector).push c := by
  rw [AscDetector.push_pending hs hc, AscDetector.push_take (.inr rfl)]
  exact (AscDetector.take_setState .line).symm

/-- A character other than CR that is no hex digit is flagged and skipped (rule R198). -/
theorem AscDetector.push_nonHex (hs : a.state = .idle ∨ a.state = .line) (hst : a.started = true) (hc : c ≠ charCr)
    (hv : hexVal c = none) : a.push c = { a with state := .line, flags := a.flags ||| 0b00010 } := by
  rw [AscDetector.push_data hs hc, AscDetector.data_nonHex hst hv]; rfl

/-- Settles O47, by the law of a skipped character and that of the pending CR. -/
theorem ascNonHexIsFlaggedAndSkipped : Obligations.AscNonHexIsFlaggedAndSkipped := by
  refine ⟨?_, fun x s hs hst hx => exec_ascPush_congr ?_⟩
  · rintro x s c rfl hs hst hcr hdigit hletter
    have hv : hexVal (x.setWidth 8) = none := by rw [hexVal, if_neg hdigit, if_neg hletter]
    exact exec_ascPush_of (AscDetector.push_nonHex hs hst hcr hv)
  · rw [AscDetector.push_pending_eq_push (c := operandByte x) hs hx,
      AscDetector.data_nonHex hst hexVal_cr]; rfl

/-! ### Hex digits (rule R199) -/

/-- The two ranges of hex digits and their values (rule R94). -/
theorem hexVal_of_digit {n : Nat}
    (h : (0x30 ≤ c.toNat ∧ c.toNat ≤ 0x39 ∧ n = c.toNat - 0x30) ∨
      (0x41 ≤ c.toNat ∧ c.toNat ≤ 0x46 ∧ n = c.toNat - 0x41 + 10)) : hexVal c = some (BitVec.ofNat 4 n) ∧ n < 16 := by
  rcases h with ⟨hlo, hhi, rfl⟩ | ⟨hlo, hhi, rfl⟩
  · exact ⟨if_pos ⟨hlo, hhi⟩, by omega⟩
  · exact ⟨(if_neg (by omega)).trans (if_pos ⟨hlo, hhi⟩), by omega⟩

/-- A byte from its nibbles, the high one first (rule R65). -/
theorem append_nibble_eq {hi : Nibble} {n : Nat} {v : Byte} (hn : n < 16) (hv : v.toNat = 16 * hi.toNat + n) :
    hi ++ BitVec.ofNat 4 n = v := by
  apply BitVec.eq_of_toNat_eq
  rw [toNat_append_add, BitVec.toNat_ofNat, hv, Nat.mod_eq_of_lt hn, Nat.mul_comm hi.toNat]; rfl

/-- Settles O48: a hex digit is a data character with a value; each case of it is a law of the data character. -/
theorem ascHexPairs : Obligations.AscHexPairs := by
  rintro x s c n rfl hs hst hdigit
  obtain ⟨hv, hn⟩ := hexVal_of_digit hdigit
  obtain ⟨-, hcr, -⟩ := hexVal_isSome_ne (Option.isSome_of_eq_some hv)
  have hpush : s.asc.push (operandByte x) = { s.asc.data (x.setWidth 8) with state := .line } :=
    AscDetector.push_data hs hcr
  refine ⟨fun hp => exec_ascPush_of ?_, fun hp hfull => exec_ascPush_of ?_, fun hp hroom v hval => exec_ascPush_of ?_⟩
  · rw [hpush, AscDetector.data_high hst hv hp]
  · rw [hpush, AscDetector.data_overflow hst hv hp hfull]; rfl
  · rw [hpush, AscDetector.data_low hst hv hp hroom, append_nibble_eq hn hval, sumStep_eq_add]

end Sys2Proof.Machine
end

section
/-! The end of a line of the ASCII detector, and lines over streams of commands (43_ascii_detector.md R196, R200,
R204). -/

namespace Sys2Proof.Machine

variable {a : AscDetector} {c : Byte}

/-! ### The end of a line (rule R200) -/

/-- The end of a line writes the control state, the flags and `a_lrcok` alone. -/
theorem AscDetector.endLine_frame :
    { a.endLine with state := a.state, flags := a.flags, lrcok := a.lrcok } = a := by
  simp only [AscDetector.endLine_started, AscDetector.endLine_phase, AscDetector.endLine_hi, AscDetector.endLine_cnt,
    AscDetector.endLine_sum, AscDetector.endLine_ovr, AscDetector.endLine_buf]

/-- What the LRC check means: the last decoded byte is the LRC of the bytes before it (rules R146, R200). -/
theorem AscDetector.Inv.endLine_lrcok_iff (h : a.Inv) :
    a.endLine.lrcok = true ↔
      1 ≤ a.cnt.toNat ∧ lrc (a.buf.bytes (a.cnt.toNat - 1)) = a.buf.read (a.cnt.toNat - 1) := by
  rw [AscDetector.endLine_lrcok, decide_eq_true_eq, h.sumCovers, and_comm]
  refine and_congr_right fun hpos => ?_
  obtain ⟨k, hk⟩ := Nat.exists_eq_add_of_le' hpos
  rw [hk, Nat.add_sub_cancel, Memory.bytes_succ, byteSum_append_one, lrc_eq_iff]
  rfl

/-- Settles O49, by the laws of the end of a line. -/
theorem ascEndOfLineJudges : Obligations.AscEndOfLineJudges := by
  intro x s hx hs
  refine ⟨_, exec_ascPush_end hx hs, AscDetector.endLine_state, ?_, ?_, ?_, ?_, ?_, AscDetector.endLine_lrcok,
    AscDetector.endLine_frame, rfl, rfl, fun hinv => ?_⟩
  iterate 5 simp [AscDetector.endLine_flag]
  · simp only [State.memRead, AscDetector.endLine_cnt, AscDetector.endLine_buf]
    exact hinv.asc.endLine_lrcok_iff

/-! ### Where a line ends (rule R196) -/

/-- The characters pushed and not yet consumed: a CR that is held. -/
def AscDetector.held (a : AscDetector) : List Byte := if a.state = .cr then [charCr] else []

theorem noDelimiter_cons_of_ne_cr {x : Byte} (h : x ≠ charCr) (l : List Byte) :
    noDelimiter (x :: l) = noDelimiter l := by
  cases l with
  | nil => rfl
  | cons y l => simp [noDelimiter, h]

theorem noDelimiter_cons_cr_of_ne_lf {x : Byte} (h : x ≠ charLf) (l : List Byte) :
    noDelimiter (charCr :: x :: l) = noDelimiter (x :: l) := by
  simp [noDelimiter, h]

/-- A character that does not end the line is held if it is CR, and if not no delimiter begins at it. -/
theorem AscDetector.noDelimiter_held_push (hdone : a.state ≠ .done) (hend : ¬(a.state = .cr ∧ c = charLf))
    (l : List Byte) : noDelimiter ((a.push c).held ++ l) = noDelimiter (a.held ++ c :: l) := by
  have hnew : noDelimiter ((a.push c).held ++ l) = noDelimiter (c :: l) := by
    rw [AscDetector.held, AscDetector.push_state, if_neg (not_or.mpr ⟨hdone, hend⟩)]
    by_cases hc : c = charCr
    · simp [hc]
    · simp [hc, noDelimiter_cons_of_ne_cr hc]
  rw [hnew, AscDetector.held]
  split_ifs with hs
  · exact (noDelimiter_cons_cr_of_ne_lf (fun hc => hend ⟨hs, hc⟩) l).symm
  · rfl

/-- The detector is in DONE once the characters, a held CR before them, contain the delimiter. -/
theorem AscDetector.foldl_push_done_iff (l : List Byte) (a : AscDetector) :
    (l.foldl AscDetector.push a).state = .done ↔ a.state = .done ∨ noDelimiter (a.held ++ l) = false := by
  induction l generalizing a with
  | nil =>
    have hheld : noDelimiter a.held = true := by unfold AscDetector.held; split_ifs <;> rfl
    simp [hheld]
  | cons c l ih =>
    rw [List.foldl_cons, ih, AscDetector.push_state]
    by_cases hdone : a.state = .done
    · simp [hdone]
    · by_cases hend : a.state = .cr ∧ c = charLf
      · simp [AscDetector.held, hend, noDelimiter]
      · have hopen : (if c = charCr then AscState.cr else .line) ≠ .done := by split_ifs <;> decide
        rw [if_neg (not_or.mpr ⟨hdone, hend⟩), AscDetector.noDelimiter_held_push hdone hend]
        simp [hopen, hdone]

/-- Settles O50: the three pushes by the laws of the held CR, the runs by `AscDetector.foldl_push_done_iff`. -/
theorem ascPendingCr : Obligations.AscPendingCr := by
  refine ⟨fun x s hx hs => exec_ascPush_of ?_,
    fun x s hs hx => exec_ascPush_congr ?_,
    fun x s hs hx => ⟨_, exec_ascPush_end hx hs, AscDetector.endLine_state, AscDetector.endLine_frame, ?_⟩,
    fun cs s hs hclr => ⟨_, execAll_eq_foldl _ _, ?_⟩⟩
  · have hcr : operandByte x = charCr := hx
    rw [hcr, AscDetector.push_take hs, AscDetector.take_cr]
  · rw [AscDetector.push_pending_eq_push (c := operandByte x) hs hx, AscDetector.data_cr]
    cases s.asc.started <;> rfl
  · simp [AscDetector.endLine_flag]
  · rw [foldl_after_asc hclr, AscDetector.foldl_push_done_iff]
    simp [AscDetector.held, hs]

/-! ### The whole line (rule R204) -/

/-- Settles O53: `AscDetector.line_result` brings the detector to the end of the line; what it holds there is
`LineRead`, and the end adds the flags of `AscDetector.endLine_flag`. -/
theorem ascWholeLine : Obligations.AscWholeLine := by
  intro s cs line hinv hs hclr hcs hn
  obtain ⟨b, hb, hend⟩ := AscDetector.line_result hinv.asc hs line hn
  have hasc : (cs.foldl State.after s).asc = b.endLine := by rw [foldl_after_asc hclr, hcs, hend]
  refine ⟨_, execAll_eq_foldl _ _, ?_⟩
  simp only [hasc, AscDetector.endLine_cnt, AscDetector.endLine_buf, AscDetector.endLine_sum,
    AscDetector.endLine_lrcok, decide_eq_true_eq]
  refine ⟨AscDetector.endLine_state, ?badStart, ?nonHex, ?odd, ?ovf, hb.cnt, hb.buf, ?short, ?sum, trivial⟩
  case badStart =>
    have hflag : b.endLine.flag .badStart = true ↔ b.flag .badStart = true ∨ b.started = false := by
      simp [AscDetector.endLine_flag]
    rw [hflag, hb.bad, hb.started]
    by_cases hl : line = [] <;> simp [hl]
  case nonHex => rw [← hb.nonHex]; simp [AscDetector.endLine_flag]
  case odd => rw [← hb.phase]; simp [AscDetector.endLine_flag, hb.op.odd]
  case ovf => rw [← hb.ovf]; simp [AscDetector.endLine_flag]
  case short => simp [AscDetector.endLine_flag, hb.op.short]
  case sum => rw [hb.op.sumCovers, hb.buf]

end Sys2Proof.Machine
end

section
/-! A complete ADU with a wrong checksum, over both transports (44_config_and_misc.md R233). -/

namespace Sys2Proof.Machine

/-! ### The RTU parser -/

/-- The status word of a finished frame whose CRC is wrong: `CHECK_FRAME` decides ERR and FRAME_OK (rule R41). -/
theorem RtuParser.stat_of_wrongCrc {r : RtuParser} (hs : r.state = .done) (hc : r.crcok = false) (checkFrame : Bool) :
    (r.stat checkFrame).toNat / 2 ^ 8 % 8 = (if checkFrame then 2 else 0) ∧
      (r.stat checkFrame).getLsbD 5 = !checkFrame ∧ (r.stat checkFrame).getLsbD 4 = false := by
  obtain ⟨-, -, -, hcrcok, hframe, -, -, herr, -⟩ := r.stat_fields checkFrame
  rw [herr, hframe, hcrcok, RtuParser.errCode, RtuParser.frameOk, hs, hc]
  cases checkFrame <;> exact ⟨rfl, rfl, rfl⟩

/-- The whole-frame result of a well-shaped ADU, of which `x` and `y` are the last two bytes. -/
theorem Fed.wellShaped {d : Dir} {r : RtuParser} {frame : List Byte} {x y : Byte} (h : Fed d r (frame ++ [x, y]))
    (hshape : wellShaped d (frame ++ [x, y]) = true) :
    r.state = .done ∧ r.idx.toNat = frame.length + 2 ∧
      (r.crcok = true ↔ x = (crc16 frame).setWidth 8 ∧ y = (crc16 frame >>> 8).setWidth 8) := by
  obtain ⟨hs, -, hidx, -, hcrc, hcrcok, -⟩ :=
    h.whole (more := []) (rtuLength_of_wellShaped hshape) (List.append_nil _).symm
  rw [show (frame ++ [x, y]).length = frame.length + 2 by simp] at hidx hcrc hcrcok
  rw [Nat.add_sub_cancel, List.take_left] at hcrc
  rw [hcrc] at hcrcok
  exact ⟨hs, hidx, by simpa [List.getD] using hcrcok⟩

/-- `RTU.RDB` reads back a byte the parser holds, and does nothing else. -/
theorem Fed.exec_rtuRdb {s : State} {d : Dir} {v : List Byte} (h : Fed d s.rtu v) {k : Nat} (hk : k < s.rtu.idx.toNat) :
    exec (.rtuRdb (BitVec.ofNat 16 k)) s = .next { s with rsp := (v.getD k 0).setWidth 16 } := by
  have hlt := s.rtu.idx.isLt
  have hindex : (BitVec.ofNat 16 k).toNat % 2 ^ 9 = k := by rw [BitVec.toNat_ofNat]; omega
  rw [Machine.exec_rtuRdb, hindex, if_pos hk, State.memRead, h.read hk, zext16_eq_ofNat (v.getD k 0)]

/-! ### The ASCII detector -/

/-- The status word of a finished line without framing flags whose LRC is wrong (rule R42). -/
theorem AscDetector.stat_of_wrongLrc {a : AscDetector} (hs : a.state = .done) (hf : a.flags = 0)
    (hl : a.lrcok = false) (checkFrame : Bool) :
    (a.stat checkFrame).toNat / 2 ^ 8 % 8 = (if checkFrame then 2 else 0) ∧
      (a.stat checkFrame).getLsbD 5 = !checkFrame ∧ (a.stat checkFrame).getLsbD 4 = false := by
  obtain ⟨-, -, -, hlrcok, hframe, -, -, herr, -⟩ := a.stat_fields checkFrame
  rw [herr, hframe, hlrcok, AscDetector.errCode, AscDetector.frameOk, hs, hf, hl]
  cases checkFrame <;> exact ⟨rfl, rfl, rfl⟩

/-- A cleared detector that is given the hex line of a frame and a last byte other than its LRC holds the frame and has
found the LRC wrong. -/
theorem AscDetector.foldl_push_wrongLrc {a : AscDetector} (h : a.Inv) (hs : a.state = .idle) {frame : List Byte}
    {x : Byte} (hmin : 2 ≤ frame.length) (hmax : frame.length ≤ 263) (hx : x ≠ lrc frame) :
    ∃ t, ([0x3A] ++ frame.flatMap hexPair ++ hexPair x ++ [0x0D, 0x0A]).foldl AscDetector.push a = t ∧
      t.state = .done ∧ t.flags = 0 ∧ t.lrcok = false ∧ t.cnt.toNat = frame.length + 1 ∧
      t.buf.bytes frame.length = frame := by
  have hlength : (frame ++ [x]).length = frame.length + 1 := by simp
  have hsum : byteSum (frame ++ [x]) ≠ 0 := fun h0 =>
    hx ((lrc_eq_iff frame x).mpr ((byteSum_append_one frame x).symm.trans h0)).symm
  obtain ⟨t, ht, hdone, hflags, -, hcnt, hbytes, hlrcok⟩ :=
    hexLine_result h hs (frame ++ [x]) (by omega) (by omega)
  rw [hlength] at hcnt hbytes
  rw [Memory.bytes_succ] at hbytes
  obtain ⟨hframe, -⟩ := List.append_inj' hbytes rfl
  exact ⟨t, by simpa using ht, hdone, hflags, hlrcok.trans (decide_eq_false hsum), hcnt, hframe⟩

/-- `ASC.RDB` reads back one of the first bytes that the detector holds, and does nothing else. -/
theorem exec_ascRdb_of_bytes {s : State} {v : List Byte} (hv : s.asc.buf.bytes v.length = v) {k : Nat}
    (hk : k < v.length) (hcnt : v.length ≤ s.asc.cnt.toNat) :
    exec (.ascRdb (BitVec.ofNat 16 k)) s = .next { s with rsp := (v.getD k 0).setWidth 16 } := by
  have hlt := s.asc.cnt.isLt
  have hindex : (BitVec.ofNat 16 k).toNat % 2 ^ 9 = k := by rw [BitVec.toNat_ofNat]; omega
  rw [exec_ascRdb, hindex, if_pos (by omega), State.memRead, Memory.read_of_bytes hv hk, zext16_eq_ofNat (v.getD k 0)]

/-! ### `RTU.FRAME` and `ASC.FRAME` -/

/-- `RTU.FRAME` leaves `cfg`. -/
theorem checkFrame_foldl_rtuFrame (m : List Byte) (s : State) :
    ((rtuFrame m).foldl State.after s).checkFrame = s.cfg.getLsbD 0 := by
  rw [State.checkFrame, foldl_after_cfg]
  intro i hi
  simp only [rtuFrame, List.cons_append, List.mem_cons, List.mem_append, List.mem_map, List.not_mem_nil, or_false] at hi
  rcases hi with rfl | ⟨b, -, rfl⟩ | rfl <;> simp [Instr.unit]

/-- `ASC.FRAME` leaves `cfg`. -/
theorem checkFrame_foldl_ascFrame (m : List Byte) (s : State) :
    ((ascFrame m).foldl State.after s).checkFrame = s.cfg.getLsbD 0 := by
  rw [State.checkFrame, foldl_after_cfg]
  intro i hi
  simp only [ascFrame, List.cons_append, List.mem_cons, List.mem_append, List.mem_map, List.not_mem_nil, or_false] at hi
  rcases hi with rfl | ⟨b, -, rfl⟩ | rfl <;> simp [Instr.unit]

/-- `ASC.FRAME` ends with the status read, so its response is the status word of the state it leaves. -/
theorem rsp_foldl_ascFrame (m : List Byte) (s : State) :
    ((ascFrame m).foldl State.after s).rsp =
      ((ascFrame m).foldl State.after s).asc.stat ((ascFrame m).foldl State.after s).checkFrame := by
  rw [foldl_ascFrame]
  rfl

/-- `ASC.FRAME` gives its characters to the cleared detector. -/
theorem asc_foldl_ascFrame (m : List Byte) (s : State) :
    ((ascFrame m).foldl State.after s).asc = m.foldl AscDetector.push s.asc.clear := by
  rw [foldl_ascFrame, State.after_asc]
  refine (foldl_after_asc (by simp) _).trans ?_
  rw [ascBytes_pushes, State.after_asc]

/-- Settles O56: the commands feed the unit the ADU, which ends DONE with a wrong checksum (`Fed.wellShaped`,
`AscDetector.foldl_push_wrongLrc`), and the status read says what `CHECK_FRAME` makes of that. -/
theorem checkFrameDecidesOnWrongChecksum : Obligations.CheckFrameDecidesOnWrongChecksum := by
  refine ⟨fun s frame x y hinv hshape hwrong => ⟨_, execAll_eq_foldl _ _, ?_⟩,
    fun s frame x hinv hmin hmax hx => ⟨_, execAll_eq_foldl _ _, ?_⟩⟩
  · have hfed := Fed.rtuFrame hinv rfl (frame ++ [x, y])
    obtain ⟨hs, hidx, hcrcok⟩ := hfed.wellShaped hshape
    rw [rsp_foldl_rtuFrame, checkFrame_foldl_rtuFrame]
    obtain ⟨herr, hframe, hok⟩ :=
      RtuParser.stat_of_wrongCrc hs (Bool.eq_false_of_not_eq_true (hcrcok.not.mpr hwrong)) (s.cfg.getLsbD 0)
    refine ⟨herr, hframe, hok, fun k hk => ?_⟩
    rw [hfed.exec_rtuRdb (by omega), List.getD_append _ _ _ _ hk]
  · obtain ⟨a, ha, hs, hflags, hlrcok, hcnt, hbytes⟩ :=
      AscDetector.foldl_push_wrongLrc (AscDetector.inv_clear hinv.asc.bufWf) rfl hmin hmax hx
    rw [← asc_foldl_ascFrame] at ha
    subst ha
    rw [rsp_foldl_ascFrame, checkFrame_foldl_ascFrame]
    obtain ⟨herr, hframe, hok⟩ := AscDetector.stat_of_wrongLrc hs hflags hlrcok (s.cfg.getLsbD 0)
    exact ⟨herr, hframe, hok, fun k hk => exec_ascRdb_of_bytes hbytes hk (by omega)⟩

end Sys2Proof.Machine
end

section
/-! `NOP`, `CFG.WR` and `CFG.RD`, and how a written `cfg` reaches later commands (44_config_and_misc.md R230 to R232). -/

namespace Sys2Proof.Machine

variable {i : Instr} {s : State}

theorem getLsbD_operandCfg (x : Half) {k : Nat} (hk : k < 2) : (operandCfg x).getLsbD k = x.getLsbD k := by
  simp [operandCfg, hk]

/-- `CFG.WR` as rule R231 writes it. -/
theorem State.after_cfgWr (s : State) (x : Half) :
    s.after (.cfgWr x) = { s with cfg := BitVec.ofNat 2 (x.toNat % 4), rsp := 0x0000 } := by
  have hcfg : operandCfg x = BitVec.ofNat 2 (x.toNat % 4) := by
    apply BitVec.eq_of_toNat_eq
    simp [operandCfg]
  rw [← hcfg]
  rfl

theorem State.checkFrame_after_cfgWr (s : State) (x : Half) : (s.after (.cfgWr x)).checkFrame = x.getLsbD 0 :=
  getLsbD_operandCfg x (by decide)

theorem State.rtuDir_after_cfgWr (s : State) (x : Half) :
    (s.after (.cfgWr x)).rtuDir = if x.getLsbD 1 then .request else .response := by
  rw [State.rtuDir_eq, ← getLsbD_operandCfg x (by decide)]
  rfl

/-- The push that is accepted at index 0 latches the direction (rule R160). -/
theorem RtuParser.push_dir_at_zero {r : RtuParser} (ha : r.accepting = true) (hi : r.idx = 0) (dir : Dir) (b : Byte) :
    (r.push dir b).dir = dir := by
  obtain ⟨hdir, -⟩ := RtuParser.accept_frame (r := r) (dir := dir) (b := b)
  rw [RtuParser.push_eq_accept ha, hdir, if_pos hi]

/-- No command conflicts with a `CFG.WR` but the status reads and a push at index 0 (rule R72). -/
theorem cfgConflict_cfgWr (x : Half) (hpush : ∀ y, i = .rtuPush y → s.rtu.idx ≠ 0) (hrtu : i ≠ .rtuStat)
    (hasc : i ≠ .ascStat) : cfgConflict s (.cfgWr x) i = false := by
  cases i with
  | rtuPush y => exact Bool.and_eq_false_imp.mpr fun _ => decide_eq_false (hpush y rfl)
  | rtuStat => exact absurd rfl hrtu
  | ascStat => exact absurd rfl hasc
  | _ => rfl

/-- After a `CFG.WR` a command of another unit that does not conflict does what it would have done. -/
theorem State.after_cfgWr_after (x : Half) (hu : i.unit ≠ .cfg) (hc : cfgConflict s (.cfgWr x) i = false) :
    (s.after (.cfgWr x)).after i = { s.after i with cfg := (s.after (.cfgWr x)).cfg } :=
  State.ext_fields (State.after_crc_congr i rfl) (State.after_lsum_congr i rfl) (State.after_cfg_other _ hu)
    (State.after_after_rtu nofun hc) (State.after_asc_congr i rfl) (State.after_after_rsp hu.symm hc)
    (by simp only [State.after_inputs])

/-- Settles O55: the codes by `codedAs_of_opcode`; after `CFG.WR` the status words and outputs are those of the new
`CHECK_FRAME`, the push at index 0 latches the new direction, and the rest is `State.after_cfgWr_after`. -/
theorem nopAndConfiguration : Obligations.NopAndConfiguration := by
  refine ⟨codedAs_of_opcode (i := .nop) rfl (fun _ => rfl) (by decide),
    codedAs_of_opcode (i := .cfgWr 0) rfl (fun x => ?code) (by decide),
    codedAs_of_opcode (i := .cfgRd) rfl (fun _ => rfl) (by decide),
    fun s => ⟨rfl, fun w rest hq => step_idle hq, fun w op hd => applyCommand_reserved hd s,
      fun x => ⟨s.after (.cfgWr x), _, _, exec_eq_after _ _, s.after_cfgWr x, s.checkFrame_after_cfgWr x,
        s.rtuDir_after_cfgWr x, exec_eq_after _ _, ?rtuStat, exec_eq_after _ _, ?ascStat, ?rtuOut, ?ascOut,
        fun y ha hi => ⟨_, exec_eq_after _ _, ?latch⟩,
        fun i hpush hrtu hasc hu => ⟨_, _, exec_eq_after _ _, exec_eq_after _ _,
          State.after_cfgWr_after x hu (cfgConflict_cfgWr x hpush hrtu hasc)⟩⟩,
      ?cfgRd⟩⟩
  case code => rw [Instr.withOperand, usedOperand_eq]
  case rtuStat => rw [State.after_rsp, State.checkFrame_after_cfgWr]; rfl
  case ascStat => rw [State.after_rsp, State.checkFrame_after_cfgWr]; rfl
  case rtuOut =>
    obtain ⟨-, -, -, -, hframe, -⟩ := s.rtu.stat_fields (x.getLsbD 0)
    rw [hframe, ← s.checkFrame_after_cfgWr x]; rfl
  case ascOut =>
    obtain ⟨-, -, -, -, hframe, -⟩ := s.asc.stat_fields (x.getLsbD 0)
    rw [hframe, ← s.checkFrame_after_cfgWr x]; rfl
  case latch =>
    rw [State.after_rtuPush_rtu, State.rtuDir_after_cfgWr]
    exact RtuParser.push_dir_at_zero ha hi _ _
  case cfgRd => rw [← zext16_eq_ofNat]; rfl

end Sys2Proof.Machine
end

section
/-! The causes an error is reported with, the function codes that raise UNSUPPORTED, and the overrun flags
(60_exceptions.md R245, R250, R253). -/

namespace Sys2Proof.Machine

variable {r : RtuParser} {dir : Dir} {b : Byte} {a : AscDetector} {c : Byte}

/-! ### UNSUPPORTED (rule R250) -/

/-- The function codes in no length class, as rule R250 lists them. -/
theorem lenClass_eq_unsupported_iff (d : Dir) (fc : Byte) :
    lenClass d fc = .unsupported ↔
      fc.toNat = 0x00 ∨ (0x07 ≤ fc.toNat ∧ fc.toNat ≤ 0x0E) ∨ (0x11 ≤ fc.toNat ∧ fc.toNat ≤ 0x7F) ∨
        (d = .request ∧ 0x80 ≤ fc.toNat) := by
  have hlt := fc.isLt
  cases d with
  | response =>
    simp only [lenClass, responseClass_eq, List.mem_cons, List.not_mem_nil, or_false, BitVec.toNat_eq]
    split_ifs <;> simp at * <;> omega
  | request =>
    simp only [lenClass, requestClass_eq, List.mem_cons, List.not_mem_nil, or_false, BitVec.toNat_eq]
    split_ifs <;> simp at * <;> omega

/-- An accepted byte stops the parser exactly where it is a function code in no length class. -/
theorem RtuParser.push_state_error_iff (ha : r.accepting = true) :
    (r.push dir b).state = .error ↔ r.idx = 1 ∧ lenClass r.dir b = .unsupported := by
  rw [RtuParser.push_eq_accept ha, RtuParser.accept_state]
  split_ifs with hu <;> simpa using hu

/-- Settles O31: when the push raises by `RtuParser.push_state_error_iff`, what it writes by the law of the
unsupported function code. -/
theorem unsupportedCodeStopsParser : Obligations.UnsupportedCodeStopsParser := by
  intro x s b hb hinv hs hi
  have herror : (s.after (.rtuPush x)).rtu.state = .error ↔ lenClass s.rtu.dir b = .unsupported := by
    rw [State.after_rtuPush_rtu, ← hb, RtuParser.push_state_error_iff (RtuParser.accepting_iff.mpr (.inr hs)),
      and_iff_right hi]
  refine ⟨_, exec_eq_after _ _, herror.trans (lenClass_eq_unsupported_iff s.rtu.dir b), fun ht => ?_⟩
  subst hb
  exact exec_next_iff.mp (exec_rtuPush_of (RtuParser.push_unsupported (.inr hs) hi (herror.mp ht)))

/-! ### The cause codes (rule R245) -/

/-- The parser is in ERROR exactly when the function code it holds is in no length class. -/
theorem RtuParser.Inv.error_iff (h : r.Inv) :
    r.state = .error ↔ 2 ≤ r.idx.toNat ∧ r.heldClass = .unsupported := by
  constructor
  · intro hs
    obtain ⟨hi, -⟩ := h.errorHolds hs
    exact ⟨by rw [hi]; decide, h.errorClass hs⟩
  · rintro ⟨h2, hc⟩
    have hk : r.lenk = false := Bool.eq_false_of_not_eq_true fun hk => (h.lenk_iff.mp hk).1 hc
    cases hs : r.state with
    | error => rfl
    | idle => rw [h.idleIff.mp hs] at h2; exact absurd h2 (by decide)
    | done => exact absurd (h.doneIff.mp hs).1 (by simp [hk])
    | recv => rcases h.waiting hs hk h2 with ⟨hclass, -⟩ | hclass <;> rw [hclass] at hc <;> cases hc

/-- `RTU_STAT.ERR` as a number: in ERROR the recorded cause is UNSUPPORTED. -/
theorem RtuParser.Inv.toNat_errCode (h : r.Inv) (checkFrame : Bool) :
    (r.errCode checkFrame).toNat =
      if r.state = .error then 3 else if r.state = .done ∧ r.crcok = false ∧ checkFrame = true then 2 else 0 := by
  rw [RtuParser.errCode, apply_ite BitVec.toNat, apply_ite BitVec.toNat]
  refine if_ctx_congr Iff.rfl (fun hs => ?_) fun _ => rfl
  obtain ⟨-, herr, -⟩ := h.errorHolds hs
  rw [herr]
  rfl

/-- `ASC_STAT.ERR` as a number: FRAMING outranks CHECKSUM, and both need DONE (rules R248, R249, R254). -/
theorem AscDetector.toNat_errCode (a : AscDetector) (checkFrame : Bool) :
    (a.errCode checkFrame).toNat =
      if a.state ≠ .done then 0 else if a.flags ≠ 0 then 1 else if a.lrcok = false ∧ checkFrame = true then 2 else 0 := by
  rw [AscDetector.errCode, apply_ite BitVec.toNat, apply_ite BitVec.toNat, apply_ite BitVec.toNat]
  rfl

/-- Settles O57: each condition on an ERR field is a branch of its `toNat_errCode`, ERROR is `RtuParser.Inv.error_iff`,
and a command of another unit leaves both parsers. -/
theorem causeCodes : Obligations.CauseCodes := by
  intro s hinv
  obtain ⟨-, -, -, -, -, -, -, hrtu, -⟩ := s.rtu.stat_fields s.checkFrame
  obtain ⟨-, -, -, -, -, -, -, hasc, -⟩ := s.asc.stat_fields s.checkFrame
  rw [hinv.rtu.toNat_errCode, State.checkFrame] at hrtu
  rw [AscDetector.toNat_errCode, State.checkFrame] at hasc
  have hunsupported : (s.after .rtuStat).rsp.toNat / 2 ^ 8 % 8 = 3 ↔ s.rtu.state = .error := by
    rw [State.after_rsp, State.checkFrame, hrtu]
    split_ifs <;> simp [*]
  refine ⟨_, _, exec_eq_after _ s, exec_eq_after _ s, hunsupported, hunsupported.trans hinv.rtu.error_iff, ?_, ?_, ?_,
    ?_, ?_, fun i hr ha => ⟨_, exec_eq_after i s, State.after_rtu_other s hr, State.after_asc_other s ha⟩⟩
  all_goals
    simp only [State.after_rsp, State.checkFrame, hrtu, hasc]
    split_ifs <;> simp_all

/-! ### OVERRUN (rule R253) -/

/-- Two words with the fields of a status word, apart from bit 6 the same. -/
theorem append_overrun (flags : BitVec 5) (err : BitVec 3) (b7 b5 b4 b3 b2 : BitVec 1) (state : BitVec 2) :
    flags ++ err ++ b7 ++ 1#1 ++ b5 ++ b4 ++ b3 ++ b2 ++ state =
      (flags ++ err ++ b7 ++ 0#1 ++ b5 ++ b4 ++ b3 ++ b2 ++ state) ^^^ 0x0040 := by
  have hbit : (0x0040 : BitVec (5 + 3 + 1 + 1 + 1 + 1 + 1 + 1 + 2)) =
      0#5 ++ 0#3 ++ 0#1 ++ 1#1 ++ 0#1 ++ 0#1 ++ 0#1 ++ 0#1 ++ 0#2 := by decide
  rw [hbit]
  simp only [BitVec.xor_append, BitVec.xor_zero, BitVec.zero_xor]

theorem RtuParser.stat_ovr (r : RtuParser) (checkFrame : Bool) :
    { r with ovr := true }.stat checkFrame = { r with ovr := false }.stat checkFrame ^^^ 0x0040 :=
  append_overrun ..

theorem AscDetector.stat_ovr (a : AscDetector) (checkFrame : Bool) :
    { a with ovr := true }.stat checkFrame = { a with ovr := false }.stat checkFrame ^^^ 0x0040 :=
  append_overrun ..

theorem RtuParser.push_ovr_iff :
    (r.push dir b).ovr = true ↔ r.ovr = true ∨ r.state = .done ∨ r.state = .error := by
  cases hacc : r.accepting with
  | false =>
    have hended := RtuParser.ended_of_not_accepting hacc
    rw [RtuParser.push_dropped hended]
    simp [hended]
  | true =>
    obtain ⟨-, -, hovr, -⟩ := RtuParser.accept_frame (r := r) (dir := dir) (b := b)
    rw [RtuParser.push_eq_accept hacc, hovr]
    rcases RtuParser.accepting_iff.mp hacc with hs | hs <;> simp [hs]

theorem AscDetector.push_ovr_iff : (a.push c).ovr = true ↔ a.ovr = true ∨ a.state = .done := by
  by_cases hs : a.state = .done
  · rw [AscDetector.push_dropped hs]
    simp [hs]
  · rw [(AscDetector.keptBy_push hs).ovr]
    simp [hs]

/-- Settles O58: setting a flag flips bit 6 of its status word (`stat_ovr`); only the unit's clear and push write the
flag, the push as its `push_ovr_iff` says. -/
theorem overrunIsNoCause : Obligations.OverrunIsNoCause := by
  refine fun s => ⟨⟨_, _, rfl, rfl, s.rtu.stat_ovr s.checkFrame⟩, ⟨_, _, rfl, rfl, s.asc.stat_ovr s.checkFrame⟩,
    fun i => ⟨_, exec_eq_after i s, ?_, ?_⟩⟩
  · rw [State.after_rtu]
    cases i with
    | rtuClr => simp [RtuParser.clear, RtuParser.reset]
    | rtuPush x => simp [RtuParser.push_ovr_iff]
    | _ => simp
  · rw [State.after_asc]
    cases i with
    | ascClr => simp [AscDetector.clear, AscDetector.reset]
    | ascPush x => simp [AscDetector.push_ovr_iff]
    | _ => simp

end Sys2Proof.Machine
end

section
/-! Completion of every command and step, the step with `rst = 1`, and the reset state
(70_reset_and_hazards.md R275, R276, R289). -/

namespace Sys2Proof.Machine

/-! ### Completion (rule R289) -/

/-- Settles O10: a command by `exec_eq_after`, a step by what it can do (`step_cases`); none of the three kinds of step
writes the samples still to come. -/
theorem everyCommandAndStepCompletes : Obligations.EveryCommandAndStepCompletes := by
  refine ⟨fun i s => ⟨s.after i, exec_eq_after i s, s.after_inputs i⟩, fun s => ?_⟩
  rcases step_cases s with hreset | ⟨i, hcommand⟩ | hrespond
  · exact ⟨_, hreset, State.resetEvent_inputs _⟩
  · exact ⟨_, hcommand, State.after_inputs _ i⟩
  · exact ⟨_, hrespond, State.respond_inputs _ 0⟩

/-! ### The reset step (rule R275) -/

/-- After a reset, with any samples waiting, a second one changes nothing more: it writes no buffer. -/
theorem State.resetEvent_setInputs_resetEvent (s : State) (q : List PortSample) :
    (s.resetEvent.setInputs q).resetEvent = s.resetEvent.setInputs q := rfl

/-- Settles O2: both steps are `step_reset`; the second is taken from a state that a reset has left. -/
theorem resetStepRestoresRegisters : Obligations.ResetStepRestoresRegisters := by
  intro s v w rest hq after
  refine ⟨step_reset hq, fun v' w' rest' hrest => ?_⟩
  calc step (after rest)
    _ = .next ((after rest).setInputs rest').resetEvent := step_reset hrest
    _ = .next (after rest') :=
      congrArg Host.Outcome.next (State.resetEvent_setInputs_resetEvent (s.setInputs rest) rest')

/-! ### The reset state (rule R276) -/

@[simp] theorem RtuParser.stat_reset (checkFrame : Bool) : RtuParser.reset.stat checkFrame = 0x0000 := by
  cases checkFrame <;> decide

@[simp] theorem AscDetector.stat_reset (checkFrame : Bool) : AscDetector.reset.stat checkFrame = 0x0000 := by
  cases checkFrame <;> decide

/-- A command that only responds, by the word it answers. -/
theorem exec_eq_of_respond {i : Instr} {s : State} {u v : Half} (hi : exec i s = .next (s.respond u)) (hu : u = v) :
    exec i s = .next { s with rsp := v } := hu ▸ hi

/-- Settles O4: a register is a field of `State.reset`, a byte of an empty buffer is 0 (`Memory.read_nil`); the status
words are the `stat_reset` lemmas, the other reads the views of rule R43 at the reset registers. -/
theorem resetStateValues : Obligations.ResetStateValues := by
  obtain ⟨hlen, -, hrtuCrc, -, -, hcrc, hlrc, hcfg⟩ := readViewsChangeNothing State.reset
  exact ⟨rfl, rfl, rfl, rfl, rfl, rfl, rfl, rfl, rfl, rfl, rfl, rfl, rfl, rfl, rfl, rfl, rfl, rfl, rfl, rfl, rfl, rfl,
    fun a => ⟨Memory.read_nil a, Memory.read_nil a⟩, exec_eq_of_respond rfl (RtuParser.stat_reset _),
    exec_eq_of_respond rfl (AscDetector.stat_reset _), hlen, hrtuCrc, hcrc, hlrc, hcfg⟩

end Sys2Proof.Machine
end
